-- ==== Sys2Proof/Word.lean ====
section
/-! DEFINITION. The two bit-vector types of the block: a byte of RAM and a 32-bit word of the register page, of the bus
address and of a wire header field (R8, R9, R36). -/

namespace Sys2Proof

/-- One byte of TXM, RXM or BUF, and the width of TX_KIND and RX_KIND (R8, R34). -/
abbrev Byte := BitVec 8

/-- A 32-bit register, header field, command word or bus address (R8, R36, R50). -/
abbrev Word := BitVec 32

end Sys2Proof
end

