-- ==== Sys2Proof/Syntax.lean ====
section
/-! DEFINITION. The block's instructions: the 18 commands of the opcode map (R52), one constructor for each row of
spec/opcode_table.json. No command word carries an operand (R51), so no constructor has an argument. -/

namespace Sys2Proof

/-- A command of the block, in the order of R52's table. -/
inductive Instr where
  | nop
  | reset
  | encode
  | encodeFrame
  | encodeAck
  | decode
  | winLoad
  | winRecvInit
  | winSetwin
  | winNext
  | winPendRead
  | winAck
  | winAccept
  | winDrain
  | tmrRestartRx
  | tmrRestartIdle
  | tmrClear
  | tmrPoll
deriving DecidableEq, Repr

/-- The four groups of the opcode map (R52). -/
inductive Group where
  | control
  | codec
  | window
  | timer
deriving DecidableEq, Repr

/-- Which group a command belongs to (R52; one section file of the spec for each). -/
def Instr.group : Instr → Group
  | .nop | .reset => .control
  | .encode | .encodeFrame | .encodeAck | .decode => .codec
  | .winLoad | .winRecvInit | .winSetwin | .winNext | .winPendRead | .winAck | .winAccept | .winDrain => .window
  | .tmrRestartRx | .tmrRestartIdle | .tmrClear | .tmrPoll => .timer

end Sys2Proof
end

