-- ==== Sys2Proof/WellFormed.lean ====
section
/-! DEFINITION. Which terms are well formed. A command has no operand (R51), so there is nothing to check in an `Instr`;
what R50 and R53 do check is the 32-bit command word. The legal ranges of the parameters are `Config.Legal`. -/

namespace Sys2Proof

/-- Every command is well formed: it has no field that a check could refuse (R51). -/
def Instr.wellFormed : Instr → Bool
  | .nop | .reset | .encode | .encodeFrame | .encodeAck | .decode | .winLoad | .winRecvInit | .winSetwin | .winNext
  | .winPendRead | .winAck | .winAccept | .winDrain | .tmrRestartRx | .tmrRestartIdle | .tmrClear | .tmrPoll => true

/-- RSV, bits 31:8 of a command word, is 0 (R50). -/
def rsvClear (w : Word) : Bool := w.extractLsb' 8 24 == 0#24

/-- OP, bits 7:0, is one of the 18 opcodes. Written from the ranges that R53 leaves: everything but 0x02 to 0x0F,
0x14 to 0x1F, 0x28 to 0x2F and 0x34 to 0xFF. -/
def opcodeDefined (w : Word) : Bool :=
  let op := (w.extractLsb' 0 8).toNat
  !((0x02 ≤ op && op ≤ 0x0F) || (0x14 ≤ op && op ≤ 0x1F) || (0x28 ≤ op && op ≤ 0x2F) || (0x34 ≤ op && op ≤ 0xFF))

/-- A legal command word (R50, R53). -/
def commandWordWF (w : Word) : Bool := rsvClear w && opcodeDefined w

end Sys2Proof
end

