-- ==== Sys2Proof/Decode.lean ====
section
/-! DEFINITION. The decoder of command words (R50 to R53), total on all 2^32 words and rejecting by name; after it the
encoder, written from R52's table on its own, and the host's entry `decodeTableWord`. A command word is the data of ONE
32-bit bus write (R48, R50), so no byte order enters here (R41). -/

namespace Sys2Proof

/-- Why a command word is illegal (R53). Either reason gives the one ILLEGAL outcome of R92. -/
inductive DecodeError where
  /-- Bits 31:8 are not 0. -/
  | reservedBits
  /-- OP is not one of the 18 opcodes. -/
  | undefinedOpcode (op : Byte)
deriving DecidableEq, Repr

/-- RSV, bits 31:8 (R50). -/
def fieldRsv (w : Word) : BitVec 24 := w.extractLsb' 8 24

/-- OP, bits 7:0 (R50). -/
def fieldOp (w : Word) : Byte := w.extractLsb' 0 8

/-- The opcode map of R52. -/
def decodeOpcode (op : Byte) : Option Instr :=
  match op.toNat with
  | 0x00 => some .nop
  | 0x01 => some .reset
  | 0x10 => some .encode
  | 0x11 => some .encodeFrame
  | 0x12 => some .encodeAck
  | 0x13 => some .decode
  | 0x20 => some .winLoad
  | 0x21 => some .winRecvInit
  | 0x22 => some .winSetwin
  | 0x23 => some .winNext
  | 0x24 => some .winPendRead
  | 0x25 => some .winAck
  | 0x26 => some .winAccept
  | 0x27 => some .winDrain
  | 0x30 => some .tmrRestartRx
  | 0x31 => some .tmrRestartIdle
  | 0x32 => some .tmrClear
  | 0x33 => some .tmrPoll
  | _ => none

/-- Decode a command word: the reserved bits first, then the opcode (R50, R53). -/
def decode (w : Word) : Except DecodeError Instr :=
  if fieldRsv w ≠ 0#24 then .error .reservedBits
  else
    match decodeOpcode (fieldOp w) with
    | some i => .ok i
    | none => .error (.undefinedOpcode (fieldOp w))

/-- The command word of a command, from R52's table and the "Encoding: CMD = …" line of each command's rule. -/
def encode : Instr → Word
  | .nop => 0x0000_0000#32
  | .reset => 0x0000_0001#32
  | .encode => 0x0000_0010#32
  | .encodeFrame => 0x0000_0011#32
  | .encodeAck => 0x0000_0012#32
  | .decode => 0x0000_0013#32
  | .winLoad => 0x0000_0020#32
  | .winRecvInit => 0x0000_0021#32
  | .winSetwin => 0x0000_0022#32
  | .winNext => 0x0000_0023#32
  | .winPendRead => 0x0000_0024#32
  | .winAck => 0x0000_0025#32
  | .winAccept => 0x0000_0026#32
  | .winDrain => 0x0000_0027#32
  | .tmrRestartRx => 0x0000_0030#32
  | .tmrRestartIdle => 0x0000_0031#32
  | .tmrClear => 0x0000_0032#32
  | .tmrPoll => 0x0000_0033#32

/-- The 32-bit command word that a table row's `nbits` bits `w` stand for: the bits above `nbits` are 0, and a number that
does not fit in 32 bits is no command word. -/
def tableWord (nbits w : Nat) : Option Word :=
  let v := w % 2 ^ nbits
  if v < 2 ^ 32 then some (BitVec.ofNat 32 v) else none

/-- What the decoder reads from a word numbered as spec/opcode_table.json numbers it. -/
def decodeTableWord (nbits w : Nat) : Option Instr :=
  match tableWord nbits w with
  | some v => (decode v).toOption
  | none => none

end Sys2Proof
end

