-- ==== Sys2Proof/Config.lean ====
section
/-! DEFINITION. The construction-time parameters of an instance of the block (R7) and their legal ranges. The block has no
free value: R15 says that nothing is left undefined. -/

namespace Sys2Proof

/-- The parameters of one instance (R7). They are fixed when the instance is built, and the CFG registers show them (R20).
TICK_PERIOD and the platform's KGP_BASE are left out, since no rule reads them (log 8). -/
structure Config where
  /-- PKT_BUDGET: bytes in every encoded packet. -/
  pktBudget : Nat
  /-- BUF_CAP: bytes of the transfer buffer. -/
  bufCap : Nat
  /-- FIFO_DEPTH: entries of the outstanding-frame FIFO. -/
  fifoDepth : Nat
  /-- RECV_WINDOW: receive window in bytes, advertised in every ACK the block encodes. -/
  recvWindow : Nat
  /-- RX_TMO: receive timeout in ticks. -/
  rxTmo : Nat
  /-- IDLE_TMO: idle timeout in ticks. -/
  idleTmo : Nat
deriving DecidableEq, Repr

namespace Config

/-- HDR_SIZE, the 17 bytes of a wire header (R7, R55). -/
def hdrSize : Nat := 17

/-- PAYLOAD_CAP = PKT_BUDGET - HDR_SIZE (R7). -/
def payloadCap (c : Config) : Nat := c.pktBudget - hdrSize

/-- The legal ranges of R7's table. -/
def Legal (c : Config) : Bool :=
  (18 ≤ c.pktBudget && c.pktBudget ≤ 4096)
    && (1 ≤ c.bufCap && c.bufCap ≤ 2 ^ 24)
    && (1 ≤ c.fifoDepth && c.fifoDepth ≤ 2 ^ 16)
    && (1 ≤ c.recvWindow && c.recvWindow < 2 ^ 32)
    && c.rxTmo < 2 ^ 32
    && c.idleTmo < 2 ^ 32

/-- The reference values of R7 (D28). DESIGN CHOICE (log 5): `State.reset` is the reset of this instance, and no rule
depends on these values. -/
def reference : Config where
  pktBudget := 1500
  bufCap := 2 ^ 20
  fifoDepth := 64
  recvWindow := 5932
  rxTmo := 500
  idleTmo := 10000

end Config

end Sys2Proof
end

