-- ==== Sys2Proof/Machine/State.lean ====
section
/-! DEFINITION. The state of the block as plain data (10_state.md), the events its three agents bring (R6), the reasons a
step can stop, and the state after hardware reset (R35, R105). -/

namespace Sys2Proof.Machine

/-- A RAM: the bytes that are not 0, as (offset, byte) pairs with rising offsets. An offset that is not listed reads 0, the
value hardware reset gives every RAM byte (R34, R38, R105). Log 7. -/
abbrev Memory := List Host.Cell

/-- The canonical form of a RAM, so that equal memories are equal data. -/
abbrev Memory.wf (m : Memory) : Prop :=
  m.Pairwise (fun c d => c.1 < d.1) ∧ ∀ c ∈ m, c.2 ≠ 0#8

/-- Every listed byte lies inside an array of `n` bytes (R11, R34). -/
abbrev Memory.within (m : Memory) (n : Nat) : Prop := ∀ c ∈ m, c.1 < n

/-- Which direction the buffer serves (R28). The value 3 never occurs, since it has no constructor. -/
inductive Role where
  | none
  | send
  | recv
deriving DecidableEq, Repr

/-- Whether the terminal frame was produced and confirmed (R30). -/
inductive EndState where
  | notSent
  | pending
  | acked
deriving DecidableEq, Repr

/-- The 15 result codes, the only values STATUS.RESULT takes (R94). -/
inductive ResultCode where
  | ok
  | noFrame
  | ackRejected
  | outOfOrder
  | overflow
  | malformed
  | badKind
  | badDsize
  | range
  | tooBig
  | winTooSmall
  | role
  | noPacket
  | notData
  | illegal
deriving DecidableEq, Repr

/-- A frame: a slice of the transfer, its start and its length (R14, R31). -/
structure Frame where
  seq : Nat
  flen : Nat
deriving DecidableEq, Repr

/-- The six bits of RX_FLAGS (R27). -/
structure RxFlags where
  valid : Bool
  badKind : Bool
  overCap : Bool
  trunc : Bool
  ctrlPayload : Bool
  overLen : Bool
deriving DecidableEq, Repr

/-- The TX_* registers (R25). -/
structure TxRegs where
  kind : Byte
  seq : Word
  ack : Word
  win : Word
  dsize : Word
  len : Word
deriving DecidableEq, Repr

/-- The RX_* registers (R26, R27). -/
structure RxRegs where
  len : Word
  kind : Byte
  seq : Word
  ack : Word
  win : Word
  dsize : Word
  dsizeRaw : Word
  flags : RxFlags
deriving DecidableEq, Repr

/-- The sliding-window buffer (R28 to R31). The offsets are naturals, as R29 has them (log 6); `fifo` has the oldest frame
first. The bytes of the transfer are in `State.buf`. -/
structure Window where
  role : Role
  head : Nat
  pointer : Nat
  len : Nat
  win : Nat
  endState : EndState
  endOffset : Nat
  fifo : List Frame
deriving DecidableEq, Repr

/-- The timer supervisor (R33): two armed bits and two down-counters (log 6). -/
structure Timers where
  rxArmed : Bool
  rxCount : Nat
  idleArmed : Bool
  idleCount : Nat
deriving DecidableEq, Repr

/-- One atomic step of one of the three agents (R6, R44): an access of the host, a pulse of `tick`, or `rst`. -/
inductive Event where
  /-- Host: `MemRead(addr, 4)`. -/
  | read32 (addr : Word)
  /-- Host: `MemRead(addr, 1)`. -/
  | read8 (addr : Word)
  /-- Host: `MemWrite(addr, 4, v)`. -/
  | write32 (addr v : Word)
  /-- Host: `MemWrite(addr, 1, v)`. -/
  | write8 (addr : Word) (v : Byte)
  /-- Time base: one pulse of `tick` (R82). -/
  | tick
  /-- Hardware reset: `rst` (R105). -/
  | rst
deriving DecidableEq, Repr

/-- What the bus answered to the last host access that it completed (log 2). -/
inductive Reply where
  | none
  | written
  | word (v : Word)
  | byte (v : Byte)
deriving DecidableEq, Repr

/-- The whole state of the block, with the two fields of the model's own at the end. -/
structure State where
  /-- The instance's parameters, the constants of ID and the CFG registers (R7, R20). No step changes them. -/
  cfg : Config
  /-- STATUS.RESULT (R22, R94). -/
  result : ResultCode
  /-- ARG0 (R23). -/
  arg0 : Word
  /-- ARG1 (R23). -/
  arg1 : Word
  /-- RES0 (R23). -/
  res0 : Word
  /-- RES1 (R23). -/
  res1 : Word
  /-- IRQ_EN bit 0, TMO_IE (R24). -/
  tmoIe : Bool
  /-- The TX_* registers (R25). -/
  tx : TxRegs
  /-- The RX_* registers (R26, R27). -/
  rx : RxRegs
  /-- The window variables (R28 to R31). -/
  win : Window
  /-- The timers (R33). -/
  tmr : Timers
  /-- TXM, PKT_BUDGET bytes (R34). -/
  txm : Memory
  /-- RXM, PKT_BUDGET bytes (R34). -/
  rxm : Memory
  /-- BUF, BUF_CAP bytes (R34). -/
  buf : Memory
  /-- The MODEL's own: what the three agents do from here on, first first. Any list is allowed, and the block never looks
  past its head. DESIGN CHOICE (log 1). -/
  script : List Event
  /-- The MODEL's own: the bus's answer to the last host access. DESIGN CHOICE (log 2). -/
  reply : Reply
deriving DecidableEq, Repr

/-- Why a step stops. -/
inductive Fault where
  /-- The bus error response `raise BusError(addr)` of R39, raised by a host access to an unmapped address, or of a width or
  alignment that R37 and R38 forbid. The spec asks a model to treat it as a fault of the host's step (R39, M20). Safe: the
  run stops where the hardware's host could go on; `State.afterBusError` is the state it would go on from (log 3). -/
  | busError (addr : Word)
deriving DecidableEq, Repr

/-- Why an instruction has no meaning. -/
inductive Refusal where
  /-- Raised by an arm of `exec` whose command has no meaning yet. No arm does. Safe: the machine stops. -/
  | notModelled (mnemonic : String)
deriving DecidableEq, Repr

/-- `rx_flags` with all six bits 0 (R27, R35). -/
def RxFlags.clear : RxFlags := ⟨false, false, false, false, false, false⟩

/-- The window variables of role NONE: after hardware reset and after RESET (R32 I7, R35, R91). -/
def Window.idle : Window where
  role := .none
  head := 0
  pointer := 0
  len := 0
  win := 0
  endState := .notSent
  endOffset := 0
  fifo := []

/-- Both timers disarmed with count 0 (R35, R88, R91). -/
def Timers.clear : Timers := ⟨false, 0, false, 0⟩

/-- The hardware-reset state of an instance (R35, R105): every register 0 but for ID and CFG_*, role NONE, an empty FIFO,
both timers disarmed, every RAM byte 0. The model's own fields start empty (log 1, log 2). -/
def State.resetOf (c : Config) : State where
  cfg := c
  result := .ok
  arg0 := 0
  arg1 := 0
  res0 := 0
  res1 := 0
  tmoIe := false
  tx := ⟨0, 0, 0, 0, 0, 0⟩
  rx := ⟨0, 0, 0, 0, 0, 0, 0, RxFlags.clear⟩
  win := Window.idle
  tmr := Timers.clear
  txm := []
  rxm := []
  buf := []
  script := []
  reply := .none

/-- The machine right after hardware reset, for the reference instance of R7 (DESIGN CHOICE, log 5). -/
def State.reset : State := State.resetOf Config.reference

end Sys2Proof.Machine
end

