-- ==== Sys2Proof/Machine/Ops.lean ====
section
/-! DEFINITION. The named operations over the RAMs and over the state that every meaning is written with: the memory
primitives of R11 (`M[i]`, `be32`, `put_be32`, `copy`, `zero`), the state updates, and how a command ends (`result(CODE)`,
R12). There is no exception to take: R93 says that no command traps, and the bus error of a host access is raised in
Machine/Bus.lean. -/

namespace Sys2Proof.Machine

namespace Memory

/-- `M[i]`, one byte; a byte that is not listed reads 0 (R11, R34, R38). -/
def read (m : Memory) (i : Nat) : Byte :=
  match m.find? (fun c => c.1 == i) with
  | some c => c.2
  | none => 0#8

/-- `m` with the `n` bytes from offset `a` taken out and the cells `mid`, which lie in that range, put in their place. -/
def replace (m : Memory) (a n : Nat) (mid : Memory) : Memory :=
  m.filter (fun c => c.1 < a) ++ mid ++ m.filter (fun c => a + n ≤ c.1)

/-- The cells that list the bytes `bs` from offset `o` on, less the bytes that are 0. -/
def cellsAt (o : Nat) : List Byte → Memory
  | [] => []
  | b :: bs => if b = 0#8 then cellsAt (o + 1) bs else (o, b) :: cellsAt (o + 1) bs

/-- Store the bytes `bs` at the offsets from `o` on: `M[o+k] <- bs[k]` (R11). -/
def store (m : Memory) (o : Nat) (bs : List Byte) : Memory :=
  replace m o bs.length (cellsAt o bs)

/-- `M[i] <- b` (R11). -/
def write (m : Memory) (i : Nat) (b : Byte) : Memory := store m i [b]

/-- `zero(M, a, b)`: `M[k] <- 0` for a ≤ k < b (R11). -/
def zero (m : Memory) (a b : Nat) : Memory := replace m a (b - a) []

/-- The cells of `src[s .. s+n)`, moved to offset `d`. -/
def slice (src : Memory) (s n d : Nat) : Memory :=
  (src.filter (fun c => s ≤ c.1 && c.1 < s + n)).map (fun c => (c.1 - s + d, c.2))

/-- `copy(D, d, S, s, n)`: `D[d+k] <- S[s+k]` for 0 ≤ k < n (R11). -/
def copy (dst : Memory) (d : Nat) (src : Memory) (s n : Nat) : Memory :=
  replace dst d n (slice src s n d)

end Memory

/-- The four bytes of a word, most significant first (R11, R40: big-endian). -/
def beBytes (v : Word) : List Byte :=
  [v.extractLsb' 24 8, v.extractLsb' 16 8, v.extractLsb' 8 8, v.extractLsb' 0 8]

/-- `put_be32(M, o, v)` (R11, R40). -/
def putBe32 (m : Memory) (o : Nat) (v : Word) : Memory := m.store o (beBytes v)

/-- `be32(M, o)` (R11, R40). -/
def be32 (m : Memory) (o : Nat) : Word :=
  m.read o ++ m.read (o + 1) ++ m.read (o + 2) ++ m.read (o + 3)

/-- The word that holds a natural of the pseudocode. R9: such a value is below 2^32 wherever a rule writes it to a register;
`Safety.Inv` proves that (log 6). -/
def toWord (n : Nat) : Word := BitVec.ofNat 32 n

namespace State

def setResult (s : State) (c : ResultCode) : State := { s with result := c }

/-- `x[RES0] <- v`. -/
def setRes0 (s : State) (v : Word) : State := { s with res0 := v }

/-- `x[RES1] <- v`. -/
def setRes1 (s : State) (v : Word) : State := { s with res1 := v }

def setTx (s : State) (t : TxRegs) : State := { s with tx := t }

def setRx (s : State) (r : RxRegs) : State := { s with rx := r }

def setWin (s : State) (w : Window) : State := { s with win := w }

def setTmr (s : State) (t : Timers) : State := { s with tmr := t }

def setTxm (s : State) (m : Memory) : State := { s with txm := m }

def setRxm (s : State) (m : Memory) : State := { s with rxm := m }

def setBuf (s : State) (m : Memory) : State := { s with buf := m }

def setScript (s : State) (es : List Event) : State := { s with script := es }

def setReply (s : State) (r : Reply) : State := { s with reply := r }

/-- `x[RES0] <- a; x[RES1] <- b`. -/
def setRes (s : State) (a b : Word) : State := (s.setRes0 a).setRes1 b

end State

/-- `result(CODE); finish`: every command ends by writing its result code, and the machine goes on (R12, R93, R94). -/
def finish (c : ResultCode) (s : State) : Host.Outcome State Fault Refusal := .next (s.setResult c)

end Sys2Proof.Machine
end

