-- ==== Sys2Proof/Machine/Operands.lean ====
section
/-! DEFINITION. What a command reads: the operand registers as unsigned numbers (R51), the kinds of a packet and its validity
(R13, R54, R56), and the wire header (R55). -/

namespace Sys2Proof.Machine

/-- SYN (R13, R54). -/
def kindSyn : Byte := 0x15#8

/-- ACK (R13, R54). -/
def kindAck : Byte := 0x05#8

/-- DATA (R13, R54). -/
def kindData : Byte := 0x02#8

/-- EOT (R13, R54). -/
def kindEot : Byte := 0x04#8

/-- `k ∈ CONTROL` (R13): a SYN, an ACK or an EOT. -/
def isControl (k : Byte) : Bool := k == kindSyn || k == kindAck || k == kindEot

/-- `k ∈ KINDS` (R13). -/
def isKind (k : Byte) : Bool := isControl k || k == kindData

/-- The three conditions that make a logical packet valid (R56), for an instance's PAYLOAD_CAP. -/
def packetValid (c : Config) (kind : Byte) (dsize : Nat) : Bool :=
  isKind kind && dsize ≤ c.payloadCap && (!isControl kind || dsize == 0)

namespace State

/-- `x[ARG0]` as a number (R51). -/
abbrev argNum0 (s : State) : Nat := s.arg0.toNat

/-- `x[ARG1]` as a number (R51). -/
abbrev argNum1 (s : State) : Nat := s.arg1.toNat

end State

/-- The first part of every encoder: the kind byte and the four header fields at their offsets of R55. -/
def putHeader (m : Memory) (kind : Byte) (seq ack win dsize : Word) : Memory :=
  putBe32 (putBe32 (putBe32 (putBe32 (m.write 0 kind) 1 seq) 5 ack) 9 win) 13 dsize

/-- A header whose data_size is `d`, with everything past the payload zeroed up to PKT_BUDGET (R55, R61). -/
def encodeImage (c : Config) (m : Memory) (kind : Byte) (seq ack win dsize : Word) : Memory :=
  (putHeader m kind seq ack win dsize).zero (Config.hdrSize + dsize.toNat) c.pktBudget

/-- The number of payload bytes a datagram of `len` bytes holds: `min(L, PKT_BUDGET) − 17` (R64, R65). -/
def payloadPresent (c : Config) (len : Nat) : Nat := min len c.pktBudget - Config.hdrSize

/-- The effective data size of a datagram of `len` bytes whose wire data_size is `raw` (R64). -/
def effectiveSize (c : Config) (len raw : Nat) : Nat := min raw (min c.payloadCap (payloadPresent c len))

end Sys2Proof.Machine
end

