-- ==== Sys2Proof/Machine/Flags.lean ====
section
/-! DEFINITION. Every flag, code and live view the block computes: the result codes (R94), the decode flags (R27, R65), the
timeouts and their verdict (R83, R84), the interrupt (R98), and the STATUS, RX_FLAGS and TMR_CTRL words (R22, R27, R33). -/

namespace Sys2Proof.Machine

/-- The code of a result (R94). -/
def ResultCode.code : ResultCode → BitVec 8
  | .ok => 0x00#8
  | .noFrame => 0x01#8
  | .ackRejected => 0x02#8
  | .outOfOrder => 0x03#8
  | .overflow => 0x04#8
  | .malformed => 0x10#8
  | .badKind => 0x11#8
  | .badDsize => 0x12#8
  | .range => 0x13#8
  | .tooBig => 0x14#8
  | .winTooSmall => 0x15#8
  | .role => 0x16#8
  | .noPacket => 0x17#8
  | .notData => 0x18#8
  | .illegal => 0x1F#8

/-- The code of a role: NONE = 0, SEND = 1, RECV = 2 (R28). -/
def Role.code : Role → BitVec 2
  | .none => 0#2
  | .send => 1#2
  | .recv => 2#2

/-- The code of an end state: NOT_SENT = 0, PENDING = 1, ACKED = 2 (R30). -/
def EndState.code : EndState → BitVec 2
  | .notSent => 0#2
  | .pending => 1#2
  | .acked => 2#2

/-- The flags of a successful DECODE (R65): `kind` and `raw` as on the wire, `len` the datagram's byte count. -/
def decodeFlags (c : Config) (len : Nat) (kind : Byte) (raw : Nat) : RxFlags where
  valid := true
  badKind := !isKind kind
  overCap := c.payloadCap < raw
  trunc := payloadPresent c len < raw
  ctrlPayload := isControl kind && raw != 0
  overLen := c.pktBudget < len

/-- The word that has the field `v` from bit `n` up and 0 elsewhere (R9). -/
def fieldAt {w : Nat} (n : Nat) (v : BitVec w) : Word := v.setWidth 32 <<< n

/-- The word that has the bit `b` at bit `n` and 0 elsewhere (R9). -/
def bitAt (n : Nat) (b : Bool) : Word := fieldAt n (BitVec.ofBool b)

/-- RX_FLAGS as a word: VALID is bit 0, OVERLEN bit 5 (R27). -/
def RxFlags.word (f : RxFlags) : Word :=
  bitAt 0 f.valid ||| bitAt 1 f.badKind ||| bitAt 2 f.overCap ||| bitAt 3 f.trunc ||| bitAt 4 f.ctrlPayload
    ||| bitAt 5 f.overLen

/-- `ReceiveTimedOut()`: RX_TO = 1 exactly when armed with count 0 (R22, R83). -/
def Timers.rxTimedOut (t : Timers) : Bool := t.rxArmed && t.rxCount == 0

/-- `IdleTimedOut()`: IDLE_TO = 1 exactly when armed with count 0 (R22, R83). -/
def Timers.idleTimedOut (t : Timers) : Bool := t.idleArmed && t.idleCount == 0

/-- TMR_EVENT, the verdict: the idle timeout takes precedence (R84). -/
def Timers.verdict (t : Timers) : Nat :=
  if t.idleTimedOut then 2 else if t.rxTimedOut then 1 else 0

/-- `IDLE_TO · 2 + RX_TO`, the raw bits TMR_POLL returns (R89). -/
def Timers.rawBits (t : Timers) : Nat := t.idleTimedOut.toNat * 2 + t.rxTimedOut.toNat

/-- TMR_CTRL: bit 0 RX_ARMED, bit 1 IDLE_ARMED (R18, R33). -/
def Timers.ctrlWord (t : Timers) : Word := bitAt 0 t.rxArmed ||| bitAt 1 t.idleArmed

namespace State

/-- `IsComplete()`, STATUS.COMPLETE: end_state = ACKED (R22). -/
def complete (s : State) : Bool := decide (s.win.endState = .acked)

/-- The level of the output `irq` (R98). -/
def irq (s : State) : Bool := s.tmoIe && (s.tmr.rxTimedOut || s.tmr.idleTimedOut)

/-- STATUS, its fields where R22's table has them; bits 7 to 0 and 31 to 25 read 0. -/
def status (s : State) : Word :=
  fieldAt 8 s.result.code ||| bitAt 16 s.complete ||| bitAt 17 s.tmr.rxTimedOut ||| bitAt 18 s.tmr.idleTimedOut
    ||| bitAt 19 s.rx.flags.valid ||| fieldAt 20 s.win.role.code ||| fieldAt 22 s.win.endState.code ||| bitAt 24 s.irq

end State

end Sys2Proof.Machine
end

