-- ==== Sys2Proof/Machine/Codec.lean ====
section
/-! DEFINITION. The packet codec: ENCODE, ENCODE_FRAME, ENCODE_ACK and DECODE (40_codec.md). -/

namespace Sys2Proof.Machine

/-- ENCODE (R61): serialise the packet of the TX_* registers into TXM, its payload being in TXM[17 .. 17+d) already. -/
def execEncode (s : State) : Host.Outcome State Fault Refusal :=
  if isKind s.tx.kind = false then finish .badKind s
  else if s.cfg.payloadCap < s.tx.dsize.toNat then finish .badDsize s
  else if isControl s.tx.kind = true ∧ s.tx.dsize.toNat ≠ 0 then finish .badDsize s
  else
    finish .ok
      ((s.setTxm (encodeImage s.cfg s.txm s.tx.kind s.tx.seq s.tx.ack s.tx.win s.tx.dsize)).setTx
        { s.tx with len := toWord s.cfg.pktBudget })

/-- The TXM image of a DATA packet for the frame of `n` bytes at offset `q` of `buf` (R62). -/
def frameImage (c : Config) (txm buf : Memory) (q n : Nat) : Memory :=
  ((putHeader txm kindData (toWord q) 0#32 0#32 (toWord n)).copy Config.hdrSize buf q n).zero (Config.hdrSize + n)
    c.pktBudget

/-- ENCODE_FRAME (R62): the DATA packet of the frame (ARG0, ARG1) of the transfer buffer. -/
def execEncodeFrame (s : State) : Host.Outcome State Fault Refusal :=
  if s.win.role ≠ .send then finish .role s
  else if s.cfg.payloadCap < s.argNum1 ∨ s.win.len < s.argNum0 + s.argNum1 then finish .range s
  else
    finish .ok
      ((s.setTxm (frameImage s.cfg s.txm s.buf s.argNum0 s.argNum1)).setTx
        { kind := kindData, seq := s.arg0, ack := 0#32, win := 0#32, dsize := s.arg1, len := toWord s.cfg.pktBudget })

/-- ENCODE_ACK (R63): the ACK packet that acknowledges ARG0 and advertises RECV_WINDOW. -/
def execEncodeAck (s : State) : Host.Outcome State Fault Refusal :=
  finish .ok
    ((s.setTxm (encodeImage s.cfg s.txm kindAck 0#32 s.arg0 (toWord s.cfg.recvWindow) 0#32)).setTx
      { kind := kindAck, seq := 0#32, ack := s.arg0, win := toWord s.cfg.recvWindow, dsize := 0#32,
        len := toWord s.cfg.pktBudget })

/-- What a successful DECODE leaves in the RX_* registers; `raw` is the wire data_size (R65). RX_LEN stays. -/
def decodedRx (s : State) (raw : Word) : RxRegs where
  len := s.rx.len
  kind := s.rxm.read 0
  seq := be32 s.rxm 1
  ack := be32 s.rxm 5
  win := be32 s.rxm 9
  dsize := toWord (effectiveSize s.cfg s.rx.len.toNat raw.toNat)
  dsizeRaw := raw
  flags := decodeFlags s.cfg s.rx.len.toNat (s.rxm.read 0) raw.toNat

/-- DECODE (R65): parse the datagram of RX_LEN bytes in RXM. -/
def execDecode (s : State) : Host.Outcome State Fault Refusal :=
  if s.rx.len.toNat < Config.hdrSize then finish .malformed (s.setRx { s.rx with flags := RxFlags.clear })
  else
    let raw := be32 s.rxm 13
    let e := effectiveSize s.cfg s.rx.len.toNat raw.toNat
    finish .ok ((s.setRx (decodedRx s raw)).setRxm (s.rxm.zero (Config.hdrSize + e) s.cfg.pktBudget))

end Sys2Proof.Machine
end

