-- ==== Sys2Proof/Machine/Control.lean ====
section
/-! DEFINITION. The control commands NOP and RESET (R90, R91), the ILLEGAL outcome of an illegal word (R92), and the step of
the reset agent (R105). -/

namespace Sys2Proof.Machine

/-- NOP (R90). -/
def execNop (s : State) : Host.Outcome State Fault Refusal := finish .ok s

/-- RESET (R91): the window state, the FIFO, the timers and RX_FLAGS; everything else stays. -/
def execReset (s : State) : Host.Outcome State Fault Refusal :=
  finish .ok (((s.setWin Window.idle).setTmr Timers.clear).setRx { s.rx with flags := RxFlags.clear })

/-- An illegal command word (R92): result ILLEGAL and nothing else. -/
def execIllegal (s : State) : Host.Outcome State Fault Refusal := finish .illegal s

/-- The reset agent's one atomic step (R6, R105): every piece of state takes its hardware-reset value, the instance stays,
and what the agents do afterwards stays to be done (log 4). -/
def hardwareReset (s : State) : State := (State.resetOf s.cfg).setScript s.script

end Sys2Proof.Machine
end

