-- ==== Sys2Proof/Machine/Sliding.lean ====
section
/-! DEFINITION. The sliding-window buffer: the eight WIN_* commands (41_window.md). Each tests `role` first (R67). The changes
to the window variables are functions of `Window`, so that what a command does to them can be said once. -/

namespace Sys2Proof.Machine

namespace Window

/-- The window right after WIN_LOAD n (R68). -/
def loaded (n : Nat) : Window where
  role := .send
  head := 0
  pointer := 0
  len := n
  win := 0
  endState := if n = 0 then .acked else .notSent
  endOffset := 0
  fifo := []

/-- The window right after WIN_RECV_INIT, with window size `w` (R69). -/
def receiving (w : Nat) : Window where
  role := .recv
  head := 0
  pointer := 0
  len := 0
  win := w
  endState := .notSent
  endOffset := 0
  fifo := []

/-- Bytes framed and not yet acknowledged, `pointer − head` (R70, R81). -/
def outstanding (w : Window) : Nat := w.pointer - w.head

/-- `limit`, computed without wrap (R71). -/
def limit (w : Window) : Nat := min (w.head + w.win) w.len

/-- The length of the next frame (R71). -/
def nextLen (w : Window) (cap : Nat) : Nat := min cap (w.limit - w.pointer)

/-- The window after WIN_NEXT framed `n` bytes (R71). -/
def framed (w : Window) (n : Nat) : Window :=
  { w with
    fifo := w.fifo ++ [⟨w.pointer, n⟩]
    pointer := w.pointer + n
    endState := if w.pointer + n = w.len then .pending else w.endState
    endOffset := if w.pointer + n = w.len then w.len else w.endOffset }

/-- The outstanding frames after an acknowledgement of `a` (R76): the fully acknowledged ones are popped, then the oldest is
trimmed where `a` lands inside it. -/
def ackFifo (fifo : List Frame) (a : Nat) : List Frame :=
  match fifo.dropWhile (fun f => f.seq + f.flen ≤ a) with
  | [] => []
  | f :: fs => if f.seq < a then ⟨a, f.seq + f.flen - a⟩ :: fs else f :: fs

/-- The window after an accepted acknowledgement of `a` (R76). -/
def acknowledged (w : Window) (a : Nat) : Window :=
  { w with
    head := a
    fifo := ackFifo w.fifo a
    endState := if w.endState = .pending ∧ a = w.endOffset then .acked else w.endState }

/-- The window after WIN_ACCEPT appended `n` bytes (R80). -/
def appended (w : Window) (n : Nat) : Window := { w with pointer := w.pointer + n, len := w.pointer + n }

end Window

/-- WIN_LOAD (R68). -/
def execWinLoad (s : State) : Host.Outcome State Fault Refusal :=
  if s.win.role ≠ .none then finish .role s
  else if s.cfg.bufCap < s.argNum0 then finish .tooBig s
  else finish .ok (s.setWin (Window.loaded s.argNum0))

/-- WIN_RECV_INIT (R69). -/
def execWinRecvInit (s : State) : Host.Outcome State Fault Refusal :=
  if s.win.role ≠ .none then finish .role s
  else finish .ok (s.setWin (Window.receiving s.cfg.recvWindow))

/-- WIN_SETWIN (R70). -/
def execWinSetwin (s : State) : Host.Outcome State Fault Refusal :=
  if s.win.role ≠ .send then finish .role s
  else if s.argNum0 < s.win.outstanding then finish .winTooSmall s
  else finish .ok (s.setWin { s.win with win := s.argNum0 })

/-- WIN_NEXT's NO_FRAME outcome: RES0 the unchanged pointer, RES1 the reason (R71). -/
def noFrame (reason : Nat) (s : State) : Host.Outcome State Fault Refusal :=
  finish .noFrame (s.setRes (toWord s.win.pointer) (toWord reason))

/-- WIN_NEXT (R71). Reasons: 0 buffer end, 1 window ceiling, 2 FIFO full, tested in this order (R96). -/
def execWinNext (s : State) : Host.Outcome State Fault Refusal :=
  if s.win.role ≠ .send then finish .role s
  else if s.win.pointer = s.win.len then noFrame 0 s
  else if s.win.limit ≤ s.win.pointer then noFrame 1 s
  else if s.win.fifo.length = s.cfg.fifoDepth then noFrame 2 s
  else
    let n := s.win.nextLen s.cfg.payloadCap
    finish .ok ((s.setWin (s.win.framed n)).setRes (toWord s.win.pointer) (toWord n))

/-- WIN_PEND_READ (R74). -/
def execWinPendRead (s : State) : Host.Outcome State Fault Refusal :=
  if s.win.role ≠ .send then finish .role s
  else
    match s.win.fifo[s.argNum0]? with
    | none => finish .range s
    | some f => finish .ok (s.setRes (toWord f.seq) (toWord f.flen))

/-- WIN_ACK (R76). -/
def execWinAck (s : State) : Host.Outcome State Fault Refusal :=
  if s.win.role ≠ .send then finish .role s
  else if s.win.head < s.argNum0 ∧ s.argNum0 ≤ s.win.pointer then
    let w := s.win.acknowledged s.argNum0
    finish .ok ((s.setWin w).setRes (toWord w.head) (toWord w.fifo.length))
  else finish .ackRejected s

/-- WIN_ACCEPT (R80). Its tests stand in the order of R80 and R96. -/
def execWinAccept (s : State) : Host.Outcome State Fault Refusal :=
  let n := s.rx.dsize.toNat
  let next := s.win.pointer + n
  if s.win.role ≠ .recv then finish .role s
  else if s.rx.flags.valid = false then finish .noPacket s
  else if s.rx.kind ≠ kindData then finish .notData s
  else if s.rx.seq.toNat ≠ s.win.pointer then finish .outOfOrder (s.setRes0 (toWord s.win.pointer))
  else if s.win.head + s.win.win < next ∨ s.cfg.bufCap < next then
    finish .overflow (s.setRes0 (toWord s.win.pointer))
  else
    finish .ok
      (((s.setBuf (s.buf.copy s.win.pointer s.rxm Config.hdrSize n)).setWin (s.win.appended n)).setRes (toWord next)
        (toWord n))

/-- WIN_DRAIN (R81). -/
def execWinDrain (s : State) : Host.Outcome State Fault Refusal :=
  if s.win.role ≠ .recv then finish .role s
  else
    finish .ok
      ((s.setWin { s.win with head := s.win.pointer }).setRes (toWord s.win.head) (toWord s.win.outstanding))

end Sys2Proof.Machine
end

