-- ==== Sys2Proof/Machine/Timer.lean ====
section
/-! DEFINITION. The timer supervisor: the step of the time base (R82) and the four TMR_* commands (42_timer.md). -/

namespace Sys2Proof.Machine

namespace Timers

/-- What one pulse of `tick` does to the timers (R82): each armed counter above 0 goes down by one. -/
def tick (t : Timers) : Timers :=
  { t with
    rxCount := if t.rxArmed = true ∧ 0 < t.rxCount then t.rxCount - 1 else t.rxCount
    idleCount := if t.idleArmed = true ∧ 0 < t.idleCount then t.idleCount - 1 else t.idleCount }

/-- `RestartReceiveTimer()` with duration `d` (R86). -/
def restartRx (t : Timers) (d : Nat) : Timers := { t with rxArmed := true, rxCount := d }

/-- `RestartIdleTimer()` with duration `d` (R87). -/
def restartIdle (t : Timers) (d : Nat) : Timers := { t with idleArmed := true, idleCount := d }

end Timers

/-- The time base's one atomic step (R6, R82). -/
def tickStep (s : State) : State := s.setTmr s.tmr.tick

/-- TMR_RESTART_RX (R86). -/
def execTmrRestartRx (s : State) : Host.Outcome State Fault Refusal :=
  finish .ok (s.setTmr (s.tmr.restartRx s.cfg.rxTmo))

/-- TMR_RESTART_IDLE (R87). -/
def execTmrRestartIdle (s : State) : Host.Outcome State Fault Refusal :=
  finish .ok (s.setTmr (s.tmr.restartIdle s.cfg.idleTmo))

/-- TMR_CLEAR (R88). -/
def execTmrClear (s : State) : Host.Outcome State Fault Refusal := finish .ok (s.setTmr Timers.clear)

/-- TMR_POLL (R89): RES0 the verdict, RES1 the two raw timeout bits. -/
def execTmrPoll (s : State) : Host.Outcome State Fault Refusal :=
  finish .ok (s.setRes (toWord s.tmr.verdict) (toWord s.tmr.rawBits))

end Sys2Proof.Machine
end

