-- ==== Sys2Proof/Machine/Dispatch.lean ====
section
/-! DEFINITION. Which meaning each command has (R52). -/

namespace Sys2Proof.Machine

def exec (i : Instr) (s : State) : Host.Outcome State Fault Refusal :=
  match i with
  | .nop => Sys2Proof.Machine.execNop s
  | .reset => Sys2Proof.Machine.execReset s
  | .encode => Sys2Proof.Machine.execEncode s
  | .encodeFrame => Sys2Proof.Machine.execEncodeFrame s
  | .encodeAck => Sys2Proof.Machine.execEncodeAck s
  | .decode => Sys2Proof.Machine.execDecode s
  | .winLoad => Sys2Proof.Machine.execWinLoad s
  | .winRecvInit => Sys2Proof.Machine.execWinRecvInit s
  | .winSetwin => Sys2Proof.Machine.execWinSetwin s
  | .winNext => Sys2Proof.Machine.execWinNext s
  | .winPendRead => Sys2Proof.Machine.execWinPendRead s
  | .winAck => Sys2Proof.Machine.execWinAck s
  | .winAccept => Sys2Proof.Machine.execWinAccept s
  | .winDrain => Sys2Proof.Machine.execWinDrain s
  | .tmrRestartRx => Sys2Proof.Machine.execTmrRestartRx s
  | .tmrRestartIdle => Sys2Proof.Machine.execTmrRestartIdle s
  | .tmrClear => Sys2Proof.Machine.execTmrClear s
  | .tmrPoll => Sys2Proof.Machine.execTmrPoll s

end Sys2Proof.Machine
end

