-- ==== Sys2Proof/Machine/Regs.lean ====
section
/-! DEFINITION. The register page (R18 to R24): the register names, their offsets and access kinds, and the ONE operation that
reads and the ONE that writes a register. CMD, whose write starts a command, is written in Machine/Bus.lean. -/

namespace Sys2Proof.Machine

/-- The registers of R18's table, under its names. -/
inductive Reg where
  | id
  | cfgPktBudget
  | cfgHdrSize
  | cfgPayloadCap
  | cfgBufCap
  | cfgFifoDepth
  | cfgRecvWindow
  | cfgRxTmo
  | cfgIdleTmo
  | cmd
  | status
  | arg0
  | arg1
  | res0
  | res1
  | irqEn
  | txKind
  | txSeq
  | txAck
  | txWin
  | txDsize
  | txLen
  | rxLen
  | rxKind
  | rxSeq
  | rxAck
  | rxWin
  | rxDsize
  | rxDsizeRaw
  | rxFlags
  | winRole
  | winHead
  | winPointer
  | winLen
  | winSize
  | winEnd
  | winEndOffset
  | winFifoCount
  | tmrCtrl
  | tmrRxCount
  | tmrIdleCount
  | tmrEvent
deriving DecidableEq, Repr

/-- The access column of R18's table. -/
inductive Access where
  | ro
  | wo
  | rw
deriving DecidableEq, Repr

namespace Reg

/-- The offset column of R18's table. -/
def offset : Reg → Nat
  | id => 0x000
  | cfgPktBudget => 0x004
  | cfgHdrSize => 0x008
  | cfgPayloadCap => 0x00C
  | cfgBufCap => 0x010
  | cfgFifoDepth => 0x014
  | cfgRecvWindow => 0x018
  | cfgRxTmo => 0x01C
  | cfgIdleTmo => 0x020
  | cmd => 0x040
  | status => 0x044
  | arg0 => 0x048
  | arg1 => 0x04C
  | res0 => 0x050
  | res1 => 0x054
  | irqEn => 0x058
  | txKind => 0x080
  | txSeq => 0x084
  | txAck => 0x088
  | txWin => 0x08C
  | txDsize => 0x090
  | txLen => 0x094
  | rxLen => 0x0C0
  | rxKind => 0x0C4
  | rxSeq => 0x0C8
  | rxAck => 0x0CC
  | rxWin => 0x0D0
  | rxDsize => 0x0D4
  | rxDsizeRaw => 0x0D8
  | rxFlags => 0x0DC
  | winRole => 0x100
  | winHead => 0x104
  | winPointer => 0x108
  | winLen => 0x10C
  | winSize => 0x110
  | winEnd => 0x114
  | winEndOffset => 0x118
  | winFifoCount => 0x11C
  | tmrCtrl => 0x140
  | tmrRxCount => 0x144
  | tmrIdleCount => 0x148
  | tmrEvent => 0x14C

/-- Every register, in the order of R18's table. -/
def all : List Reg :=
  [id, cfgPktBudget, cfgHdrSize, cfgPayloadCap, cfgBufCap, cfgFifoDepth, cfgRecvWindow, cfgRxTmo, cfgIdleTmo]
    ++ [cmd, status, arg0, arg1, res0, res1, irqEn]
    ++ [txKind, txSeq, txAck, txWin, txDsize, txLen]
    ++ [rxLen, rxKind, rxSeq, rxAck, rxWin, rxDsize, rxDsizeRaw, rxFlags]
    ++ [winRole, winHead, winPointer, winLen, winSize, winEnd, winEndOffset, winFifoCount]
    ++ [tmrCtrl, tmrRxCount, tmrIdleCount, tmrEvent]

/-- The register at an offset; an offset of the page with none is reserved (R19). -/
def at? (o : Nat) : Option Reg := all.find? (fun r => r.offset == o)

/-- The access kind of a register (R18). -/
def access : Reg → Access
  | cmd => .wo
  | arg0 | arg1 | irqEn | txKind | txSeq | txAck | txWin | txDsize | rxLen => .rw
  | id | cfgPktBudget | cfgHdrSize | cfgPayloadCap | cfgBufCap | cfgFifoDepth | cfgRecvWindow | cfgRxTmo | cfgIdleTmo
  | status | res0 | res1 | txLen | rxKind | rxSeq | rxAck | rxWin | rxDsize | rxDsizeRaw | rxFlags | winRole | winHead
  | winPointer | winLen | winSize | winEnd | winEndOffset | winFifoCount | tmrCtrl | tmrRxCount | tmrIdleCount
  | tmrEvent => .ro

end Reg

/-- `x[NAME]`: the value a 32-bit read of the register returns (R10, R18, R20 to R27). CMD reads 0 (R21). -/
def readReg (r : Reg) (s : State) : Word :=
  match r with
  | .id => 0x4B475031#32
  | .cfgPktBudget => toWord s.cfg.pktBudget
  | .cfgHdrSize => toWord Config.hdrSize
  | .cfgPayloadCap => toWord s.cfg.payloadCap
  | .cfgBufCap => toWord s.cfg.bufCap
  | .cfgFifoDepth => toWord s.cfg.fifoDepth
  | .cfgRecvWindow => toWord s.cfg.recvWindow
  | .cfgRxTmo => toWord s.cfg.rxTmo
  | .cfgIdleTmo => toWord s.cfg.idleTmo
  | .cmd => 0#32
  | .status => s.status
  | .arg0 => s.arg0
  | .arg1 => s.arg1
  | .res0 => s.res0
  | .res1 => s.res1
  | .irqEn => toWord s.tmoIe.toNat
  | .txKind => s.tx.kind.setWidth 32
  | .txSeq => s.tx.seq
  | .txAck => s.tx.ack
  | .txWin => s.tx.win
  | .txDsize => s.tx.dsize
  | .txLen => s.tx.len
  | .rxLen => s.rx.len
  | .rxKind => s.rx.kind.setWidth 32
  | .rxSeq => s.rx.seq
  | .rxAck => s.rx.ack
  | .rxWin => s.rx.win
  | .rxDsize => s.rx.dsize
  | .rxDsizeRaw => s.rx.dsizeRaw
  | .rxFlags => s.rx.flags.word
  | .winRole => s.win.role.code.setWidth 32
  | .winHead => toWord s.win.head
  | .winPointer => toWord s.win.pointer
  | .winLen => toWord s.win.len
  | .winSize => toWord s.win.win
  | .winEnd => s.win.endState.code.setWidth 32
  | .winEndOffset => toWord s.win.endOffset
  | .winFifoCount => toWord s.win.fifo.length
  | .tmrCtrl => s.tmr.ctrlWord
  | .tmrRxCount => toWord s.tmr.rxCount
  | .tmrIdleCount => toWord s.tmr.idleCount
  | .tmrEvent => toWord s.tmr.verdict

/-- A 32-bit write of `v` to a register other than CMD: an RW register takes its implemented bits, a RO register ignores the
write (R18, R24, R43). A write of CMD starts a command and is no register write (R21), so here it stores nothing. -/
def writeReg (r : Reg) (v : Word) (s : State) : State :=
  match r with
  | .arg0 => { s with arg0 := v }
  | .arg1 => { s with arg1 := v }
  | .irqEn => { s with tmoIe := v.getLsbD 0 }
  | .txKind => s.setTx { s.tx with kind := v.setWidth 8 }
  | .txSeq => s.setTx { s.tx with seq := v }
  | .txAck => s.setTx { s.tx with ack := v }
  | .txWin => s.setTx { s.tx with win := v }
  | .txDsize => s.setTx { s.tx with dsize := v }
  | .rxLen => s.setRx { s.rx with len := v }
  | .id | .cfgPktBudget | .cfgHdrSize | .cfgPayloadCap | .cfgBufCap | .cfgFifoDepth | .cfgRecvWindow | .cfgRxTmo
  | .cfgIdleTmo | .cmd | .status | .res0 | .res1 | .txLen | .rxKind | .rxSeq | .rxAck | .rxWin | .rxDsize | .rxDsizeRaw
  | .rxFlags | .winRole | .winHead | .winPointer | .winLen | .winSize | .winEnd | .winEndOffset | .winFifoCount | .tmrCtrl
  | .tmrRxCount | .tmrIdleCount | .tmrEvent => s

end Sys2Proof.Machine
end

