-- ==== Sys2Proof/Machine/Bus.lean ====
section
/-! DEFINITION. The host bus (20_memory.md): the address map (R36), the four kinds of access (R37, R38), the bus error (R39),
and the write of CMD that starts a command (R21). -/

namespace Sys2Proof.Machine

/-- What a bus address reaches (R36). -/
inductive Target where
  | page (offset : Nat)
  | txm (i : Nat)
  | rxm (i : Nat)
  | buf (i : Nat)
  | unmapped
deriving DecidableEq, Repr

/-- The bus address of TXM[0] (R36). -/
def txmBase : Nat := 0x1000

/-- The bus address of RXM[0] (R36). -/
def rxmBase : Nat := 0x2000

/-- The bus address of BUF[0] (R36). -/
def bufBase : Nat := 0x01000000

/-- The address map of R36. For a legal instance the ranges do not meet. -/
def target (c : Config) (addr : Word) : Target :=
  let a := addr.toNat
  if a < 0x1000 then .page a
  else if txmBase ≤ a ∧ a < txmBase + c.pktBudget then .txm (a - txmBase)
  else if rxmBase ≤ a ∧ a < rxmBase + c.pktBudget then .rxm (a - rxmBase)
  else if bufBase ≤ a ∧ a < bufBase + c.bufCap then .buf (a - bufBase)
  else .unmapped

/-- A write of the word `w` to CMD: the command it decodes to, or the ILLEGAL outcome (R21, R53, R92). -/
def runCommand (w : Word) (s : State) : Host.Outcome State Fault Refusal :=
  match decode w with
  | .ok i => exec i s
  | .error _ => execIllegal s

/-- `MemRead(addr, 4)`: an aligned access to the register page; anything else is a bus error (R37, R38, R39). A reserved
offset reads 0 (R19). -/
def busRead32 (addr : Word) (s : State) : Host.Outcome State Fault Refusal :=
  match target s.cfg addr with
  | .page o =>
    if o % 4 = 0 then
      match Reg.at? o with
      | some r => .next (s.setReply (.word (readReg r s)))
      | none => .next (s.setReply (.word 0#32))
    else .fault (.busError addr)
  | .txm _ | .rxm _ | .buf _ | .unmapped => .fault (.busError addr)

/-- `MemRead(addr, 1)`: a byte of a RAM window; anything else is a bus error (R37, R38, R39). -/
def busRead8 (addr : Word) (s : State) : Host.Outcome State Fault Refusal :=
  match target s.cfg addr with
  | .txm i => .next (s.setReply (.byte (s.txm.read i)))
  | .rxm i => .next (s.setReply (.byte (s.rxm.read i)))
  | .buf i => .next (s.setReply (.byte (s.buf.read i)))
  | .page _ | .unmapped => .fault (.busError addr)

/-- `MemWrite(addr, 4, v)`: an aligned access to the register page; CMD starts a command, a reserved offset ignores the write,
and anything else is a bus error (R19, R21, R37, R38, R39). -/
def busWrite32 (addr v : Word) (s : State) : Host.Outcome State Fault Refusal :=
  match target s.cfg addr with
  | .page o =>
    if o % 4 = 0 then
      match Reg.at? o with
      | some .cmd => runCommand v (s.setReply .written)
      | some r => .next (writeReg r v (s.setReply .written))
      | none => .next (s.setReply .written)
    else .fault (.busError addr)
  | .txm _ | .rxm _ | .buf _ | .unmapped => .fault (.busError addr)

/-- `MemWrite(addr, 1, v)`: a byte of a RAM window; anything else is a bus error (R37, R38, R39). -/
def busWrite8 (addr : Word) (v : Byte) (s : State) : Host.Outcome State Fault Refusal :=
  match target s.cfg addr with
  | .txm i => .next ((s.setTxm (s.txm.write i v)).setReply .written)
  | .rxm i => .next ((s.setRxm (s.rxm.write i v)).setReply .written)
  | .buf i => .next ((s.setBuf (s.buf.write i v)).setReply .written)
  | .page _ | .unmapped => .fault (.busError addr)

/-- One atomic step of the agent that `e` names (R6, R44). -/
def perform (e : Event) (s : State) : Host.Outcome State Fault Refusal :=
  match e with
  | .read32 addr => busRead32 addr s
  | .read8 addr => busRead8 addr s
  | .write32 addr v => busWrite32 addr v s
  | .write8 addr v => busWrite8 addr v s
  | .tick => .next (tickStep s)
  | .rst => .next (hardwareReset s)

/-- The command write of the word `w`: the host's 32-bit write of `w` to CMD (R21, R50). -/
def commandWrite (w : Word) : Event := .write32 (BitVec.ofNat 32 Reg.cmd.offset) w

end Sys2Proof.Machine
end

