-- ==== Sys2Proof/Machine/Step.lean ====
section
/-! DEFINITION. One step of the machine: the first event of the script, run as the one atomic step of its agent (R6, R44). -/

namespace Sys2Proof.Machine

/-- One step. With no event left the block is idle and keeps its state (R16, R104, R116; log 10). -/
def step (s : State) : Host.Outcome State Fault Refusal :=
  match s.script with
  | [] => .next s
  | e :: es => perform e (s.setScript es)

/-- `s` with the command write of the table word `w` as its very next event (log 9). The block fetches nothing (R48): a
command is the data of the host's write to CMD, so the script is where the next instruction stands. -/
def State.withFetchWord (s : State) (nbits w : Nat) : State :=
  match tableWord nbits w with
  | some v => s.setScript (commandWrite v :: s.script)
  | none => s

/-- The state a host goes on from after a bus error: the access is over and the block is as it was (R39; log 3). -/
def State.afterBusError (s : State) : State := s.setScript s.script.tail

/-- One step of a host that goes on after a bus error (R39). -/
def stepThrough (s : State) : State :=
  match step s with
  | .next t => t
  | .fault _ => s.afterBusError
  | .refused _ => s

/-- `k` steps of a host that goes on after bus errors. -/
def runThrough : Nat → State → State
  | 0, s => s
  | k + 1, s => runThrough k (stepThrough s)

end Sys2Proof.Machine
end

