-- ==== Sys2Proof/Machine/Loops.lean ====
section
/-! DEFINITION. The two host loops with which the spec reads the document's `NextFrames()` and `PendingFrames()` (R72, R75),
as functions over the commands they issue. -/

namespace Sys2Proof.Machine

/-- R72: issue WIN_NEXT until the result is not OK, at most `fuel` times. The frames are the RES0/RES1 pairs of the OK
results, in order; the state is the one after the last command issued. -/
def nextFrames : Nat → State → List Frame × State
  | 0, s => ([], s)
  | fuel + 1, s =>
    match exec .winNext s with
    | .next t =>
      if t.result = .ok then
        let r := nextFrames fuel t
        (⟨t.res0.toNat, t.res1.toNat⟩ :: r.1, r.2)
      else ([], t)
    | .fault _ | .refused _ => ([], s)

/-- One turn of R75's loop: write `i` to ARG0 and issue WIN_PEND_READ; the frame is the RES0/RES1 pair of an OK result. -/
def pendRead (s : State) (i : Nat) : Option Frame :=
  match exec .winPendRead { s with arg0 := toWord i } with
  | .next t => if t.result = .ok then some ⟨t.res0.toNat, t.res1.toNat⟩ else none
  | .fault _ | .refused _ => none

/-- R75: for i from 0 to WIN_FIFO_COUNT − 1, WIN_PEND_READ i. -/
def pendingFrames (s : State) : List (Option Frame) :=
  (List.range (readReg .winFifoCount s).toNat).map (pendRead s)

/-- The frames that WIN_NEXT produces along `k` steps of the script, in order: the RES0/RES1 pairs of its OK results (R79). -/
def produced : Nat → State → List Frame
  | 0, _ => []
  | k + 1, s =>
    let t := stepThrough s
    if s.script.head? = some (commandWrite (encode .winNext)) ∧ t.result = .ok then
      ⟨t.res0.toNat, t.res1.toNat⟩ :: produced k t
    else produced k t

end Sys2Proof.Machine
end

