-- ==== Sys2Proof/Machine/Script.lean ====
section
/-! DEFINITION. The command-script notation for host programs (R58) and its pseudo-instructions (R59), expanded into events.
Loops, conditions and the transport stay with the host's software (R58). -/

namespace Sys2Proof.Machine

/-- The three RAM spaces of `WRB` and `RDB` (R58). -/
inductive Space where
  | txm
  | rxm
  | buf
deriving DecidableEq, Repr

/-- `base(space)` (R58). -/
def Space.base : Space → Nat
  | .txm => txmBase
  | .rxm => rxmBase
  | .buf => bufBase

/-- One line of a script (R58, R59). `FILL` and `COPY` abbreviate several lines: `fill` and `copyOut` below. An operand form
`winLoad v` writes its operand first; `bare i` is the form without operands, which uses the values already held. -/
inductive Line where
  | wr (r : Reg) (v : Word)
  | rd (r : Reg) (expect : Option Word)
  | wrb (sp : Space) (i : Nat) (b : Byte)
  | rdb (sp : Space) (i : Nat) (expect : Option Byte)
  | tick (n : Nat)
  | bare (i : Instr)
  | winLoad (n : Word)
  | winSetwin (w : Word)
  | winPendRead (i : Word)
  | winAck (a : Word)
  | encodeAck (a : Word)
  | encodeFrame (s n : Word)
  | encode (k s a w d : Word)
  | decode (len : Word)
  | check (c : ResultCode)
deriving DecidableEq, Repr

/-- The write of a register by its name (R58 `WR`). -/
def wrEvent (r : Reg) (v : Word) : Event := .write32 (BitVec.ofNat 32 r.offset) v

/-- The read of a register by its name (R58 `RD`). -/
def rdEvent (r : Reg) : Event := .read32 (BitVec.ofNat 32 r.offset)

/-- `WR CMD, <OP>` for a command (R59). -/
def cmdEvent (i : Instr) : Event := commandWrite (Sys2Proof.encode i)

/-- The events a line expands to (R58, R59). -/
def Line.expand : Line → List Event
  | .wr r v => [wrEvent r v]
  | .rd r _ => [rdEvent r]
  | .wrb sp i b => [.write8 (BitVec.ofNat 32 (sp.base + i)) b]
  | .rdb sp i _ => [.read8 (BitVec.ofNat 32 (sp.base + i))]
  | .tick n => List.replicate n .tick
  | .bare i => [cmdEvent i]
  | .winLoad n => [wrEvent .arg0 n, cmdEvent .winLoad]
  | .winSetwin w => [wrEvent .arg0 w, cmdEvent .winSetwin]
  | .winPendRead i => [wrEvent .arg0 i, cmdEvent .winPendRead]
  | .winAck a => [wrEvent .arg0 a, cmdEvent .winAck]
  | .encodeAck a => [wrEvent .arg0 a, cmdEvent .encodeAck]
  | .encodeFrame s n => [wrEvent .arg0 s, wrEvent .arg1 n, cmdEvent .encodeFrame]
  | .encode k s a w d =>
    [wrEvent .txKind k, wrEvent .txSeq s, wrEvent .txAck a, wrEvent .txWin w, wrEvent .txDsize d, cmdEvent .encode]
  | .decode len => [wrEvent .rxLen len, cmdEvent .decode]
  | .check _ => [rdEvent .status]

/-- What a line asserts of the bus's answer to its last access (R58 `->`, R59 `CHECK`). It has no effect on the block. -/
def Line.holds (l : Line) (answer : Reply) : Bool :=
  match l with
  | .rd _ (some v) => answer == .word v
  | .rdb _ _ (some b) => answer == .byte b
  | .check c =>
    match answer with
    | .word v => v.extractLsb' 8 8 == c.code
    | .none | .written | .byte _ => false
  | .rd _ none | .rdb _ _ none | .wr _ _ | .wrb _ _ _ | .tick _ | .bare _ | .winLoad _ | .winSetwin _ | .winPendRead _
  | .winAck _ | .encodeAck _ | .encodeFrame _ _ | .encode _ _ _ _ _ | .decode _ => true

/-- `FILL <space>[<a> .. <b>), <expr>`: one `WRB` per index (R58). -/
def fill (sp : Space) (a b : Nat) (expr : Nat → Byte) : List Line :=
  (List.range' a (b - a)).map (fun i => .wrb sp i (expr i))

/-- `COPY <space>[<a> .. <b>)`: one `RDB` per index (R58); the bytes go to the host. -/
def copyOut (sp : Space) (a b : Nat) : List Line := (List.range' a (b - a)).map (fun i => .rdb sp i none)

/-- A program's events, in order: a host program is loaded as the machine's script (log 9). -/
def events (ls : List Line) : List Event := ls.flatMap Line.expand

end Sys2Proof.Machine
end

