-- ==== Sys2Proof/Safety.lean ====
section
/-! DEFINITION. What counts as a good state and a safe run of the block: the invariants I1 to I7 of R32 with the ranges of
R29 to R34 and R64, and the runs that no bus error ends. -/

namespace Sys2Proof.Machine

/-- The frames of `fs` are contiguous, not empty, and cover [a, b) exactly (R31, R32 I3). -/
def Covers (a b : Nat) : List Frame → Prop
  | [] => a = b
  | f :: fs => f.seq = a ∧ 0 < f.flen ∧ Covers (a + f.flen) b fs

/-- The window invariants of R32, for the parameters `c`. -/
structure Window.Good (c : Config) (w : Window) : Prop where
  /-- I1. -/
  headLePointer : w.head ≤ w.pointer
  /-- I1. -/
  pointerLeLen : w.pointer ≤ w.len
  /-- I1. -/
  lenLeCap : w.len ≤ c.bufCap
  /-- I2. -/
  windowBound : w.pointer - w.head ≤ w.win
  /-- R29: `win` is a 32-bit value. -/
  winFits : w.win < 2 ^ 32
  /-- R29, R71: no end offset is recorded before the last frame is produced. -/
  endOffset : w.endState = .notSent → w.endOffset = 0
  /-- I3. -/
  covers : w.role = .send → Covers w.head w.pointer w.fifo
  /-- R31: no frame is longer than one payload. -/
  frameBound : ∀ f ∈ w.fifo, f.flen ≤ c.payloadCap
  /-- I4. -/
  fifoBound : w.fifo.length ≤ c.fifoDepth
  /-- I5, for PENDING; R78: the final byte is not acknowledged yet. -/
  pending : w.endState = .pending → w.role = .send ∧ w.pointer = w.len ∧ w.len = w.endOffset ∧ w.head < w.len
  /-- I5, for ACKED. -/
  acked : w.endState = .acked → w.role = .send ∧ w.head = w.pointer ∧ w.pointer = w.len ∧ w.len = w.endOffset
  /-- R71, R78: while NOT_SENT, a sender has not framed its last byte. -/
  notSent : w.endState = .notSent → w.role = .send → w.pointer < w.len
  /-- I6, and R69: the window of a receiver is RECV_WINDOW. -/
  recv : w.role = .recv → w.len = w.pointer ∧ w.endState = .notSent ∧ w.fifo = [] ∧ w.win = c.recvWindow
  /-- I7. -/
  idle : w.role = .none → w = Window.idle

/-- The timer ranges: a count never exceeds its duration, and a disarmed timer holds 0 (R33, R82, R86 to R88). -/
structure Timers.Good (c : Config) (t : Timers) : Prop where
  rxBound : t.rxCount ≤ c.rxTmo
  idleBound : t.idleCount ≤ c.idleTmo
  rxDisarmed : t.rxArmed = false → t.rxCount = 0
  idleDisarmed : t.idleArmed = false → t.idleCount = 0

/-- The invariant of the block. Every step keeps it, and hardware reset has it. -/
structure Inv (s : State) : Prop where
  /-- R7. -/
  legal : s.cfg.Legal = true
  /-- R32. -/
  window : s.win.Good s.cfg
  /-- R33. -/
  timers : s.tmr.Good s.cfg
  /-- R25: TX_LEN is 0 or PKT_BUDGET. -/
  txLen : s.tx.len = 0#32 ∨ s.tx.len = toWord s.cfg.pktBudget
  /-- R64: the effective size fits the payload. -/
  rxSize : s.rx.dsize.toNat ≤ s.cfg.payloadCap
  /-- R27: while VALID is 0, every other flag is 0. -/
  rxFlags : s.rx.flags.valid = false → s.rx.flags = RxFlags.clear
  /-- Canonical form and size of TXM (R34). -/
  txm : s.txm.wf ∧ s.txm.within s.cfg.pktBudget
  /-- Canonical form and size of RXM (R34). -/
  rxm : s.rxm.wf ∧ s.rxm.within s.cfg.pktBudget
  /-- Canonical form and size of BUF (R34). -/
  buf : s.buf.wf ∧ s.buf.within s.cfg.bufCap

/-- A safe run of `k` steps: no bus error ends it. Nothing else can (R93). -/
def SafeRun (k : Nat) (s : State) : Prop := ∃ t, Sys2Proof.core.run k s = .next t

/-- The hardware-reset state of an instance, with `es` as what the agents do from there on (R32: "reachable from hardware
reset by any sequence of host and time-base steps"). -/
def bootWith (c : Config) (es : List Event) : State := (State.resetOf c).setScript es

end Sys2Proof.Machine
end

