-- ==== Sys2Proof/Certificates/Slice0/Obligations.lean ====
section
/-! DEFINITION. The statements for the provers. Each says in its docstring which rule of spec/ it formalises. The tables and
relations they share stand first, written out from the spec and not from the model's own definitions. -/

open Sys2Proof Sys2Proof.Machine

namespace Sys2Proof.Spec

/-- KINDS (R13). -/
def kinds : List Byte := [0x15#8, 0x05#8, 0x02#8, 0x04#8]

/-- CONTROL: SYN, ACK and EOT (R13). -/
def controlKinds : List Byte := [0x15#8, 0x05#8, 0x04#8]

/-- A valid logical packet (R56). -/
def validPacket (c : Config) (kind : Byte) (dsize : Nat) : Prop :=
  kind ∈ kinds ∧ dsize ≤ c.pktBudget - 17 ∧ (kind ∈ controlKinds → dsize = 0)

/-- An illegal command word (R53). -/
def illegalWord (w : Word) : Prop :=
  let op := w.toNat % 256
  256 ≤ w.toNat ∨ (0x02 ≤ op ∧ op ≤ 0x0F) ∨ (0x14 ≤ op ∧ op ≤ 0x1F) ∨ (0x28 ≤ op ∧ op ≤ 0x2F) ∨ (0x34 ≤ op ∧ op ≤ 0xFF)

/-- The bytes 0 to 16 of `m` are the wire header of R55: the kind, then four fields, most significant byte first. -/
def headerIs (m : Memory) (kind : Byte) (seq ack win dsize : Word) : Prop :=
  m.read 0 = kind ∧
    ∀ k, k < 4 →
      m.read (1 + k) = seq.extractLsb' (24 - 8 * k) 8 ∧
        m.read (5 + k) = ack.extractLsb' (24 - 8 * k) 8 ∧
        m.read (9 + k) = win.extractLsb' (24 - 8 * k) 8 ∧
        m.read (13 + k) = dsize.extractLsb' (24 - 8 * k) 8

/-- The 32-bit field at offset `o`, most significant byte at the lowest offset (R11, R40). -/
def field (m : Memory) (o : Nat) : Word :=
  BitVec.ofNat 32
    ((m.read o).toNat * 2 ^ 24 + (m.read (o + 1)).toNat * 2 ^ 16 + (m.read (o + 2)).toNat * 2 ^ 8 + (m.read (o + 3)).toNat)

/-- What WIN_ACK a does to the FIFO (R76): frames that end at or before `a` are popped from the front; if the next one starts
before `a`, it is trimmed to start at `a`; the rest stays. -/
def popsAndTrims (fifo : List Frame) (a : Nat) (fifo' : List Frame) : Prop :=
  ∃ popped rest, fifo = popped ++ rest ∧ (∀ f ∈ popped, f.seq + f.flen ≤ a) ∧
    ((rest = [] ∧ fifo' = []) ∨
      ∃ f fs, rest = f :: fs ∧ a < f.seq + f.flen ∧
        fifo' = (if f.seq < a then ⟨a, f.seq + f.flen - a⟩ else f) :: fs)

/-- RX_TO (R83). -/
def rxTo (t : Timers) : Prop := t.rxArmed = true ∧ t.rxCount = 0

/-- IDLE_TO (R83). -/
def idleTo (t : Timers) : Prop := t.idleArmed = true ∧ t.idleCount = 0

/-- The accesses that R37 and R38 allow at the addresses R36 maps; a tick and a reset are no access. -/
def allowed (c : Config) : Event → Prop
  | .read32 a | .write32 a _ => a.toNat < 0x1000 ∧ a.toNat % 4 = 0
  | .read8 a | .write8 a _ =>
    (0x1000 ≤ a.toNat ∧ a.toNat < 0x1000 + c.pktBudget) ∨ (0x2000 ≤ a.toNat ∧ a.toNat < 0x2000 + c.pktBudget) ∨
      (0x01000000 ≤ a.toNat ∧ a.toNat < 0x01000000 + c.bufCap)
  | .tick | .rst => True

/-- The address of an access; a tick and a reset have none. -/
def addressOf : Event → Option Word
  | .read32 a | .write32 a _ | .read8 a | .write8 a _ => some a
  | .tick | .rst => none

/-- R18's table, read side: offset and value. STATUS, RX_FLAGS, TMR_CTRL and TMR_EVENT have statements of their own. -/
def readTable (s : State) : List (Nat × Word) :=
  [ (0x000, 0x4B475031#32), (0x004, BitVec.ofNat 32 s.cfg.pktBudget), (0x008, 17#32),
    (0x00C, BitVec.ofNat 32 (s.cfg.pktBudget - 17)), (0x010, BitVec.ofNat 32 s.cfg.bufCap),
    (0x014, BitVec.ofNat 32 s.cfg.fifoDepth), (0x018, BitVec.ofNat 32 s.cfg.recvWindow),
    (0x01C, BitVec.ofNat 32 s.cfg.rxTmo), (0x020, BitVec.ofNat 32 s.cfg.idleTmo) ]
  ++ [ (0x040, 0#32), (0x044, s.status), (0x048, s.arg0), (0x04C, s.arg1), (0x050, s.res0), (0x054, s.res1),
    (0x058, if s.tmoIe then 1#32 else 0#32) ]
  ++ [ (0x080, s.tx.kind.setWidth 32), (0x084, s.tx.seq), (0x088, s.tx.ack), (0x08C, s.tx.win), (0x090, s.tx.dsize),
    (0x094, s.tx.len) ]
  ++ [ (0x0C0, s.rx.len), (0x0C4, s.rx.kind.setWidth 32), (0x0C8, s.rx.seq), (0x0CC, s.rx.ack), (0x0D0, s.rx.win),
    (0x0D4, s.rx.dsize), (0x0D8, s.rx.dsizeRaw), (0x0DC, s.rx.flags.word) ]
  ++ [ (0x100, match s.win.role with | .none => 0#32 | .send => 1#32 | .recv => 2#32),
    (0x104, BitVec.ofNat 32 s.win.head), (0x108, BitVec.ofNat 32 s.win.pointer), (0x10C, BitVec.ofNat 32 s.win.len),
    (0x110, BitVec.ofNat 32 s.win.win),
    (0x114, match s.win.endState with | .notSent => 0#32 | .pending => 1#32 | .acked => 2#32),
    (0x118, BitVec.ofNat 32 s.win.endOffset), (0x11C, BitVec.ofNat 32 s.win.fifo.length) ]
  ++ [ (0x140, s.tmr.ctrlWord), (0x144, BitVec.ofNat 32 s.tmr.rxCount), (0x148, BitVec.ofNat 32 s.tmr.idleCount),
    (0x14C, BitVec.ofNat 32 s.tmr.verdict) ]

/-- The offsets of R18's table. Every other aligned offset of the page is reserved (R19). -/
def pageOffsets : List Nat :=
  [0x000, 0x004, 0x008, 0x00C, 0x010, 0x014, 0x018, 0x01C, 0x020]
    ++ [0x040, 0x044, 0x048, 0x04C, 0x050, 0x054, 0x058]
    ++ [0x080, 0x084, 0x088, 0x08C, 0x090, 0x094]
    ++ [0x0C0, 0x0C4, 0x0C8, 0x0CC, 0x0D0, 0x0D4, 0x0D8, 0x0DC]
    ++ [0x100, 0x104, 0x108, 0x10C, 0x110, 0x114, 0x118, 0x11C]
    ++ [0x140, 0x144, 0x148, 0x14C]

/-- R18's table, write side: the RW registers' offsets and what a write of `v` leaves, masked to the implemented bits. -/
def writeTable (v : Word) (s : State) : List (Nat × State) :=
  [ (0x048, { s with arg0 := v }), (0x04C, { s with arg1 := v }), (0x058, { s with tmoIe := v.getLsbD 0 }),
    (0x080, { s with tx := { s.tx with kind := v.setWidth 8 } }), (0x084, { s with tx := { s.tx with seq := v } }),
    (0x088, { s with tx := { s.tx with ack := v } }), (0x08C, { s with tx := { s.tx with win := v } }),
    (0x090, { s with tx := { s.tx with dsize := v } }), (0x0C0, { s with rx := { s.rx with len := v } }) ]

/-- The role a command needs, where it needs one (R67; R62 for ENCODE_FRAME). -/
def neededRole : Instr → Option Role
  | .winLoad | .winRecvInit => some .none
  | .winSetwin | .winNext | .winPendRead | .winAck | .encodeFrame => some .send
  | .winAccept | .winDrain => some .recv
  | .nop | .reset | .encode | .encodeAck | .decode | .tmrRestartRx | .tmrRestartIdle | .tmrClear | .tmrPoll => none

/-- R94's table, by command: the results a command can have. -/
def possibleResults : Instr → List ResultCode
  | .nop | .reset | .encodeAck | .tmrRestartRx | .tmrRestartIdle | .tmrClear | .tmrPoll => [.ok]
  | .encode => [.ok, .badKind, .badDsize]
  | .encodeFrame => [.ok, .role, .range]
  | .decode => [.ok, .malformed]
  | .winLoad => [.ok, .role, .tooBig]
  | .winRecvInit => [.ok, .role]
  | .winSetwin => [.ok, .role, .winTooSmall]
  | .winNext => [.ok, .role, .noFrame]
  | .winPendRead => [.ok, .role, .range]
  | .winAck => [.ok, .role, .ackRejected]
  | .winAccept => [.ok, .role, .noPacket, .notData, .outOfOrder, .overflow]
  | .winDrain => [.ok, .role]

/-- R94's table, by code. -/
def resultCodes : List (ResultCode × Nat) :=
  [ (.ok, 0x00), (.noFrame, 0x01), (.ackRejected, 0x02), (.outOfOrder, 0x03), (.overflow, 0x04), (.malformed, 0x10),
    (.badKind, 0x11), (.badDsize, 0x12), (.range, 0x13), (.tooBig, 0x14), (.winTooSmall, 0x15), (.role, 0x16),
    (.noPacket, 0x17), (.notData, 0x18), (.illegal, 0x1F) ]

/-- R73's condition (b) as it stands between two commands: the window is a multiple of PAYLOAD_CAP that FIFO_DEPTH frames
cover, head and pointer are multiples or `len`, and every outstanding frame starts at a multiple and is a full payload or
ends at `len`. -/
structure Aligned (c : Config) (w : Window) : Prop where
  window : ∃ k, w.win = k * c.payloadCap ∧ k ≤ c.fifoDepth
  head : c.payloadCap ∣ w.head ∨ w.head = w.len
  pointer : c.payloadCap ∣ w.pointer ∨ w.pointer = w.len
  frames : ∀ f ∈ w.fifo, c.payloadCap ∣ f.seq ∧ (f.flen = c.payloadCap ∨ f.seq + f.flen = w.len)

end Sys2Proof.Spec

open Sys2Proof.Spec

/-! ### Control commands and illegal words -/

/-- R90: NOP writes RESULT and nothing else. CMD reads 0, and the word 0 is NOP. -/
def Obligations.NopOnlyReportsSuccess : Prop :=
  ∀ s : State,
    exec .nop s = .next { s with result := .ok } ∧ readReg .cmd s = 0#32 ∧ Sys2Proof.decode 0x00000000#32 = .ok .nop

/-- R91: RESET clears the window state, the FIFO, the timers and RX_FLAGS, and keeps everything else; it is the only command
that leads back to role NONE. -/
def Obligations.ResetClearsTheConnection : Prop :=
  Sys2Proof.decode 0x00000001#32 = .ok .reset ∧
  (∀ s : State,
    exec .reset s =
      .next
        { s with
          win := ⟨.none, 0, 0, 0, 0, .notSent, 0, []⟩
          tmr := ⟨false, 0, false, 0⟩
          rx := { s.rx with flags := ⟨false, false, false, false, false, false⟩ }
          result := .ok }) ∧
    ∀ (i : Instr) (s t : State),
      exec i s = .next t → s.win.role ≠ .none → t.win.role = .none → i = .reset

/-- R53, R92: an illegal word written to CMD gives result ILLEGAL and no other change. -/
def Obligations.IllegalWordOnlyReportsIllegal : Prop :=
  ∀ (s : State) (w : Word), illegalWord w → runCommand w s = .next { s with result := .illegal }

/-- R53: the decoder refuses exactly the illegal words. -/
def Obligations.DecoderRefusesExactlyIllegalWords : Prop :=
  ∀ w : Word, (∃ e, Sys2Proof.decode w = .error e) ↔ illegalWord w

/-- R50, R52: decoding and encoding agree, in both directions, so each of the 18 words has one meaning. -/
def Obligations.DecodeAndEncodeAgree : Prop :=
  (∀ i : Instr, i.wellFormed = true → Sys2Proof.decode (Sys2Proof.encode i) = .ok i) ∧
    ∀ (w : Word) (i : Instr), Sys2Proof.decode w = .ok i → Sys2Proof.encode i = w

/-- R52, R59: some command words, written out from the spec. -/
def Obligations.SpecWordsDecode : Prop :=
  Sys2Proof.decode 0x00000001#32 = .ok .reset ∧ Sys2Proof.decode 0x00000011#32 = .ok .encodeFrame ∧
    Sys2Proof.decode 0x00000025#32 = .ok .winAck ∧ Sys2Proof.decode 0x00000033#32 = .ok .tmrPoll ∧
    Sys2Proof.decode 0x00000110#32 = .error .reservedBits

/-! ### Steps, the bus and the registers -/

/-- R21, R44, R50: the write of a command word runs exactly the command it decodes to, and the write of any word runs that
word, in the state where the access is over. `withFetchWord` is the same with the command write put first. How the script
moves on and what the bus answered are the model's choice (log 1, log 2, log 9). -/
def Obligations.StepRunsTheDecodedCommand : Prop :=
  (∀ (s : State) (w : Word) (i : Instr) (es : List Event),
    s.script = commandWrite w :: es → Sys2Proof.decode w = .ok i →
      step s = exec i { s with script := es, reply := .written }) ∧
    (∀ (s : State) (w : Word) (es : List Event),
      s.script = commandWrite w :: es → step s = runCommand w { s with script := es, reply := .written }) ∧
    ∀ (s : State) (i : Instr),
      step (s.withFetchWord 32 (Sys2Proof.encode i).toNat) = exec i { s with reply := .written }

/-- R18, R19, R20: what a 32-bit read of each register of R18's table returns; a reserved offset of the page returns 0. -/
def Obligations.RegisterPageReads : Prop :=
  ∀ (s : State) (es : List Event),
    (∀ o v, (o, v) ∈ readTable s → s.script = .read32 (BitVec.ofNat 32 o) :: es →
      step s = .next { s with script := es, reply := .word v }) ∧
      ∀ a : Word, s.script = .read32 a :: es → a.toNat < 0x1000 → a.toNat % 4 = 0 → a.toNat ∉ pageOffsets →
        step s = .next { s with script := es, reply := .word 0#32 }

/-- R18, R19, R43: what a 32-bit write to each offset of the page other than CMD leaves. RW registers take their implemented
bits; RO registers and reserved offsets ignore the write. -/
def Obligations.RegisterPageWrites : Prop :=
  ∀ (s : State) (v : Word) (es : List Event),
    (∀ o t, (o, t) ∈ writeTable v { s with script := es, reply := .written } →
      s.script = .write32 (BitVec.ofNat 32 o) v :: es → step s = .next t) ∧
      ∀ a : Word, s.script = .write32 a v :: es → a.toNat < 0x1000 → a.toNat % 4 = 0 → a.toNat ≠ 0x040 →
        a.toNat ∉ [0x048, 0x04C, 0x058, 0x080, 0x084, 0x088, 0x08C, 0x090, 0x0C0] →
          step s = .next { s with script := es, reply := .written }

/-- R38: a byte access to a RAM window reads or stores that byte of the RAM and no other; a 32-bit access is a bus error. -/
def Obligations.RamWindowAccesses : Prop :=
  ∀ (s : State) (a v : Word) (b : Byte) (i : Nat) (es : List Event), s.cfg.Legal = true →
    (i < s.cfg.pktBudget → a.toNat = 0x1000 + i →
      (s.script = .read8 a :: es → step s = .next { s with script := es, reply := .byte (s.txm.read i) }) ∧
      (s.script = .write8 a b :: es →
        ∃ m, step s = .next { s with script := es, reply := .written, txm := m } ∧
          ∀ j, m.read j = if j = i then b else s.txm.read j) ∧
      (s.script = .read32 a :: es → step s = .fault (.busError a)) ∧
      (s.script = .write32 a v :: es → step s = .fault (.busError a))) ∧
    (i < s.cfg.pktBudget → a.toNat = 0x2000 + i →
      (s.script = .read8 a :: es → step s = .next { s with script := es, reply := .byte (s.rxm.read i) }) ∧
      (s.script = .write8 a b :: es →
        ∃ m, step s = .next { s with script := es, reply := .written, rxm := m } ∧
          ∀ j, m.read j = if j = i then b else s.rxm.read j) ∧
      (s.script = .read32 a :: es → step s = .fault (.busError a)) ∧
      (s.script = .write32 a v :: es → step s = .fault (.busError a))) ∧
    (i < s.cfg.bufCap → a.toNat = 0x01000000 + i →
      (s.script = .read8 a :: es → step s = .next { s with script := es, reply := .byte (s.buf.read i) }) ∧
      (s.script = .write8 a b :: es →
        ∃ m, step s = .next { s with script := es, reply := .written, buf := m } ∧
          ∀ j, m.read j = if j = i then b else s.buf.read j) ∧
      (s.script = .read32 a :: es → step s = .fault (.busError a)) ∧
      (s.script = .write32 a v :: es → step s = .fault (.busError a)))

/-- R36, R37, R38, R39: a step is a bus error exactly when its access is not allowed, and it names the access's address. -/
def Obligations.BusErrorExactlyWhenNotAllowed : Prop :=
  ∀ (s : State) (e : Event) (es : List Event), s.script = e :: es →
    ∀ f, step s = .fault f ↔ (¬ allowed s.cfg e ∧ ∃ a, addressOf e = some a ∧ f = .busError a)

/-- R43: a read changes nothing but the bus's answer. -/
def Obligations.ReadsHaveNoSideEffect : Prop :=
  ∀ (s t : State) (a : Word) (es : List Event),
    s.script = .read32 a :: es ∨ s.script = .read8 a :: es → step s = .next t →
      t = { s with script := es, reply := t.reply }

/-- R20: ID and the eight CFG registers read their constants, and no step changes them. -/
def Obligations.IdAndConfigAreConstants : Prop :=
  (∀ s : State,
    readReg .id s = 0x4B475031#32 ∧ readReg .cfgPktBudget s = BitVec.ofNat 32 s.cfg.pktBudget ∧
      readReg .cfgHdrSize s = 17#32 ∧ readReg .cfgPayloadCap s = BitVec.ofNat 32 (s.cfg.pktBudget - 17) ∧
      readReg .cfgBufCap s = BitVec.ofNat 32 s.cfg.bufCap ∧ readReg .cfgFifoDepth s = BitVec.ofNat 32 s.cfg.fifoDepth ∧
      readReg .cfgRecvWindow s = BitVec.ofNat 32 s.cfg.recvWindow ∧ readReg .cfgRxTmo s = BitVec.ofNat 32 s.cfg.rxTmo ∧
      readReg .cfgIdleTmo s = BitVec.ofNat 32 s.cfg.idleTmo) ∧
    ∀ s t : State, step s = .next t → t.cfg = s.cfg

/-- R22: the fields of STATUS. -/
def Obligations.StatusFields : Prop :=
  ∀ s : State,
    s.status.extractLsb' 0 8 = 0#8 ∧
      (∀ n, (s.result, n) ∈ resultCodes → (s.status.extractLsb' 8 8).toNat = n) ∧
      (s.status.getLsbD 16 = true ↔ s.win.endState = .acked) ∧
      (s.status.getLsbD 17 = true ↔ rxTo s.tmr) ∧
      (s.status.getLsbD 18 = true ↔ idleTo s.tmr) ∧
      s.status.getLsbD 19 = s.rx.flags.valid ∧
      (s.status.extractLsb' 20 2).toNat = (match s.win.role with | .none => 0 | .send => 1 | .recv => 2) ∧
      (s.status.extractLsb' 22 2).toNat = (match s.win.endState with | .notSent => 0 | .pending => 1 | .acked => 2) ∧
      (s.status.getLsbD 24 = true ↔ s.tmoIe = true ∧ (rxTo s.tmr ∨ idleTo s.tmr)) ∧
      s.status.extractLsb' 25 7 = 0#7

/-- R27: the bits of RX_FLAGS, and that only DECODE, RESET and hardware reset change them. -/
def Obligations.RxFlagBitsAndWriters : Prop :=
  (∀ s : State,
    (readReg .rxFlags s).getLsbD 0 = s.rx.flags.valid ∧ (readReg .rxFlags s).getLsbD 1 = s.rx.flags.badKind ∧
      (readReg .rxFlags s).getLsbD 2 = s.rx.flags.overCap ∧ (readReg .rxFlags s).getLsbD 3 = s.rx.flags.trunc ∧
      (readReg .rxFlags s).getLsbD 4 = s.rx.flags.ctrlPayload ∧ (readReg .rxFlags s).getLsbD 5 = s.rx.flags.overLen ∧
      (readReg .rxFlags s).toNat < 2 ^ 6) ∧
    ∀ (s t : State) (e : Event) (es : List Event), s.script = e :: es → step s = .next t →
      t.rx.flags ≠ s.rx.flags →
        e = .rst ∨ e = commandWrite (Sys2Proof.encode .decode) ∨ e = commandWrite (Sys2Proof.encode .reset)

/-- R29, R30, R33: in a state that keeps the invariant, the WIN_* and TMR_* registers show the hidden variables exactly. -/
def Obligations.MirrorRegistersAreExact : Prop :=
  ∀ s : State, Inv s →
    (readReg .winHead s).toNat = s.win.head ∧ (readReg .winPointer s).toNat = s.win.pointer ∧
      (readReg .winLen s).toNat = s.win.len ∧ (readReg .winSize s).toNat = s.win.win ∧
      (readReg .winEndOffset s).toNat = s.win.endOffset ∧ (readReg .winFifoCount s).toNat = s.win.fifo.length ∧
      (readReg .tmrRxCount s).toNat = s.tmr.rxCount ∧ (readReg .tmrIdleCount s).toNat = s.tmr.idleCount ∧
      (readReg .tmrCtrl s).toNat = (if s.tmr.rxArmed then 1 else 0) + (if s.tmr.idleArmed then 2 else 0)

/-- R59: what the pseudo-instructions expand to. -/
def Obligations.PseudoInstructionsExpand : Prop :=
  (∀ i : Instr, (Line.bare i).expand = [.write32 0x40#32 (Sys2Proof.encode i)]) ∧
    (∀ v : Word,
      (Line.winLoad v).expand = [.write32 0x48#32 v, .write32 0x40#32 0x20#32] ∧
      (Line.winSetwin v).expand = [.write32 0x48#32 v, .write32 0x40#32 0x22#32] ∧
      (Line.winPendRead v).expand = [.write32 0x48#32 v, .write32 0x40#32 0x24#32] ∧
      (Line.winAck v).expand = [.write32 0x48#32 v, .write32 0x40#32 0x25#32] ∧
      (Line.encodeAck v).expand = [.write32 0x48#32 v, .write32 0x40#32 0x12#32] ∧
      (Line.decode v).expand = [.write32 0xC0#32 v, .write32 0x40#32 0x13#32]) ∧
    (∀ q n : Word,
      (Line.encodeFrame q n).expand = [.write32 0x48#32 q, .write32 0x4C#32 n, .write32 0x40#32 0x11#32]) ∧
    (∀ k q a w d : Word,
      (Line.encode k q a w d).expand =
        [.write32 0x80#32 k, .write32 0x84#32 q, .write32 0x88#32 a, .write32 0x8C#32 w, .write32 0x90#32 d,
          .write32 0x40#32 0x10#32]) ∧
    ∀ c : ResultCode, (Line.check c).expand = [.read32 0x44#32]

/-! ### Reset and the other agents -/

/-- R105, R35: hardware reset puts everything to its reset value; ID and CFG stay. That the script goes on and the answer is
cleared is the model's (log 1, log 2). -/
def Obligations.HardwareResetClearsEverything : Prop :=
  ∀ (s : State) (es : List Event), s.script = .rst :: es →
    ∃ t, step s = .next t ∧ t.cfg = s.cfg ∧ t.script = es ∧ t.reply = .none ∧ t.result = .ok ∧
      t.win = ⟨.none, 0, 0, 0, 0, .notSent, 0, []⟩ ∧ t.tmr = ⟨false, 0, false, 0⟩ ∧
      (∀ i, t.txm.read i = 0#8 ∧ t.rxm.read i = 0#8 ∧ t.buf.read i = 0#8) ∧ t.irq = false ∧
      ∀ r, r ∉ [Reg.id, .cfgPktBudget, .cfgHdrSize, .cfgPayloadCap, .cfgBufCap, .cfgFifoDepth, .cfgRecvWindow,
        .cfgRxTmo, .cfgIdleTmo] → readReg r t = 0#32

/-- R18's reset column and R32: the reset state of every legal instance has the invariant, and so has `State.reset`. -/
def Obligations.ResetStateIsGood : Prop :=
  (∀ c : Config, c.Legal = true → Inv (State.resetOf c)) ∧ Inv State.reset

/-- R82: a tick counts each armed timer above 0 down by one and changes nothing else. -/
def Obligations.TickCountsArmedTimersDown : Prop :=
  ∀ (s : State) (es : List Event), s.script = .tick :: es →
    step s =
      .next
        { s with
          script := es
          tmr :=
            { s.tmr with
              rxCount := if s.tmr.rxArmed = true ∧ 0 < s.tmr.rxCount then s.tmr.rxCount - 1 else s.tmr.rxCount
              idleCount :=
                if s.tmr.idleArmed = true ∧ 0 < s.tmr.idleCount then s.tmr.idleCount - 1 else s.tmr.idleCount } }

/-! ### Codec -/

/-- R61: ENCODE. The three refusals change only RESULT; otherwise TXM is the header, the payload as it was, and zeros. -/
def Obligations.EncodeEffect : Prop :=
  Sys2Proof.decode 0x00000010#32 = .ok .encode ∧
  ∀ s : State, s.cfg.Legal = true →
    (s.tx.kind ∉ kinds → exec .encode s = .next { s with result := .badKind }) ∧
      (s.tx.kind ∈ kinds → s.cfg.pktBudget - 17 < s.tx.dsize.toNat →
        exec .encode s = .next { s with result := .badDsize }) ∧
      (s.tx.kind ∈ controlKinds → s.tx.dsize ≠ 0#32 → exec .encode s = .next { s with result := .badDsize }) ∧
      (validPacket s.cfg s.tx.kind s.tx.dsize.toNat →
        ∃ m, exec .encode s =
            .next { s with txm := m, tx := { s.tx with len := BitVec.ofNat 32 s.cfg.pktBudget }, result := .ok } ∧
          headerIs m s.tx.kind s.tx.seq s.tx.ack s.tx.win s.tx.dsize ∧
          (∀ i, 17 ≤ i → i < 17 + s.tx.dsize.toNat → m.read i = s.txm.read i) ∧
          (∀ i, 17 + s.tx.dsize.toNat ≤ i → i < s.cfg.pktBudget → m.read i = 0#8) ∧
          ∀ i, s.cfg.pktBudget ≤ i → m.read i = s.txm.read i)

/-- R62: ENCODE_FRAME. ROLE, then RANGE; otherwise TXM is the DATA header, the frame's bytes of BUF, and zeros, and the TX_*
registers hold what was encoded. -/
def Obligations.EncodeFrameEffect : Prop :=
  Sys2Proof.decode 0x00000011#32 = .ok .encodeFrame ∧
  ∀ s : State, s.cfg.Legal = true →
    (s.win.role ≠ .send → exec .encodeFrame s = .next { s with result := .role }) ∧
      (s.win.role = .send → s.cfg.pktBudget - 17 < s.arg1.toNat ∨ s.win.len < s.arg0.toNat + s.arg1.toNat →
        exec .encodeFrame s = .next { s with result := .range }) ∧
      (s.win.role = .send → s.arg1.toNat ≤ s.cfg.pktBudget - 17 → s.arg0.toNat + s.arg1.toNat ≤ s.win.len →
        ∃ m, exec .encodeFrame s =
            .next
              { s with
                txm := m
                tx := ⟨0x02#8, s.arg0, 0#32, 0#32, s.arg1, BitVec.ofNat 32 s.cfg.pktBudget⟩
                result := .ok } ∧
          headerIs m 0x02#8 s.arg0 0#32 0#32 s.arg1 ∧
          (∀ k, k < s.arg1.toNat → m.read (17 + k) = s.buf.read (s.arg0.toNat + k)) ∧
          (∀ i, 17 + s.arg1.toNat ≤ i → i < s.cfg.pktBudget → m.read i = 0#8) ∧
          ∀ i, s.cfg.pktBudget ≤ i → m.read i = s.txm.read i)

/-- R63: ENCODE_ACK, legal in every role. -/
def Obligations.EncodeAckEffect : Prop :=
  Sys2Proof.decode 0x00000012#32 = .ok .encodeAck ∧
  ∀ s : State, s.cfg.Legal = true →
    ∃ m, exec .encodeAck s =
        .next
          { s with
            txm := m
            tx := ⟨0x05#8, 0#32, s.arg0, BitVec.ofNat 32 s.cfg.recvWindow, 0#32, BitVec.ofNat 32 s.cfg.pktBudget⟩
            result := .ok } ∧
      headerIs m 0x05#8 0#32 s.arg0 (BitVec.ofNat 32 s.cfg.recvWindow) 0#32 ∧
      (∀ i, 17 ≤ i → i < s.cfg.pktBudget → m.read i = 0#8) ∧
      ∀ i, s.cfg.pktBudget ≤ i → m.read i = s.txm.read i

/-- R64, R65: DECODE. Fewer than 17 bytes is MALFORMED and clears the flags; otherwise the header fields, the effective size
and the six flags, with RXM zeroed past the effective payload. -/
def Obligations.DecodeEffect : Prop :=
  Sys2Proof.decode 0x00000013#32 = .ok .decode ∧
  ∀ s : State,
    (s.rx.len.toNat < 17 →
      exec .decode s =
        .next { s with rx := { s.rx with flags := ⟨false, false, false, false, false, false⟩ }, result := .malformed }) ∧
      (17 ≤ s.rx.len.toNat →
        let raw := (field s.rxm 13).toNat
        let avail := min s.rx.len.toNat s.cfg.pktBudget - 17
        let e := min raw (min (s.cfg.pktBudget - 17) avail)
        ∃ m, exec .decode s =
            .next
              { s with
                rxm := m
                rx :=
                  { len := s.rx.len
                    kind := s.rxm.read 0
                    seq := field s.rxm 1
                    ack := field s.rxm 5
                    win := field s.rxm 9
                    dsize := BitVec.ofNat 32 e
                    dsizeRaw := field s.rxm 13
                    flags :=
                      { valid := true
                        badKind := decide (s.rxm.read 0 ∉ kinds)
                        overCap := decide (s.cfg.pktBudget - 17 < raw)
                        trunc := decide (avail < raw)
                        ctrlPayload := decide (s.rxm.read 0 ∈ controlKinds ∧ raw ≠ 0)
                        overLen := decide (s.cfg.pktBudget < s.rx.len.toNat) } }
                result := .ok } ∧
          (∀ i, 17 + e ≤ i → i < s.cfg.pktBudget → m.read i = 0#8) ∧
          ∀ i, i < 17 + e ∨ s.cfg.pktBudget ≤ i → m.read i = s.rxm.read i)

/-- R11, R40: `put_be32` stores the most significant byte at the lowest offset and nothing outside its four bytes, and `be32`
reads it back. -/
def Obligations.HeaderFieldsAreBigEndian : Prop :=
  ∀ (m : Memory) (o : Nat) (v : Word),
    (putBe32 m o v).read o = v.extractLsb' 24 8 ∧ (putBe32 m o v).read (o + 1) = v.extractLsb' 16 8 ∧
      (putBe32 m o v).read (o + 2) = v.extractLsb' 8 8 ∧ (putBe32 m o v).read (o + 3) = v.extractLsb' 0 8 ∧
      (∀ i, i < o ∨ o + 4 ≤ i → (putBe32 m o v).read i = m.read i) ∧ be32 (putBe32 m o v) o = v ∧
      be32 m o = field m o

/-- R66: ENCODE a valid packet, copy TXM[0 .. PKT_BUDGET) to RXM, set RX_LEN to PKT_BUDGET, DECODE: every field comes back, the
flags are VALID only, and the payload region is the payload and zeros. -/
def Obligations.CodecRoundTrip : Prop :=
  ∀ (s t : State) (m : Memory), s.cfg.Legal = true → validPacket s.cfg s.tx.kind s.tx.dsize.toNat →
    exec .encode s = .next t → (∀ i, i < s.cfg.pktBudget → m.read i = t.txm.read i) →
      ∃ v, exec .decode { t with rxm := m, rx := { t.rx with len := BitVec.ofNat 32 s.cfg.pktBudget } } = .next v ∧
        v.result = .ok ∧
        v.rx =
          { len := BitVec.ofNat 32 s.cfg.pktBudget
            kind := s.tx.kind
            seq := s.tx.seq
            ack := s.tx.ack
            win := s.tx.win
            dsize := s.tx.dsize
            dsizeRaw := s.tx.dsize
            flags := ⟨true, false, false, false, false, false⟩ } ∧
        (∀ k, k < s.tx.dsize.toNat → v.rxm.read (17 + k) = s.txm.read (17 + k)) ∧
        ∀ i, 17 + s.tx.dsize.toNat ≤ i → i < s.cfg.pktBudget → v.rxm.read i = 0#8

/-- R60: a codec command writes only the codec's registers and packet RAMs, and what it writes depends only on them, on the
operands its rule names, and (for ENCODE_FRAME) on BUF, `role` and `len`. -/
def Obligations.CodecIsAPureTransformation : Prop :=
  (∀ (i : Instr) (s t : State), i ∈ [Instr.encode, .encodeFrame, .encodeAck, .decode] → exec i s = .next t →
    t = { s with tx := t.tx, rx := t.rx, txm := t.txm, rxm := t.rxm, result := t.result }) ∧
    ∀ (i : Instr) (s s' t t' : State), i ∈ [Instr.encode, .encodeFrame, .encodeAck, .decode] →
      exec i s = .next t → exec i s' = .next t' → s.cfg = s'.cfg → s.tx = s'.tx → s.rx = s'.rx → s.txm = s'.txm →
      s.rxm = s'.rxm → (i = .encodeAck → s.arg0 = s'.arg0) →
      (i = .encodeFrame →
        s.arg0 = s'.arg0 ∧ s.arg1 = s'.arg1 ∧ s.buf = s'.buf ∧ s.win.role = s'.win.role ∧ s.win.len = s'.win.len) →
        t.tx = t'.tx ∧ t.rx = t'.rx ∧ t.txm = t'.txm ∧ t.rxm = t'.rxm ∧ t.result = t'.result

/-- R62, R75: ENCODE_FRAME of the same frame with the same BUF gives the same TXM image, whatever TXM and the TX_* registers
held before. -/
def Obligations.RetransmissionIsByteIdentical : Prop :=
  ∀ s s' t t' : State, Inv s → Inv s' → s.cfg = s'.cfg → s.buf = s'.buf → s.arg0 = s'.arg0 → s.arg1 = s'.arg1 →
    exec .encodeFrame s = .next t → exec .encodeFrame s' = .next t' → t.result = .ok → t'.result = .ok →
      t.txm = t'.txm ∧ t.tx = t'.tx

/-! ### Window, sender -/

/-- R68: WIN_LOAD. -/
def Obligations.WinLoadEffect : Prop :=
  Sys2Proof.decode 0x00000020#32 = .ok .winLoad ∧
  ∀ s : State,
    (s.win.role ≠ .none → exec .winLoad s = .next { s with result := .role }) ∧
      (s.win.role = .none → s.cfg.bufCap < s.arg0.toNat → exec .winLoad s = .next { s with result := .tooBig }) ∧
      (s.win.role = .none → s.arg0.toNat ≤ s.cfg.bufCap →
        exec .winLoad s =
          .next
            { s with
              win := ⟨.send, 0, 0, s.arg0.toNat, 0, if s.arg0.toNat = 0 then .acked else .notSent, 0, []⟩
              result := .ok })

/-- R70: WIN_SETWIN. -/
def Obligations.WinSetwinEffect : Prop :=
  Sys2Proof.decode 0x00000022#32 = .ok .winSetwin ∧
  ∀ s : State,
    (s.win.role ≠ .send → exec .winSetwin s = .next { s with result := .role }) ∧
      (s.win.role = .send → s.arg0.toNat < s.win.pointer - s.win.head →
        exec .winSetwin s = .next { s with result := .winTooSmall }) ∧
      (s.win.role = .send → s.win.pointer - s.win.head ≤ s.arg0.toNat →
        exec .winSetwin s = .next { s with win := { s.win with win := s.arg0.toNat }, result := .ok })

/-- R71: WIN_NEXT. NO_FRAME with reason 0, 1 or 2, tested in this order; otherwise one frame, of 1 to PAYLOAD_CAP bytes. -/
def Obligations.WinNextEffect : Prop :=
  Sys2Proof.decode 0x00000023#32 = .ok .winNext ∧
  ∀ s : State,
    let limit := min (s.win.head + s.win.win) s.win.len
    let n := min (s.cfg.pktBudget - 17) (limit - s.win.pointer)
    let p := BitVec.ofNat 32 s.win.pointer
    (s.win.role ≠ .send → exec .winNext s = .next { s with result := .role }) ∧
      (s.win.role = .send → s.win.pointer = s.win.len →
        exec .winNext s = .next { s with res0 := p, res1 := 0#32, result := .noFrame }) ∧
      (s.win.role = .send → s.win.pointer ≠ s.win.len → limit ≤ s.win.pointer →
        exec .winNext s = .next { s with res0 := p, res1 := 1#32, result := .noFrame }) ∧
      (s.win.role = .send → s.win.pointer ≠ s.win.len → s.win.pointer < limit → s.win.fifo.length = s.cfg.fifoDepth →
        exec .winNext s = .next { s with res0 := p, res1 := 2#32, result := .noFrame }) ∧
      (s.win.role = .send → s.win.pointer ≠ s.win.len → s.win.pointer < limit → s.win.fifo.length ≠ s.cfg.fifoDepth →
        exec .winNext s =
          .next
            { s with
              win :=
                { s.win with
                  fifo := s.win.fifo ++ [⟨s.win.pointer, n⟩]
                  pointer := s.win.pointer + n
                  endState := if s.win.pointer + n = s.win.len then .pending else s.win.endState
                  endOffset := if s.win.pointer + n = s.win.len then s.win.len else s.win.endOffset }
              res0 := p
              res1 := BitVec.ofNat 32 n
              result := .ok } ∧
        (s.cfg.Legal = true → 1 ≤ n ∧ n ≤ s.cfg.pktBudget - 17))

/-- R74: WIN_PEND_READ reads outstanding frame ARG0 and does not pop it; WIN_FIFO_COUNT is the number of them. -/
def Obligations.WinPendReadEffect : Prop :=
  Sys2Proof.decode 0x00000024#32 = .ok .winPendRead ∧
  ∀ s : State,
    (s.win.role ≠ .send → exec .winPendRead s = .next { s with result := .role }) ∧
      (s.win.role = .send → s.win.fifo.length ≤ s.arg0.toNat →
        exec .winPendRead s = .next { s with result := .range }) ∧
      readReg .winFifoCount s = BitVec.ofNat 32 s.win.fifo.length ∧
      ∀ f, s.win.role = .send → s.win.fifo[s.arg0.toNat]? = some f →
        exec .winPendRead s =
          .next { s with res0 := BitVec.ofNat 32 f.seq, res1 := BitVec.ofNat 32 f.flen, result := .ok }

/-- R76: WIN_ACK. -/
def Obligations.WinAckEffect : Prop :=
  Sys2Proof.decode 0x00000025#32 = .ok .winAck ∧
  ∀ s : State,
    (s.win.role ≠ .send → exec .winAck s = .next { s with result := .role }) ∧
      (s.win.role = .send → ¬ (s.win.head < s.arg0.toNat ∧ s.arg0.toNat ≤ s.win.pointer) →
        exec .winAck s = .next { s with result := .ackRejected }) ∧
      (s.win.role = .send → s.win.head < s.arg0.toNat → s.arg0.toNat ≤ s.win.pointer →
        ∃ fifo', popsAndTrims s.win.fifo s.arg0.toNat fifo' ∧
          exec .winAck s =
            .next
              { s with
                win :=
                  { s.win with
                    head := s.arg0.toNat
                    fifo := fifo'
                    endState :=
                      if s.win.endState = .pending ∧ s.arg0.toNat = s.win.endOffset then .acked else s.win.endState }
                res0 := s.arg0
                res1 := BitVec.ofNat 32 fifo'.length
                result := .ok })

/-- R67, R62: a command issued in another role than it needs ends with ROLE and changes nothing else, before anything else is
tested. -/
def Obligations.RoleIsCheckedFirst : Prop :=
  ∀ (i : Instr) (r : Role) (s : State), neededRole i = some r → s.win.role ≠ r →
    exec i s = .next { s with result := .role }

/-- R77: in SEND role `head` never decreases; only an accepted WIN_ACK moves it, and a rejected one changes only RESULT. -/
def Obligations.HeadNeverDecreasesInSend : Prop :=
  (∀ s t : State, step s = .next t → s.win.role = .send → t.win.role = .send → s.win.head ≤ t.win.head) ∧
    (∀ (i : Instr) (s t : State), exec i s = .next t → s.win.role = .send → i ≠ .reset → i ≠ .winAck →
      t.win.head = s.win.head) ∧
    ∀ s t : State, exec .winAck s = .next t → s.win.role = .send →
      (t.result = .ok ∧ s.win.head < t.win.head) ∨ t = { s with result := .ackRejected }

/-- R78: in SEND role a transfer is complete exactly when all of it is acknowledged; completion comes only from WIN_ACK len of
a pending transfer or from WIN_LOAD 0, and PENDING only from a WIN_NEXT that reaches `len`. -/
def Obligations.CompleteExactlyWhenAllAcknowledged : Prop :=
  (∀ s : State, Inv s → s.win.role = .send → (s.win.endState = .acked ↔ s.win.head = s.win.len)) ∧
    (∀ (i : Instr) (s t : State), Inv s → exec i s = .next t → s.win.endState ≠ .acked → t.win.endState = .acked →
      (i = .winAck ∧ s.win.endState = .pending ∧ s.arg0.toNat = s.win.len) ∨ (i = .winLoad ∧ s.arg0.toNat = 0)) ∧
    ∀ (i : Instr) (s t : State), exec i s = .next t → s.win.endState ≠ .pending → t.win.endState = .pending →
      i = .winNext ∧ t.win.pointer = s.win.len

/-- R72: the NextFrames loop ends within FIFO_DEPTH + 1 commands with NO_FRAME. The frames it returns are the ones it pushed,
contiguous from the old pointer to the new one, each as long as payload and ceiling allow; unless the FIFO is full it stops
at `min(head + win, len)`. -/
def Obligations.NextFramesLoop : Prop :=
  ∀ s : State, Inv s → s.win.role = .send →
    let r := nextFrames (s.cfg.fifoDepth + 1) s
    r.2.result = .noFrame ∧ Covers s.win.pointer r.2.win.pointer r.1 ∧ r.2.win.fifo = s.win.fifo ++ r.1 ∧
      (∀ f ∈ r.1, f.flen = min (s.cfg.pktBudget - 17) (min (s.win.head + s.win.win) s.win.len - f.seq)) ∧
      (r.2.res1 ≠ 2#32 → r.2.win.pointer = min (s.win.head + s.win.win) s.win.len)

/-- R75: the PendingFrames loop returns the FIFO, which covers [head, pointer) exactly. -/
def Obligations.PendingFramesLoop : Prop :=
  ∀ s : State, Inv s → s.win.role = .send →
    pendingFrames s = s.win.fifo.map some ∧ Covers s.win.head s.win.pointer s.win.fifo

/-- R79: along a run that stays in SEND role, the frames WIN_NEXT produces are contiguous from the first pointer to the last,
with no gap and no overlap; a frame WIN_PEND_READ returns lies inside [head, pointer).The form of the run is the model's
(log 1, log 3). -/
def Obligations.FramesCoverTheTransfer : Prop :=
  (∀ (k : Nat) (s : State), Inv s → (∀ j, j ≤ k → (runThrough j s).win.role = .send) →
    Covers s.win.pointer (runThrough k s).win.pointer (produced k s)) ∧
    ∀ s t : State, Inv s → exec .winPendRead s = .next t → t.result = .ok →
      s.win.head ≤ t.res0.toNat ∧ t.res0.toNat + t.res1.toNat ≤ s.win.pointer

/-- R73, condition (a): with a window of at most FIFO_DEPTH bytes, WIN_NEXT never finds the FIFO full. -/
def Obligations.SmallWindowNeverFillsTheFifo : Prop :=
  ∀ s t : State, Inv s → s.win.win ≤ s.cfg.fifoDepth → exec .winNext s = .next t →
    ¬ (t.result = .noFrame ∧ t.res1 = 2#32)

/-- R73, condition (b): while the window is a multiple of PAYLOAD_CAP that FIFO_DEPTH frames cover and every acknowledgement
is a multiple or `len`, the alignment is kept and WIN_NEXT never finds the FIFO full. -/
def Obligations.AlignedWindowNeverFillsTheFifo : Prop :=
  ∀ s t : State, Inv s → s.win.role = .send → Aligned s.cfg s.win →
    (exec .winNext s = .next t → Aligned t.cfg t.win ∧ ¬ (t.result = .noFrame ∧ t.res1 = 2#32)) ∧
      (exec .winAck s = .next t → s.cfg.payloadCap ∣ s.arg0.toNat ∨ s.arg0.toNat = s.win.len → Aligned t.cfg t.win)

/-! ### Window, receiver -/

/-- R69: WIN_RECV_INIT. -/
def Obligations.WinRecvInitEffect : Prop :=
  Sys2Proof.decode 0x00000021#32 = .ok .winRecvInit ∧
  ∀ s : State,
    (s.win.role ≠ .none → exec .winRecvInit s = .next { s with result := .role }) ∧
      (s.win.role = .none →
        exec .winRecvInit s = .next { s with win := ⟨.recv, 0, 0, 0, s.cfg.recvWindow, .notSent, 0, []⟩, result := .ok })

/-- R80: WIN_ACCEPT. The refusals in their order; otherwise the payload is appended to BUF at `pointer`. -/
def Obligations.WinAcceptEffect : Prop :=
  Sys2Proof.decode 0x00000026#32 = .ok .winAccept ∧
  ∀ s : State,
    let n := s.rx.dsize.toNat
    let p := BitVec.ofNat 32 s.win.pointer
    (s.win.role ≠ .recv → exec .winAccept s = .next { s with result := .role }) ∧
      (s.win.role = .recv → s.rx.flags.valid = false → exec .winAccept s = .next { s with result := .noPacket }) ∧
      (s.win.role = .recv → s.rx.flags.valid = true → s.rx.kind ≠ 0x02#8 →
        exec .winAccept s = .next { s with result := .notData }) ∧
      (s.win.role = .recv → s.rx.flags.valid = true → s.rx.kind = 0x02#8 → s.rx.seq.toNat ≠ s.win.pointer →
        exec .winAccept s = .next { s with res0 := p, result := .outOfOrder }) ∧
      (s.win.role = .recv → s.rx.flags.valid = true → s.rx.kind = 0x02#8 → s.rx.seq.toNat = s.win.pointer →
        s.win.head + s.win.win < s.win.pointer + n ∨ s.cfg.bufCap < s.win.pointer + n →
          exec .winAccept s = .next { s with res0 := p, result := .overflow }) ∧
      (s.win.role = .recv → s.rx.flags.valid = true → s.rx.kind = 0x02#8 → s.rx.seq.toNat = s.win.pointer →
        s.win.pointer + n ≤ s.win.head + s.win.win → s.win.pointer + n ≤ s.cfg.bufCap →
          ∃ m, exec .winAccept s =
              .next
                { s with
                  buf := m
                  win := { s.win with pointer := s.win.pointer + n, len := s.win.pointer + n }
                  res0 := BitVec.ofNat 32 (s.win.pointer + n)
                  res1 := s.rx.dsize
                  result := .ok } ∧
            ∀ i, m.read i =
              if s.win.pointer ≤ i ∧ i < s.win.pointer + n then s.rxm.read (17 + (i - s.win.pointer)) else s.buf.read i)

/-- R81: WIN_DRAIN. -/
def Obligations.WinDrainEffect : Prop :=
  Sys2Proof.decode 0x00000027#32 = .ok .winDrain ∧
  ∀ s : State,
    (s.win.role ≠ .recv → exec .winDrain s = .next { s with result := .role }) ∧
      (s.win.role = .recv →
        exec .winDrain s =
          .next
            { s with
              win := { s.win with head := s.win.pointer }
              res0 := BitVec.ofNat 32 s.win.head
              res1 := BitVec.ofNat 32 (s.win.pointer - s.win.head)
              result := .ok })

/-- R81: in RECV role only WIN_DRAIN moves `head`, to the end of the range it delivers, so successive drains deliver adjacent
ranges: no byte twice and none out of order. -/
def Obligations.DrainedRangesAreAdjacent : Prop :=
  (∀ (i : Instr) (s t : State), exec i s = .next t → s.win.role = .recv → t.win.role = .recv → i ≠ .winDrain →
    t.win.head = s.win.head ∧ s.win.pointer ≤ t.win.pointer) ∧
    ∀ s t : State, Inv s → s.win.role = .recv → exec .winDrain s = .next t →
      t.res0.toNat = s.win.head ∧ t.res0.toNat + t.res1.toNat = t.win.head ∧ t.win.head = s.win.pointer

/-! ### Timers and the interrupt -/

/-- R86: TMR_RESTART_RX. -/
def Obligations.TmrRestartRxEffect : Prop :=
  Sys2Proof.decode 0x00000030#32 = .ok .tmrRestartRx ∧
  ∀ s : State,
    exec .tmrRestartRx s =
      .next { s with tmr := { s.tmr with rxArmed := true, rxCount := s.cfg.rxTmo }, result := .ok }

/-- R87: TMR_RESTART_IDLE. -/
def Obligations.TmrRestartIdleEffect : Prop :=
  Sys2Proof.decode 0x00000031#32 = .ok .tmrRestartIdle ∧
  ∀ s : State,
    exec .tmrRestartIdle s =
      .next { s with tmr := { s.tmr with idleArmed := true, idleCount := s.cfg.idleTmo }, result := .ok }

/-- R88: TMR_CLEAR; ticks then change nothing, neither timer is timed out, and `irq` is low. -/
def Obligations.TmrClearEffect : Prop :=
  Sys2Proof.decode 0x00000032#32 = .ok .tmrClear ∧
  ∀ s : State,
    ∃ t, exec .tmrClear s = .next t ∧ t = { s with tmr := ⟨false, 0, false, 0⟩, result := .ok } ∧
      ¬ rxTo t.tmr ∧ ¬ idleTo t.tmr ∧ t.irq = false ∧ tickStep t = t

/-- R84, R89: TMR_POLL returns the verdict, idle before receive, and the two raw bits; no timer state changes. -/
def Obligations.TmrPollEffect : Prop :=
  Sys2Proof.decode 0x00000033#32 = .ok .tmrPoll ∧
  ∀ s : State,
    ∃ t, exec .tmrPoll s = .next t ∧ t = { s with res0 := t.res0, res1 := t.res1, result := .ok } ∧
      t.res0 = readReg .tmrEvent s ∧ (idleTo s.tmr → t.res0 = 2#32) ∧ (¬ idleTo s.tmr → rxTo s.tmr → t.res0 = 1#32) ∧
      (¬ idleTo s.tmr → ¬ rxTo s.tmr → t.res0 = 0#32) ∧
      (t.res1.toNat = 0 ↔ ¬ idleTo s.tmr ∧ ¬ rxTo s.tmr) ∧ (t.res1.toNat = 1 ↔ ¬ idleTo s.tmr ∧ rxTo s.tmr) ∧
      (t.res1.toNat = 2 ↔ idleTo s.tmr ∧ ¬ rxTo s.tmr) ∧ (t.res1.toNat = 3 ↔ idleTo s.tmr ∧ rxTo s.tmr)

/-- R84: TMR_EVENT, which a write does not change. -/
def Obligations.IdleVerdictTakesPrecedence : Prop :=
  ∀ s : State,
    (idleTo s.tmr → readReg .tmrEvent s = 2#32) ∧ (¬ idleTo s.tmr → rxTo s.tmr → readReg .tmrEvent s = 1#32) ∧
      (¬ idleTo s.tmr → ¬ rxTo s.tmr → readReg .tmrEvent s = 0#32) ∧
      ∀ v, writeReg .tmrEvent v s = s

/-- R83: after a restart with duration D, the timer is timed out after k ticks exactly when D ≤ k, so 0 after D − 1 and 1 after
D. A timer that is not armed is never timed out by ticks. -/
def Obligations.TimesOutAfterExactlyDTicks : Prop :=
  (∀ (s t : State) (k : Nat), exec .tmrRestartRx s = .next t → (rxTo (tickStep^[k] t).tmr ↔ s.cfg.rxTmo ≤ k)) ∧
    (∀ (s t : State) (k : Nat), exec .tmrRestartIdle s = .next t → (idleTo (tickStep^[k] t).tmr ↔ s.cfg.idleTmo ≤ k)) ∧
    ∀ (s : State) (k : Nat),
      (s.tmr.rxArmed = false → ¬ rxTo (tickStep^[k] s).tmr) ∧ (s.tmr.idleArmed = false → ¬ idleTo (tickStep^[k] s).tmr)

/-- R83: a timed-out timer stays timed out through every step but its restart, TMR_CLEAR, RESET and hardware reset. -/
def Obligations.TimeoutIsSticky : Prop :=
  ∀ (s t : State) (e : Event) (es : List Event), s.script = e :: es → step s = .next t →
    (rxTo s.tmr →
      rxTo t.tmr ∨ e = .rst ∨
        ∃ i ∈ [Instr.tmrRestartRx, .tmrClear, .reset], e = commandWrite (Sys2Proof.encode i)) ∧
      (idleTo s.tmr →
        idleTo t.tmr ∨ e = .rst ∨
          ∃ i ∈ [Instr.tmrRestartIdle, .tmrClear, .reset], e = commandWrite (Sys2Proof.encode i))

/-- R85: the two timers are independent. -/
def Obligations.TimersAreIndependent : Prop :=
  (∀ (i : Instr) (s t : State), exec i s = .next t →
    (i ∉ [Instr.tmrRestartRx, .tmrClear, .reset] → t.tmr.rxArmed = s.tmr.rxArmed ∧ t.tmr.rxCount = s.tmr.rxCount) ∧
      (i ∉ [Instr.tmrRestartIdle, .tmrClear, .reset] →
        t.tmr.idleArmed = s.tmr.idleArmed ∧ t.tmr.idleCount = s.tmr.idleCount)) ∧
    ∀ s s' : State,
      (s.tmr.rxArmed = s'.tmr.rxArmed → s.tmr.rxCount = s'.tmr.rxCount →
        (tickStep s).tmr.rxCount = (tickStep s').tmr.rxCount) ∧
      (s.tmr.idleArmed = s'.tmr.idleArmed → s.tmr.idleCount = s'.tmr.idleCount →
        (tickStep s).tmr.idleCount = (tickStep s').tmr.idleCount)

/-- R98: `irq` is the level TMO_IE ∧ (RX_TO ∨ IDLE_TO), mirrored in STATUS bit 24. A command raises it only by restarting a
timer with duration 0, and it falls on TMR_CLEAR, on RESET, and on the restart of the one timed-out timer. -/
def Obligations.IrqLevel : Prop :=
  (∀ s : State, (s.irq = true ↔ s.tmoIe = true ∧ (rxTo s.tmr ∨ idleTo s.tmr)) ∧ s.status.getLsbD 24 = s.irq) ∧
    (∀ (i : Instr) (s t : State), exec i s = .next t → s.irq = false → t.irq = true →
      (i = .tmrRestartRx ∧ s.cfg.rxTmo = 0) ∨ (i = .tmrRestartIdle ∧ s.cfg.idleTmo = 0)) ∧
    ∀ (i : Instr) (s t : State), exec i s = .next t →
      i = .tmrClear ∨ i = .reset ∨ (i = .tmrRestartRx ∧ s.cfg.rxTmo ≠ 0 ∧ ¬ idleTo s.tmr) ∨
        (i = .tmrRestartIdle ∧ s.cfg.idleTmo ≠ 0 ∧ ¬ rxTo s.tmr) → t.irq = false

/-! ### Whole-machine rules -/

/-- R93: every command and every command word completes; nothing is ever refused; a fault is the bus error of an access. -/
def Obligations.EveryCommandCompletes : Prop :=
  (∀ (i : Instr) (s : State), ∃ t, exec i s = .next t) ∧ (∀ (w : Word) (s : State), ∃ t, runCommand w s = .next t) ∧
    (∀ (s : State) (r : Refusal), step s ≠ .refused r) ∧
    ∀ (s : State) (f : Fault), step s = .fault f →
      ∃ e es a, s.script = e :: es ∧ addressOf e = some a ∧ f = .busError a

/-- R94: the 15 codes, and which of them each command can report. -/
def Obligations.ResultCodesByCommand : Prop :=
  (∀ c n, (c, n) ∈ resultCodes → (ResultCode.code c).toNat = n) ∧
    ∀ (i : Instr) (s t : State), exec i s = .next t → t.result ∈ possibleResults i

/-- R95: a command that ends with another code than OK has changed RESULT and only the registers its rule names for that
code. -/
def Obligations.FailuresArePrecise : Prop :=
  ∀ (i : Instr) (s t : State), exec i s = .next t → t.result ≠ .ok →
    t = { s with result := t.result, res0 := t.res0, res1 := t.res1, rx := { s.rx with flags := t.rx.flags } } ∧
      (t.result ≠ .noFrame → t.res1 = s.res1) ∧
      (t.result ∉ [ResultCode.noFrame, .outOfOrder, .overflow] → t.res0 = s.res0) ∧
      (t.result ≠ .malformed → t.rx.flags = s.rx.flags) ∧
      (t.result = .malformed → t.rx.flags = ⟨false, false, false, false, false, false⟩)

/-- R23, R24, R25, R26, R34: which commands may write each register and each RAM; what no command writes. -/
def Obligations.OnlyTheNamedCommandsWrite : Prop :=
  ∀ (i : Instr) (s t : State), exec i s = .next t →
    t.cfg = s.cfg ∧ t.arg0 = s.arg0 ∧ t.arg1 = s.arg1 ∧ t.tmoIe = s.tmoIe ∧ t.rx.len = s.rx.len ∧
      t.script = s.script ∧ t.reply = s.reply ∧
      (i ∉ [Instr.winNext, .winPendRead, .winAck, .winAccept, .winDrain, .tmrPoll] →
        t.res0 = s.res0 ∧ t.res1 = s.res1) ∧
      (i ∉ [Instr.encode, .encodeFrame, .encodeAck] → t.tx = s.tx ∧ t.txm = s.txm) ∧
      (i ≠ .decode → t.rxm = s.rxm ∧ t.rx = { s.rx with flags := t.rx.flags }) ∧
      (i ≠ .winAccept → t.buf = s.buf) ∧
      (i.group ≠ .window → i ≠ .reset → t.win = s.win) ∧
      (i ∉ [Instr.tmrRestartRx, .tmrRestartIdle, .tmrClear, .reset] → t.tmr = s.tmr)

/-- R32 with the ranges of R29 to R34: every step keeps the invariant, from every state that has it. -/
def Obligations.EveryStepKeepsTheInvariant : Prop :=
  ∀ s t : State, Inv s → step s = .next t → Inv t

/-- R32: every state reachable from hardware reset of a legal instance, by any sequence of accesses, ticks and resets, bus
errors included, has I1 to I7. The form of the run is the model's: the list `es` is the sequence (log 1), and the run goes on after a bus error (R39, log 3). -/
def Obligations.ReachableStatesKeepR32 : Prop :=
  ∀ (c : Config) (es : List Event) (k : Nat), c.Legal = true →
    let s := runThrough k (bootWith c es)
    (s.win.head ≤ s.win.pointer ∧ s.win.pointer ≤ s.win.len ∧ s.win.len ≤ c.bufCap) ∧
      s.win.pointer - s.win.head ≤ s.win.win ∧
      (s.win.role = .send → Covers s.win.head s.win.pointer s.win.fifo) ∧
      s.win.fifo.length ≤ c.fifoDepth ∧
      (s.win.endState = .pending → s.win.role = .send ∧ s.win.pointer = s.win.len ∧ s.win.len = s.win.endOffset) ∧
      (s.win.endState = .acked →
        s.win.role = .send ∧ s.win.head = s.win.pointer ∧ s.win.pointer = s.win.len ∧ s.win.len = s.win.endOffset) ∧
      (s.win.role = .recv → s.win.len = s.win.pointer ∧ s.win.endState = .notSent ∧ s.win.fifo = []) ∧
      (s.win.role = .none → s.win = ⟨.none, 0, 0, 0, 0, .notSent, 0, []⟩)
end

