-- ==== Sys2Proof/Laws/Memory.lean ====
section
/-! SUPPORT. The laws of the RAM operations: what a byte reads after each of them, that each keeps the canonical form and the
bounds of the array, and that two canonical memories that read alike are equal. -/

namespace Sys2Proof.Machine.Memory

@[simp] theorem read_nil (i : Nat) : read [] i = 0#8 := rfl

theorem read_eq_getD (m : Memory) (i : Nat) :
    read m i = ((m.find? (fun c => c.1 == i)).map (·.2)).getD 0#8 := by
  unfold read
  cases m.find? (fun c => c.1 == i) <;> rfl

theorem read_cons (c : Host.Cell) (m : Memory) (i : Nat) :
    read (c :: m) i = if c.1 = i then c.2 else read m i := by
  by_cases h : c.1 = i <;> simp [read, h]

/-- A key that is not listed reads 0. -/
theorem read_of_forall_ne {m : Memory} {i : Nat} (h : ∀ c ∈ m, c.1 ≠ i) : read m i = 0#8 := by
  have : m.find? (fun c => c.1 == i) = none := by
    rw [List.find?_eq_none]
    intro c hc
    simpa using h c hc
  simp [read, this]

theorem read_append (m₁ m₂ : Memory) (i : Nat) :
    read (m₁ ++ m₂) i = if ∃ c ∈ m₁, c.1 = i then read m₁ i else read m₂ i := by
  induction m₁ with
  | nil => simp
  | cons c m ih =>
    by_cases h : c.1 = i
    · simp [read_cons, h]
    · rw [List.cons_append, read_cons, read_cons, ih]
      simp [h]

/-- Keeping the cells of a set of keys keeps the bytes at those keys. -/
theorem read_filter (m : Memory) (p : Nat → Bool) (i : Nat) :
    read (m.filter (fun c => p c.1)) i = if p i then read m i else 0#8 := by
  induction m with
  | nil => simp
  | cons c m ih =>
    by_cases hp : p c.1
    · rw [List.filter_cons, if_pos hp, read_cons, read_cons, ih]
      by_cases h : c.1 = i
      · subst h
        simp [hp]
      · simp [h]
    · rw [List.filter_cons, if_neg hp, ih, read_cons]
      by_cases h : c.1 = i
      · subst h
        simp [hp]
      · simp [h]

/-- What a byte reads after a range was replaced: inside the range what the new cells say, outside it as before. -/
theorem read_replace {m mid : Memory} {a n : Nat} (h : ∀ c ∈ mid, a ≤ c.1 ∧ c.1 < a + n) (i : Nat) :
    read (replace m a n mid) i = if a ≤ i ∧ i < a + n then read mid i else read m i := by
  have hlo := read_filter m (fun k => k < a) i
  have hhi := read_filter m (fun k => a + n ≤ k) i
  unfold replace
  rw [List.append_assoc, read_append, read_append, hlo, hhi]
  by_cases h1 : i < a
  · have h0 : ¬ a ≤ i := by omega
    have hm : ¬ ∃ c ∈ mid, c.1 = i := by
      rintro ⟨c, hc, rfl⟩
      have := h c hc
      omega
    have hr : ¬ a + n ≤ i := by omega
    by_cases hk : ∃ c ∈ m.filter (fun c => decide (c.1 < a)), c.1 = i
    · rw [if_pos hk]
      simp [h1, h0]
    · have : read m i = 0#8 := by
        apply read_of_forall_ne
        intro c hc hci
        exact hk ⟨c, by simp [hc, hci, h1], hci⟩
      rw [if_neg hk, if_neg hm]
      simp [h0, hr, this]
  · have hk : ¬ ∃ c ∈ m.filter (fun c => decide (c.1 < a)), c.1 = i := by
      rintro ⟨c, hc, rfl⟩
      simp at hc
      omega
    rw [if_neg hk]
    by_cases h2 : i < a + n
    · have hr : ¬ a + n ≤ i := by omega
      have hin : a ≤ i ∧ i < a + n := by omega
      by_cases hm : ∃ c ∈ mid, c.1 = i
      · simp [hm, hin]
      · have : read mid i = 0#8 := read_of_forall_ne (fun c hc hci => hm ⟨c, hc, hci⟩)
        simp [hm, hin, hr, this]
    · have hm : ¬ ∃ c ∈ mid, c.1 = i := by
        rintro ⟨c, hc, rfl⟩
        have := h c hc
        omega
      have hr : a + n ≤ i := by omega
      simp [hm, h2, hr]

theorem mem_replace {m mid : Memory} {a n : Nat} {c : Host.Cell} (h : c ∈ replace m a n mid) : c ∈ m ∨ c ∈ mid := by
  simp only [replace, List.mem_append, List.mem_filter] at h
  tauto

/-- Replacing a range keeps the canonical form. -/
theorem wf_replace {m mid : Memory} {a n : Nat} (hm : m.wf) (hmid : mid.wf)
    (h : ∀ c ∈ mid, a ≤ c.1 ∧ c.1 < a + n) : (replace m a n mid).wf := by
  refine ⟨?_, ?_⟩
  · unfold replace
    rw [List.pairwise_append, List.pairwise_append]
    refine ⟨⟨hm.1.filter _, hmid.1, ?_⟩, hm.1.filter _, ?_⟩
    · intro c hc d hd
      have := h d hd
      simp at hc
      omega
    · intro c hc d hd
      simp at hd
      rcases List.mem_append.mp hc with hc | hc
      · simp at hc
        omega
      · have := h c hc
        omega
  · intro c hc
    rcases mem_replace hc with hc | hc
    · exact hm.2 c hc
    · exact hmid.2 c hc

theorem within_replace {m mid : Memory} {a n k : Nat} (hm : m.within k) (hmid : mid.within k) :
    (replace m a n mid).within k := by
  intro c hc
  rcases mem_replace hc with hc | hc
  · exact hm c hc
  · exact hmid c hc

/-- The empty list is canonical: a RAM whose every byte reads 0. -/
theorem wf_nil : wf [] := ⟨List.Pairwise.nil, fun _ h => nomatch h⟩

theorem mem_cellsAt {o : Nat} {bs : List Byte} {c : Host.Cell} (h : c ∈ cellsAt o bs) :
    o ≤ c.1 ∧ c.1 < o + bs.length ∧ c.2 ≠ 0#8 := by
  induction bs generalizing o with
  | nil => simp [cellsAt] at h
  | cons b bs ih =>
    unfold cellsAt at h
    split at h
    · have := ih h
      simp only [List.length_cons]
      exact ⟨by omega, by omega, this.2.2⟩
    · rename_i hb
      rcases List.mem_cons.mp h with rfl | h
      · simpa using hb
      · have := ih h
        simp only [List.length_cons]
        exact ⟨by omega, by omega, this.2.2⟩

theorem wf_cellsAt (o : Nat) (bs : List Byte) : (cellsAt o bs).wf := by
  refine ⟨?_, fun c hc => (mem_cellsAt hc).2.2⟩
  induction bs generalizing o with
  | nil => simp [cellsAt]
  | cons b bs ih =>
    unfold cellsAt
    split
    · exact ih _
    · rw [List.pairwise_cons]
      refine ⟨fun c hc => ?_, ih _⟩
      have := mem_cellsAt hc
      omega

theorem read_cellsAt (o : Nat) (bs : List Byte) (i : Nat) (h : o ≤ i) :
    read (cellsAt o bs) i = bs.getD (i - o) 0#8 := by
  induction bs generalizing o with
  | nil => simp [cellsAt]
  | cons b bs ih =>
    unfold cellsAt
    by_cases hio : i = o
    · subst hio
      have hne : ∀ c ∈ cellsAt (i + 1) bs, c.1 ≠ i := by
        intro c hc
        have := mem_cellsAt hc
        omega
      split
      · rename_i hb
        simp [read_of_forall_ne hne, hb]
      · simp [read_cons]
    · have hsub : i - o = i - (o + 1) + 1 := by omega
      have hne : o ≠ i := fun e => hio e.symm
      split
      · rw [ih (o + 1) (by omega), hsub, List.getD_cons_succ]
      · rw [read_cons]
        simp only [hne, if_false]
        rw [ih (o + 1) (by omega), hsub, List.getD_cons_succ]

/-- Read after store: the stored bytes inside, everything else as before. -/
theorem read_store (m : Memory) (o : Nat) (bs : List Byte) (i : Nat) :
    (m.store o bs).read i = if o ≤ i ∧ i < o + bs.length then bs.getD (i - o) 0#8 else m.read i := by
  unfold store
  rw [read_replace (fun c hc => ⟨(mem_cellsAt hc).1, (mem_cellsAt hc).2.1⟩)]
  by_cases h : o ≤ i ∧ i < o + bs.length
  · rw [if_pos h, if_pos h, read_cellsAt _ _ _ h.1]
  · rw [if_neg h, if_neg h]

theorem wf_store {m : Memory} (h : m.wf) (o : Nat) (bs : List Byte) : (m.store o bs).wf :=
  wf_replace h (wf_cellsAt o bs) (fun _ hc => ⟨(mem_cellsAt hc).1, (mem_cellsAt hc).2.1⟩)

theorem within_store {m : Memory} {k o : Nat} {bs : List Byte} (h : m.within k) (hb : o + bs.length ≤ k) :
    (m.store o bs).within k :=
  within_replace h (fun c hc => by have := mem_cellsAt hc; omega)

/-- Read after write of one byte. -/
theorem read_write (m : Memory) (o : Nat) (b : Byte) (i : Nat) :
    (m.write o b).read i = if i = o then b else m.read i := by
  unfold write
  rw [read_store]
  by_cases h : i = o
  · subst h
    simp
  · have : ¬ (o ≤ i ∧ i < o + 1) := by omega
    simp only [List.length_singleton, this, h, if_false]

theorem wf_write {m : Memory} (h : m.wf) (o : Nat) (b : Byte) : (m.write o b).wf := wf_store h o [b]

theorem within_write {m : Memory} {k o : Nat} {b : Byte} (h : m.within k) (ho : o < k) : (m.write o b).within k :=
  within_store h (by simpa using ho)

/-- Read after `zero`. -/
theorem read_zero (m : Memory) (a b i : Nat) :
    (m.zero a b).read i = if a ≤ i ∧ i < b then 0#8 else m.read i := by
  unfold zero
  rw [read_replace (by simp)]
  have : (a ≤ i ∧ i < a + (b - a)) ↔ (a ≤ i ∧ i < b) := by omega
  simp only [this, read_nil]

theorem wf_zero {m : Memory} (h : m.wf) (a b : Nat) : (m.zero a b).wf := wf_replace h wf_nil (by simp)

theorem within_zero {m : Memory} {k : Nat} (h : m.within k) (a b : Nat) : (m.zero a b).within k :=
  within_replace h (by simp)

theorem mem_slice {src : Memory} {s n d : Nat} {c : Host.Cell} (h : c ∈ slice src s n d) :
    ∃ e ∈ src, s ≤ e.1 ∧ e.1 < s + n ∧ c = (e.1 - s + d, e.2) := by
  simp only [slice, List.mem_map, List.mem_filter, Bool.and_eq_true, decide_eq_true_eq] at h
  obtain ⟨e, ⟨he, h1, h2⟩, rfl⟩ := h
  exact ⟨e, he, h1, h2, rfl⟩

theorem slice_range {src : Memory} {s n d : Nat} : ∀ c ∈ slice src s n d, d ≤ c.1 ∧ c.1 < d + n := by
  intro c hc
  obtain ⟨e, -, h1, h2, rfl⟩ := mem_slice hc
  simp only
  omega

theorem wf_slice {src : Memory} (h : src.wf) (s n d : Nat) : (slice src s n d).wf := by
  refine ⟨?_, ?_⟩
  · unfold slice
    rw [List.pairwise_map]
    have hp := h.1.filter (fun c => decide (s ≤ c.1) && decide (c.1 < s + n))
    refine hp.imp_of_mem ?_
    intro c e hc he hlt
    simp at hc he
    simp only
    omega
  · intro c hc
    obtain ⟨e, he, -, -, rfl⟩ := mem_slice hc
    exact h.2 e he

theorem read_slice (src : Memory) (s n d i : Nat) (h : d ≤ i ∧ i < d + n) :
    read (slice src s n d) i = src.read (i - d + s) := by
  induction src with
  | nil => simp [slice]
  | cons c m ih =>
    unfold slice at ih ⊢
    by_cases hc : s ≤ c.1 ∧ c.1 < s + n
    · rw [List.filter_cons_of_pos (by simpa using hc), List.map_cons, read_cons, read_cons, ih]
      have : (c.1 - s + d = i) ↔ (c.1 = i - d + s) := by omega
      simp only [this]
    · rw [List.filter_cons_of_neg (by simpa using hc), ih, read_cons]
      have : c.1 ≠ i - d + s := by omega
      simp only [this, if_false]

/-- Read after `copy`. -/
theorem read_copy (dst : Memory) (d : Nat) (src : Memory) (s n i : Nat) :
    (dst.copy d src s n).read i = if d ≤ i ∧ i < d + n then src.read (i - d + s) else dst.read i := by
  unfold copy
  rw [read_replace slice_range]
  by_cases h : d ≤ i ∧ i < d + n
  · rw [if_pos h, if_pos h, read_slice _ _ _ _ _ h]
  · rw [if_neg h, if_neg h]

theorem wf_copy {dst src : Memory} (hd : dst.wf) (hs : src.wf) (d s n : Nat) : (dst.copy d src s n).wf :=
  wf_replace hd (wf_slice hs s n d) slice_range

theorem within_copy {dst src : Memory} {k d s n : Nat} (hd : dst.within k) (h : d + n ≤ k) :
    (dst.copy d src s n).within k :=
  within_replace hd (fun c hc => by have := slice_range c hc; omega)

/-- A byte past the array reads 0. -/
theorem read_of_within {m : Memory} {k i : Nat} (h : m.within k) (hi : k ≤ i) : m.read i = 0#8 :=
  read_of_forall_ne (fun c hc e => by have := h c hc; omega)

theorem read_of_mem {m : Memory} (h : m.wf) {c : Host.Cell} (hc : c ∈ m) : m.read c.1 = c.2 := by
  obtain ⟨hp, -⟩ := h
  induction m with
  | nil => simp at hc
  | cons d m ih =>
    rw [List.pairwise_cons] at hp
    rcases List.mem_cons.mp hc with rfl | hc
    · simp [read_cons]
    · have := hp.1 c hc
      have hne : d.1 ≠ c.1 := by omega
      rw [read_cons]
      simp only [hne, if_false]
      exact ih hc hp.2

theorem mem_of_read {m : Memory} {i : Nat} (h : m.read i ≠ 0#8) : ∃ c ∈ m, c.1 = i := by
  by_contra hne
  push Not at hne
  exact h (read_of_forall_ne hne)

/-- The canonical form is one: memories that read alike are equal. -/
theorem ext_read {m₁ m₂ : Memory} (h₁ : m₁.wf) (h₂ : m₂.wf) (h : ∀ i, m₁.read i = m₂.read i) : m₁ = m₂ := by
  have sub : ∀ {a b : Memory}, a.wf → b.wf → (∀ i, a.read i = b.read i) → ∀ c ∈ a, c ∈ b := by
    intro a b ha hb hab c hc
    have hr : b.read c.1 = c.2 := by rw [← hab, read_of_mem ha hc]
    obtain ⟨e, he, hec⟩ := mem_of_read (m := b) (i := c.1) (by rw [hr]; exact ha.2 c hc)
    have : e.2 = c.2 := by rw [← read_of_mem hb he, hec, hr]
    have : e = c := Prod.ext hec this
    exact this ▸ he
  have nd : ∀ {a : Memory}, a.wf → a.Nodup := fun ha => ha.1.imp (fun hlt e => by rw [e] at hlt; omega)
  have hperm : m₁.Perm m₂ :=
    (List.perm_ext_iff_of_nodup (nd h₁) (nd h₂)).mpr
      (fun c => ⟨sub h₁ h₂ h c, sub h₂ h₁ (fun i => (h i).symm) c⟩)
  exact hperm.eq_of_pairwise (fun a b _ _ hab hba => by omega) h₁.1 h₂.1

end Sys2Proof.Machine.Memory
end

