-- ==== Sys2Proof/Laws/State.lean ====
section
/-! SUPPORT. One lemma per field and update of `State`, so that no proof unfolds a record update. -/

namespace Sys2Proof.Machine.State

@[simp] theorem setResult_cfg (s : State) (c : ResultCode) : (s.setResult c).cfg = s.cfg := rfl
@[simp] theorem setResult_result (s : State) (c : ResultCode) : (s.setResult c).result = c := rfl
@[simp] theorem setResult_arg0 (s : State) (c : ResultCode) : (s.setResult c).arg0 = s.arg0 := rfl
@[simp] theorem setResult_arg1 (s : State) (c : ResultCode) : (s.setResult c).arg1 = s.arg1 := rfl
@[simp] theorem setResult_res0 (s : State) (c : ResultCode) : (s.setResult c).res0 = s.res0 := rfl
@[simp] theorem setResult_res1 (s : State) (c : ResultCode) : (s.setResult c).res1 = s.res1 := rfl
@[simp] theorem setResult_tmoIe (s : State) (c : ResultCode) : (s.setResult c).tmoIe = s.tmoIe := rfl
@[simp] theorem setResult_tx (s : State) (c : ResultCode) : (s.setResult c).tx = s.tx := rfl
@[simp] theorem setResult_rx (s : State) (c : ResultCode) : (s.setResult c).rx = s.rx := rfl
@[simp] theorem setResult_win (s : State) (c : ResultCode) : (s.setResult c).win = s.win := rfl
@[simp] theorem setResult_tmr (s : State) (c : ResultCode) : (s.setResult c).tmr = s.tmr := rfl
@[simp] theorem setResult_txm (s : State) (c : ResultCode) : (s.setResult c).txm = s.txm := rfl
@[simp] theorem setResult_rxm (s : State) (c : ResultCode) : (s.setResult c).rxm = s.rxm := rfl
@[simp] theorem setResult_buf (s : State) (c : ResultCode) : (s.setResult c).buf = s.buf := rfl
@[simp] theorem setResult_script (s : State) (c : ResultCode) : (s.setResult c).script = s.script := rfl
@[simp] theorem setResult_reply (s : State) (c : ResultCode) : (s.setResult c).reply = s.reply := rfl

@[simp] theorem setRes0_cfg (s : State) (v : Word) : (s.setRes0 v).cfg = s.cfg := rfl
@[simp] theorem setRes0_result (s : State) (v : Word) : (s.setRes0 v).result = s.result := rfl
@[simp] theorem setRes0_arg0 (s : State) (v : Word) : (s.setRes0 v).arg0 = s.arg0 := rfl
@[simp] theorem setRes0_arg1 (s : State) (v : Word) : (s.setRes0 v).arg1 = s.arg1 := rfl
@[simp] theorem setRes0_res0 (s : State) (v : Word) : (s.setRes0 v).res0 = v := rfl
@[simp] theorem setRes0_res1 (s : State) (v : Word) : (s.setRes0 v).res1 = s.res1 := rfl
@[simp] theorem setRes0_tmoIe (s : State) (v : Word) : (s.setRes0 v).tmoIe = s.tmoIe := rfl
@[simp] theorem setRes0_tx (s : State) (v : Word) : (s.setRes0 v).tx = s.tx := rfl
@[simp] theorem setRes0_rx (s : State) (v : Word) : (s.setRes0 v).rx = s.rx := rfl
@[simp] theorem setRes0_win (s : State) (v : Word) : (s.setRes0 v).win = s.win := rfl
@[simp] theorem setRes0_tmr (s : State) (v : Word) : (s.setRes0 v).tmr = s.tmr := rfl
@[simp] theorem setRes0_txm (s : State) (v : Word) : (s.setRes0 v).txm = s.txm := rfl
@[simp] theorem setRes0_rxm (s : State) (v : Word) : (s.setRes0 v).rxm = s.rxm := rfl
@[simp] theorem setRes0_buf (s : State) (v : Word) : (s.setRes0 v).buf = s.buf := rfl
@[simp] theorem setRes0_script (s : State) (v : Word) : (s.setRes0 v).script = s.script := rfl
@[simp] theorem setRes0_reply (s : State) (v : Word) : (s.setRes0 v).reply = s.reply := rfl

@[simp] theorem setRes1_cfg (s : State) (v : Word) : (s.setRes1 v).cfg = s.cfg := rfl
@[simp] theorem setRes1_result (s : State) (v : Word) : (s.setRes1 v).result = s.result := rfl
@[simp] theorem setRes1_arg0 (s : State) (v : Word) : (s.setRes1 v).arg0 = s.arg0 := rfl
@[simp] theorem setRes1_arg1 (s : State) (v : Word) : (s.setRes1 v).arg1 = s.arg1 := rfl
@[simp] theorem setRes1_res0 (s : State) (v : Word) : (s.setRes1 v).res0 = s.res0 := rfl
@[simp] theorem setRes1_res1 (s : State) (v : Word) : (s.setRes1 v).res1 = v := rfl
@[simp] theorem setRes1_tmoIe (s : State) (v : Word) : (s.setRes1 v).tmoIe = s.tmoIe := rfl
@[simp] theorem setRes1_tx (s : State) (v : Word) : (s.setRes1 v).tx = s.tx := rfl
@[simp] theorem setRes1_rx (s : State) (v : Word) : (s.setRes1 v).rx = s.rx := rfl
@[simp] theorem setRes1_win (s : State) (v : Word) : (s.setRes1 v).win = s.win := rfl
@[simp] theorem setRes1_tmr (s : State) (v : Word) : (s.setRes1 v).tmr = s.tmr := rfl
@[simp] theorem setRes1_txm (s : State) (v : Word) : (s.setRes1 v).txm = s.txm := rfl
@[simp] theorem setRes1_rxm (s : State) (v : Word) : (s.setRes1 v).rxm = s.rxm := rfl
@[simp] theorem setRes1_buf (s : State) (v : Word) : (s.setRes1 v).buf = s.buf := rfl
@[simp] theorem setRes1_script (s : State) (v : Word) : (s.setRes1 v).script = s.script := rfl
@[simp] theorem setRes1_reply (s : State) (v : Word) : (s.setRes1 v).reply = s.reply := rfl

@[simp] theorem setTx_cfg (s : State) (t : TxRegs) : (s.setTx t).cfg = s.cfg := rfl
@[simp] theorem setTx_result (s : State) (t : TxRegs) : (s.setTx t).result = s.result := rfl
@[simp] theorem setTx_arg0 (s : State) (t : TxRegs) : (s.setTx t).arg0 = s.arg0 := rfl
@[simp] theorem setTx_arg1 (s : State) (t : TxRegs) : (s.setTx t).arg1 = s.arg1 := rfl
@[simp] theorem setTx_res0 (s : State) (t : TxRegs) : (s.setTx t).res0 = s.res0 := rfl
@[simp] theorem setTx_res1 (s : State) (t : TxRegs) : (s.setTx t).res1 = s.res1 := rfl
@[simp] theorem setTx_tmoIe (s : State) (t : TxRegs) : (s.setTx t).tmoIe = s.tmoIe := rfl
@[simp] theorem setTx_tx (s : State) (t : TxRegs) : (s.setTx t).tx = t := rfl
@[simp] theorem setTx_rx (s : State) (t : TxRegs) : (s.setTx t).rx = s.rx := rfl
@[simp] theorem setTx_win (s : State) (t : TxRegs) : (s.setTx t).win = s.win := rfl
@[simp] theorem setTx_tmr (s : State) (t : TxRegs) : (s.setTx t).tmr = s.tmr := rfl
@[simp] theorem setTx_txm (s : State) (t : TxRegs) : (s.setTx t).txm = s.txm := rfl
@[simp] theorem setTx_rxm (s : State) (t : TxRegs) : (s.setTx t).rxm = s.rxm := rfl
@[simp] theorem setTx_buf (s : State) (t : TxRegs) : (s.setTx t).buf = s.buf := rfl
@[simp] theorem setTx_script (s : State) (t : TxRegs) : (s.setTx t).script = s.script := rfl
@[simp] theorem setTx_reply (s : State) (t : TxRegs) : (s.setTx t).reply = s.reply := rfl

@[simp] theorem setRx_cfg (s : State) (r : RxRegs) : (s.setRx r).cfg = s.cfg := rfl
@[simp] theorem setRx_result (s : State) (r : RxRegs) : (s.setRx r).result = s.result := rfl
@[simp] theorem setRx_arg0 (s : State) (r : RxRegs) : (s.setRx r).arg0 = s.arg0 := rfl
@[simp] theorem setRx_arg1 (s : State) (r : RxRegs) : (s.setRx r).arg1 = s.arg1 := rfl
@[simp] theorem setRx_res0 (s : State) (r : RxRegs) : (s.setRx r).res0 = s.res0 := rfl
@[simp] theorem setRx_res1 (s : State) (r : RxRegs) : (s.setRx r).res1 = s.res1 := rfl
@[simp] theorem setRx_tmoIe (s : State) (r : RxRegs) : (s.setRx r).tmoIe = s.tmoIe := rfl
@[simp] theorem setRx_tx (s : State) (r : RxRegs) : (s.setRx r).tx = s.tx := rfl
@[simp] theorem setRx_rx (s : State) (r : RxRegs) : (s.setRx r).rx = r := rfl
@[simp] theorem setRx_win (s : State) (r : RxRegs) : (s.setRx r).win = s.win := rfl
@[simp] theorem setRx_tmr (s : State) (r : RxRegs) : (s.setRx r).tmr = s.tmr := rfl
@[simp] theorem setRx_txm (s : State) (r : RxRegs) : (s.setRx r).txm = s.txm := rfl
@[simp] theorem setRx_rxm (s : State) (r : RxRegs) : (s.setRx r).rxm = s.rxm := rfl
@[simp] theorem setRx_buf (s : State) (r : RxRegs) : (s.setRx r).buf = s.buf := rfl
@[simp] theorem setRx_script (s : State) (r : RxRegs) : (s.setRx r).script = s.script := rfl
@[simp] theorem setRx_reply (s : State) (r : RxRegs) : (s.setRx r).reply = s.reply := rfl

@[simp] theorem setWin_cfg (s : State) (w : Window) : (s.setWin w).cfg = s.cfg := rfl
@[simp] theorem setWin_result (s : State) (w : Window) : (s.setWin w).result = s.result := rfl
@[simp] theorem setWin_arg0 (s : State) (w : Window) : (s.setWin w).arg0 = s.arg0 := rfl
@[simp] theorem setWin_arg1 (s : State) (w : Window) : (s.setWin w).arg1 = s.arg1 := rfl
@[simp] theorem setWin_res0 (s : State) (w : Window) : (s.setWin w).res0 = s.res0 := rfl
@[simp] theorem setWin_res1 (s : State) (w : Window) : (s.setWin w).res1 = s.res1 := rfl
@[simp] theorem setWin_tmoIe (s : State) (w : Window) : (s.setWin w).tmoIe = s.tmoIe := rfl
@[simp] theorem setWin_tx (s : State) (w : Window) : (s.setWin w).tx = s.tx := rfl
@[simp] theorem setWin_rx (s : State) (w : Window) : (s.setWin w).rx = s.rx := rfl
@[simp] theorem setWin_win (s : State) (w : Window) : (s.setWin w).win = w := rfl
@[simp] theorem setWin_tmr (s : State) (w : Window) : (s.setWin w).tmr = s.tmr := rfl
@[simp] theorem setWin_txm (s : State) (w : Window) : (s.setWin w).txm = s.txm := rfl
@[simp] theorem setWin_rxm (s : State) (w : Window) : (s.setWin w).rxm = s.rxm := rfl
@[simp] theorem setWin_buf (s : State) (w : Window) : (s.setWin w).buf = s.buf := rfl
@[simp] theorem setWin_script (s : State) (w : Window) : (s.setWin w).script = s.script := rfl
@[simp] theorem setWin_reply (s : State) (w : Window) : (s.setWin w).reply = s.reply := rfl

@[simp] theorem setTmr_cfg (s : State) (t : Timers) : (s.setTmr t).cfg = s.cfg := rfl
@[simp] theorem setTmr_result (s : State) (t : Timers) : (s.setTmr t).result = s.result := rfl
@[simp] theorem setTmr_arg0 (s : State) (t : Timers) : (s.setTmr t).arg0 = s.arg0 := rfl
@[simp] theorem setTmr_arg1 (s : State) (t : Timers) : (s.setTmr t).arg1 = s.arg1 := rfl
@[simp] theorem setTmr_res0 (s : State) (t : Timers) : (s.setTmr t).res0 = s.res0 := rfl
@[simp] theorem setTmr_res1 (s : State) (t : Timers) : (s.setTmr t).res1 = s.res1 := rfl
@[simp] theorem setTmr_tmoIe (s : State) (t : Timers) : (s.setTmr t).tmoIe = s.tmoIe := rfl
@[simp] theorem setTmr_tx (s : State) (t : Timers) : (s.setTmr t).tx = s.tx := rfl
@[simp] theorem setTmr_rx (s : State) (t : Timers) : (s.setTmr t).rx = s.rx := rfl
@[simp] theorem setTmr_win (s : State) (t : Timers) : (s.setTmr t).win = s.win := rfl
@[simp] theorem setTmr_tmr (s : State) (t : Timers) : (s.setTmr t).tmr = t := rfl
@[simp] theorem setTmr_txm (s : State) (t : Timers) : (s.setTmr t).txm = s.txm := rfl
@[simp] theorem setTmr_rxm (s : State) (t : Timers) : (s.setTmr t).rxm = s.rxm := rfl
@[simp] theorem setTmr_buf (s : State) (t : Timers) : (s.setTmr t).buf = s.buf := rfl
@[simp] theorem setTmr_script (s : State) (t : Timers) : (s.setTmr t).script = s.script := rfl
@[simp] theorem setTmr_reply (s : State) (t : Timers) : (s.setTmr t).reply = s.reply := rfl

@[simp] theorem setTxm_cfg (s : State) (m : Memory) : (s.setTxm m).cfg = s.cfg := rfl
@[simp] theorem setTxm_result (s : State) (m : Memory) : (s.setTxm m).result = s.result := rfl
@[simp] theorem setTxm_arg0 (s : State) (m : Memory) : (s.setTxm m).arg0 = s.arg0 := rfl
@[simp] theorem setTxm_arg1 (s : State) (m : Memory) : (s.setTxm m).arg1 = s.arg1 := rfl
@[simp] theorem setTxm_res0 (s : State) (m : Memory) : (s.setTxm m).res0 = s.res0 := rfl
@[simp] theorem setTxm_res1 (s : State) (m : Memory) : (s.setTxm m).res1 = s.res1 := rfl
@[simp] theorem setTxm_tmoIe (s : State) (m : Memory) : (s.setTxm m).tmoIe = s.tmoIe := rfl
@[simp] theorem setTxm_tx (s : State) (m : Memory) : (s.setTxm m).tx = s.tx := rfl
@[simp] theorem setTxm_rx (s : State) (m : Memory) : (s.setTxm m).rx = s.rx := rfl
@[simp] theorem setTxm_win (s : State) (m : Memory) : (s.setTxm m).win = s.win := rfl
@[simp] theorem setTxm_tmr (s : State) (m : Memory) : (s.setTxm m).tmr = s.tmr := rfl
@[simp] theorem setTxm_txm (s : State) (m : Memory) : (s.setTxm m).txm = m := rfl
@[simp] theorem setTxm_rxm (s : State) (m : Memory) : (s.setTxm m).rxm = s.rxm := rfl
@[simp] theorem setTxm_buf (s : State) (m : Memory) : (s.setTxm m).buf = s.buf := rfl
@[simp] theorem setTxm_script (s : State) (m : Memory) : (s.setTxm m).script = s.script := rfl
@[simp] theorem setTxm_reply (s : State) (m : Memory) : (s.setTxm m).reply = s.reply := rfl

@[simp] theorem setRxm_cfg (s : State) (m : Memory) : (s.setRxm m).cfg = s.cfg := rfl
@[simp] theorem setRxm_result (s : State) (m : Memory) : (s.setRxm m).result = s.result := rfl
@[simp] theorem setRxm_arg0 (s : State) (m : Memory) : (s.setRxm m).arg0 = s.arg0 := rfl
@[simp] theorem setRxm_arg1 (s : State) (m : Memory) : (s.setRxm m).arg1 = s.arg1 := rfl
@[simp] theorem setRxm_res0 (s : State) (m : Memory) : (s.setRxm m).res0 = s.res0 := rfl
@[simp] theorem setRxm_res1 (s : State) (m : Memory) : (s.setRxm m).res1 = s.res1 := rfl
@[simp] theorem setRxm_tmoIe (s : State) (m : Memory) : (s.setRxm m).tmoIe = s.tmoIe := rfl
@[simp] theorem setRxm_tx (s : State) (m : Memory) : (s.setRxm m).tx = s.tx := rfl
@[simp] theorem setRxm_rx (s : State) (m : Memory) : (s.setRxm m).rx = s.rx := rfl
@[simp] theorem setRxm_win (s : State) (m : Memory) : (s.setRxm m).win = s.win := rfl
@[simp] theorem setRxm_tmr (s : State) (m : Memory) : (s.setRxm m).tmr = s.tmr := rfl
@[simp] theorem setRxm_txm (s : State) (m : Memory) : (s.setRxm m).txm = s.txm := rfl
@[simp] theorem setRxm_rxm (s : State) (m : Memory) : (s.setRxm m).rxm = m := rfl
@[simp] theorem setRxm_buf (s : State) (m : Memory) : (s.setRxm m).buf = s.buf := rfl
@[simp] theorem setRxm_script (s : State) (m : Memory) : (s.setRxm m).script = s.script := rfl
@[simp] theorem setRxm_reply (s : State) (m : Memory) : (s.setRxm m).reply = s.reply := rfl

@[simp] theorem setBuf_cfg (s : State) (m : Memory) : (s.setBuf m).cfg = s.cfg := rfl
@[simp] theorem setBuf_result (s : State) (m : Memory) : (s.setBuf m).result = s.result := rfl
@[simp] theorem setBuf_arg0 (s : State) (m : Memory) : (s.setBuf m).arg0 = s.arg0 := rfl
@[simp] theorem setBuf_arg1 (s : State) (m : Memory) : (s.setBuf m).arg1 = s.arg1 := rfl
@[simp] theorem setBuf_res0 (s : State) (m : Memory) : (s.setBuf m).res0 = s.res0 := rfl
@[simp] theorem setBuf_res1 (s : State) (m : Memory) : (s.setBuf m).res1 = s.res1 := rfl
@[simp] theorem setBuf_tmoIe (s : State) (m : Memory) : (s.setBuf m).tmoIe = s.tmoIe := rfl
@[simp] theorem setBuf_tx (s : State) (m : Memory) : (s.setBuf m).tx = s.tx := rfl
@[simp] theorem setBuf_rx (s : State) (m : Memory) : (s.setBuf m).rx = s.rx := rfl
@[simp] theorem setBuf_win (s : State) (m : Memory) : (s.setBuf m).win = s.win := rfl
@[simp] theorem setBuf_tmr (s : State) (m : Memory) : (s.setBuf m).tmr = s.tmr := rfl
@[simp] theorem setBuf_txm (s : State) (m : Memory) : (s.setBuf m).txm = s.txm := rfl
@[simp] theorem setBuf_rxm (s : State) (m : Memory) : (s.setBuf m).rxm = s.rxm := rfl
@[simp] theorem setBuf_buf (s : State) (m : Memory) : (s.setBuf m).buf = m := rfl
@[simp] theorem setBuf_script (s : State) (m : Memory) : (s.setBuf m).script = s.script := rfl
@[simp] theorem setBuf_reply (s : State) (m : Memory) : (s.setBuf m).reply = s.reply := rfl

@[simp] theorem setScript_cfg (s : State) (es : List Event) : (s.setScript es).cfg = s.cfg := rfl
@[simp] theorem setScript_result (s : State) (es : List Event) : (s.setScript es).result = s.result := rfl
@[simp] theorem setScript_arg0 (s : State) (es : List Event) : (s.setScript es).arg0 = s.arg0 := rfl
@[simp] theorem setScript_arg1 (s : State) (es : List Event) : (s.setScript es).arg1 = s.arg1 := rfl
@[simp] theorem setScript_res0 (s : State) (es : List Event) : (s.setScript es).res0 = s.res0 := rfl
@[simp] theorem setScript_res1 (s : State) (es : List Event) : (s.setScript es).res1 = s.res1 := rfl
@[simp] theorem setScript_tmoIe (s : State) (es : List Event) : (s.setScript es).tmoIe = s.tmoIe := rfl
@[simp] theorem setScript_tx (s : State) (es : List Event) : (s.setScript es).tx = s.tx := rfl
@[simp] theorem setScript_rx (s : State) (es : List Event) : (s.setScript es).rx = s.rx := rfl
@[simp] theorem setScript_win (s : State) (es : List Event) : (s.setScript es).win = s.win := rfl
@[simp] theorem setScript_tmr (s : State) (es : List Event) : (s.setScript es).tmr = s.tmr := rfl
@[simp] theorem setScript_txm (s : State) (es : List Event) : (s.setScript es).txm = s.txm := rfl
@[simp] theorem setScript_rxm (s : State) (es : List Event) : (s.setScript es).rxm = s.rxm := rfl
@[simp] theorem setScript_buf (s : State) (es : List Event) : (s.setScript es).buf = s.buf := rfl
@[simp] theorem setScript_script (s : State) (es : List Event) : (s.setScript es).script = es := rfl
@[simp] theorem setScript_reply (s : State) (es : List Event) : (s.setScript es).reply = s.reply := rfl

@[simp] theorem setReply_cfg (s : State) (r : Reply) : (s.setReply r).cfg = s.cfg := rfl
@[simp] theorem setReply_result (s : State) (r : Reply) : (s.setReply r).result = s.result := rfl
@[simp] theorem setReply_arg0 (s : State) (r : Reply) : (s.setReply r).arg0 = s.arg0 := rfl
@[simp] theorem setReply_arg1 (s : State) (r : Reply) : (s.setReply r).arg1 = s.arg1 := rfl
@[simp] theorem setReply_res0 (s : State) (r : Reply) : (s.setReply r).res0 = s.res0 := rfl
@[simp] theorem setReply_res1 (s : State) (r : Reply) : (s.setReply r).res1 = s.res1 := rfl
@[simp] theorem setReply_tmoIe (s : State) (r : Reply) : (s.setReply r).tmoIe = s.tmoIe := rfl
@[simp] theorem setReply_tx (s : State) (r : Reply) : (s.setReply r).tx = s.tx := rfl
@[simp] theorem setReply_rx (s : State) (r : Reply) : (s.setReply r).rx = s.rx := rfl
@[simp] theorem setReply_win (s : State) (r : Reply) : (s.setReply r).win = s.win := rfl
@[simp] theorem setReply_tmr (s : State) (r : Reply) : (s.setReply r).tmr = s.tmr := rfl
@[simp] theorem setReply_txm (s : State) (r : Reply) : (s.setReply r).txm = s.txm := rfl
@[simp] theorem setReply_rxm (s : State) (r : Reply) : (s.setReply r).rxm = s.rxm := rfl
@[simp] theorem setReply_buf (s : State) (r : Reply) : (s.setReply r).buf = s.buf := rfl
@[simp] theorem setReply_script (s : State) (r : Reply) : (s.setReply r).script = s.script := rfl
@[simp] theorem setReply_reply (s : State) (r : Reply) : (s.setReply r).reply = r := rfl

@[simp] theorem setRes_cfg (s : State) (a b : Word) : (s.setRes a b).cfg = s.cfg := rfl
@[simp] theorem setRes_result (s : State) (a b : Word) : (s.setRes a b).result = s.result := rfl
@[simp] theorem setRes_arg0 (s : State) (a b : Word) : (s.setRes a b).arg0 = s.arg0 := rfl
@[simp] theorem setRes_arg1 (s : State) (a b : Word) : (s.setRes a b).arg1 = s.arg1 := rfl
@[simp] theorem setRes_res0 (s : State) (a b : Word) : (s.setRes a b).res0 = a := rfl
@[simp] theorem setRes_res1 (s : State) (a b : Word) : (s.setRes a b).res1 = b := rfl
@[simp] theorem setRes_tmoIe (s : State) (a b : Word) : (s.setRes a b).tmoIe = s.tmoIe := rfl
@[simp] theorem setRes_tx (s : State) (a b : Word) : (s.setRes a b).tx = s.tx := rfl
@[simp] theorem setRes_rx (s : State) (a b : Word) : (s.setRes a b).rx = s.rx := rfl
@[simp] theorem setRes_win (s : State) (a b : Word) : (s.setRes a b).win = s.win := rfl
@[simp] theorem setRes_tmr (s : State) (a b : Word) : (s.setRes a b).tmr = s.tmr := rfl
@[simp] theorem setRes_txm (s : State) (a b : Word) : (s.setRes a b).txm = s.txm := rfl
@[simp] theorem setRes_rxm (s : State) (a b : Word) : (s.setRes a b).rxm = s.rxm := rfl
@[simp] theorem setRes_buf (s : State) (a b : Word) : (s.setRes a b).buf = s.buf := rfl
@[simp] theorem setRes_script (s : State) (a b : Word) : (s.setRes a b).script = s.script := rfl
@[simp] theorem setRes_reply (s : State) (a b : Word) : (s.setRes a b).reply = s.reply := rfl

end Sys2Proof.Machine.State

namespace Sys2Proof.Machine

/-- How a command ends: one next state, the result code written (R12). -/
@[simp] theorem finish_eq_next (c : ResultCode) (s t : State) : finish c s = .next t ↔ s.setResult c = t := by
  simp [finish]

/-- The inversion of `finish`. -/
theorem finish_inv {c : ResultCode} {s t : State} (h : finish c s = .next t) : t = s.setResult c :=
  ((finish_eq_next c s t).mp h).symm

end Sys2Proof.Machine
end

