-- ==== Sys2Proof/Laws/Bus.lean ====
section
/-! SUPPORT. The laws of the register map and of the bus: an offset names its register, what an address reaches, and what an
access can do, said once. -/

namespace Sys2Proof.Machine

/-- Every register is in the list of all registers. -/
theorem Reg.mem_all (r : Reg) : r ∈ Reg.all := by cases r <;> decide

/-- A register is found at its own offset (R18). -/
@[simp] theorem Reg.at_offset (r : Reg) : Reg.at? r.offset = some r := by cases r <;> rfl

/-- What is found at an offset is the register of that offset (R18). -/
theorem Reg.offset_of_at {o : Nat} {r : Reg} (h : Reg.at? o = some r) : r.offset = o := by
  have := List.find?_some h
  simpa using this

/-- Register offsets are aligned and inside the page (R18). -/
theorem Reg.offset_aligned (r : Reg) : r.offset % 4 = 0 ∧ r.offset < 0x1000 := by
  cases r <;> decide

/-- An address of the register page (R36). -/
theorem target_page {c : Config} {a : Word} (h : a.toNat < 0x1000) : target c a = .page a.toNat := by
  simp only [target, h, if_true]

/-- A register's bus address reaches the page at its offset (R36). -/
theorem target_reg (c : Config) (r : Reg) : target c (BitVec.ofNat 32 r.offset) = .page r.offset := by
  have h := r.offset_aligned.2
  have e : (BitVec.ofNat 32 r.offset).toNat = r.offset := by
    simp only [BitVec.toNat_ofNat]
    omega
  rw [target_page (by rw [e]; exact h), e]

/-- A 32-bit read of a register by its name (R18, R37). -/
theorem busRead32_reg (r : Reg) (s : State) :
    busRead32 (BitVec.ofNat 32 r.offset) s = .next (s.setReply (.word (readReg r s))) := by
  simp [busRead32, target_reg, r.offset_aligned.1]

/-- A 32-bit write of a register other than CMD by its name (R18, R37). -/
theorem busWrite32_reg {r : Reg} (h : r ≠ .cmd) (v : Word) (s : State) :
    busWrite32 (BitVec.ofNat 32 r.offset) v s = .next (writeReg r v (s.setReply .written)) := by
  simp only [busWrite32, target_reg, r.offset_aligned.1, if_true, Reg.at_offset]

/-- The write of a word to CMD starts that command (R21). -/
theorem perform_commandWrite (w : Word) (s : State) : perform (commandWrite w) s = runCommand w (s.setReply .written) := by
  simp only [perform, commandWrite, busWrite32, target_reg, Reg.at_offset]
  rfl

/-- One step is the first event of the script (R6, R44). -/
theorem step_cons {s : State} {e : Event} {es : List Event} (h : s.script = e :: es) :
    step s = perform e (s.setScript es) := by
  simp only [step, h]

theorem step_nil {s : State} (h : s.script = []) : step s = .next s := by
  simp only [step, h]

/-- What a 32-bit read can do: with an aligned page address it answers, and only the answer changes (R37, R39, R43). -/
theorem busRead32_cases (a : Word) (s : State) :
    (a.toNat < 0x1000 ∧ a.toNat % 4 = 0 ∧ ∃ v, busRead32 a s = .next (s.setReply (.word v))) ∨
      (¬ (a.toNat < 0x1000 ∧ a.toNat % 4 = 0) ∧ busRead32 a s = .fault (.busError a)) := by
  by_cases h : a.toNat < 0x1000
  · by_cases h4 : a.toNat % 4 = 0
    · refine .inl ⟨h, h4, ?_⟩
      simp only [busRead32, target_page h, h4, if_true]
      cases Reg.at? a.toNat with
      | none => exact ⟨_, rfl⟩
      | some r => exact ⟨_, rfl⟩
    · refine .inr ⟨by omega, ?_⟩
      simp only [busRead32, target_page h, h4, if_false]
  · refine .inr ⟨by omega, ?_⟩
    simp only [busRead32, target, h, if_false]
    split_ifs <;> rfl

/-- What a 32-bit write can do (R19, R21, R37, R39). -/
theorem busWrite32_cases (a v : Word) (s : State) :
    (a.toNat < 0x1000 ∧ a.toNat % 4 = 0 ∧
        ((a.toNat = 0x40 ∧ busWrite32 a v s = runCommand v (s.setReply .written)) ∨
          (∃ r, r ≠ .cmd ∧ r.offset = a.toNat ∧ busWrite32 a v s = .next (writeReg r v (s.setReply .written))) ∨
          (Reg.at? a.toNat = none ∧ busWrite32 a v s = .next (s.setReply .written)))) ∨
      (¬ (a.toNat < 0x1000 ∧ a.toNat % 4 = 0) ∧ busWrite32 a v s = .fault (.busError a)) := by
  by_cases h : a.toNat < 0x1000
  · by_cases h4 : a.toNat % 4 = 0
    · refine .inl ⟨h, h4, ?_⟩
      simp only [busWrite32, target_page h, h4, if_true]
      cases hr : Reg.at? a.toNat with
      | none => exact .inr (.inr ⟨rfl, rfl⟩)
      | some r =>
        have ho := Reg.offset_of_at hr
        by_cases hc : r = .cmd
        · subst hc
          exact .inl ⟨ho.symm, rfl⟩
        · refine .inr (.inl ⟨r, hc, ho, ?_⟩)
          cases r <;> first | rfl | exact absurd rfl hc
    · refine .inr ⟨by omega, ?_⟩
      simp only [busWrite32, target_page h, h4, if_false]
  · refine .inr ⟨by omega, ?_⟩
    simp only [busWrite32, target, h, if_false]
    split_ifs <;> rfl

/-- An address of one of the RAM windows (R36). -/
def inRam (c : Config) (a : Word) : Prop :=
  (txmBase ≤ a.toNat ∧ a.toNat < txmBase + c.pktBudget) ∨ (rxmBase ≤ a.toNat ∧ a.toNat < rxmBase + c.pktBudget) ∨
    (bufBase ≤ a.toNat ∧ a.toNat < bufBase + c.bufCap)

/-- What an address can reach (R36). -/
theorem target_cases (c : Config) (a : Word) :
    (target c a = .page a.toNat ∧ ¬ inRam c a ∧ a.toNat < 0x1000) ∨
      (∃ i, target c a = .txm i ∧ inRam c a ∧ i < c.pktBudget) ∨
      (∃ i, target c a = .rxm i ∧ inRam c a ∧ i < c.pktBudget) ∨
      (∃ i, target c a = .buf i ∧ inRam c a ∧ i < c.bufCap) ∨
      (target c a = .unmapped ∧ ¬ inRam c a ∧ 0x1000 ≤ a.toNat) := by
  unfold target inRam txmBase rxmBase bufBase
  simp only
  split_ifs with h1 h2 h3 h4
  · exact .inl ⟨rfl, by omega, h1⟩
  · exact .inr (.inl ⟨_, rfl, .inl h2, by omega⟩)
  · exact .inr (.inr (.inl ⟨_, rfl, .inr (.inl h3), by omega⟩))
  · exact .inr (.inr (.inr (.inl ⟨_, rfl, .inr (.inr h4), by omega⟩)))
  · exact .inr (.inr (.inr (.inr ⟨rfl, by omega, by omega⟩)))

/-- What an 8-bit read can do (R38, R39, R43). -/
theorem busRead8_cases (a : Word) (s : State) :
    (inRam s.cfg a ∧ ∃ v, busRead8 a s = .next (s.setReply (.byte v))) ∨
      (¬ inRam s.cfg a ∧ busRead8 a s = .fault (.busError a)) := by
  rcases target_cases s.cfg a with ⟨h, hr, -⟩ | ⟨i, h, hr, -⟩ | ⟨i, h, hr, -⟩ | ⟨i, h, hr, -⟩ | ⟨h, hr, -⟩
  · exact .inr ⟨hr, by simp only [busRead8, h]⟩
  · exact .inl ⟨hr, s.txm.read i, by simp only [busRead8, h]⟩
  · exact .inl ⟨hr, s.rxm.read i, by simp only [busRead8, h]⟩
  · exact .inl ⟨hr, s.buf.read i, by simp only [busRead8, h]⟩
  · exact .inr ⟨hr, by simp only [busRead8, h]⟩

/-- What an 8-bit write can do (R38, R39). -/
theorem busWrite8_cases (a : Word) (v : Byte) (s : State) :
    (∃ i, i < s.cfg.pktBudget ∧ inRam s.cfg a ∧
        busWrite8 a v s = .next ((s.setTxm (s.txm.write i v)).setReply .written)) ∨
      (∃ i, i < s.cfg.pktBudget ∧ inRam s.cfg a ∧
        busWrite8 a v s = .next ((s.setRxm (s.rxm.write i v)).setReply .written)) ∨
      (∃ i, i < s.cfg.bufCap ∧ inRam s.cfg a ∧
        busWrite8 a v s = .next ((s.setBuf (s.buf.write i v)).setReply .written)) ∨
      (¬ inRam s.cfg a ∧ busWrite8 a v s = .fault (.busError a)) := by
  rcases target_cases s.cfg a with ⟨h, hr, -⟩ | ⟨i, h, hr, hi⟩ | ⟨i, h, hr, hi⟩ | ⟨i, h, hr, hi⟩ | ⟨h, hr, -⟩
  · exact .inr (.inr (.inr ⟨hr, by simp only [busWrite8, h]⟩))
  · exact .inl ⟨i, hi, hr, by simp only [busWrite8, h]⟩
  · exact .inr (.inl ⟨i, hi, hr, by simp only [busWrite8, h]⟩)
  · exact .inr (.inr (.inl ⟨i, hi, hr, by simp only [busWrite8, h]⟩))
  · exact .inr (.inr (.inr ⟨hr, by simp only [busWrite8, h]⟩))

/-- All that a register write can change (R18): ARG0, ARG1, TMO_IE, the five writable TX_* registers and RX_LEN. -/
theorem writeReg_frame (r : Reg) (v : Word) (s : State) :
    writeReg r v s =
      { s with
        arg0 := (writeReg r v s).arg0
        arg1 := (writeReg r v s).arg1
        tmoIe := (writeReg r v s).tmoIe
        tx := { (writeReg r v s).tx with len := s.tx.len }
        rx := { s.rx with len := (writeReg r v s).rx.len } } := by
  cases r <;> rfl

@[simp] theorem writeReg_cfg (r : Reg) (v : Word) (s : State) : (writeReg r v s).cfg = s.cfg := by
  rw [writeReg_frame]

@[simp] theorem writeReg_result (r : Reg) (v : Word) (s : State) : (writeReg r v s).result = s.result := by
  rw [writeReg_frame]

@[simp] theorem writeReg_res0 (r : Reg) (v : Word) (s : State) : (writeReg r v s).res0 = s.res0 := by
  rw [writeReg_frame]

@[simp] theorem writeReg_res1 (r : Reg) (v : Word) (s : State) : (writeReg r v s).res1 = s.res1 := by
  rw [writeReg_frame]

@[simp] theorem writeReg_win (r : Reg) (v : Word) (s : State) : (writeReg r v s).win = s.win := by
  rw [writeReg_frame]

@[simp] theorem writeReg_tmr (r : Reg) (v : Word) (s : State) : (writeReg r v s).tmr = s.tmr := by
  rw [writeReg_frame]

@[simp] theorem writeReg_txm (r : Reg) (v : Word) (s : State) : (writeReg r v s).txm = s.txm := by
  rw [writeReg_frame]

@[simp] theorem writeReg_rxm (r : Reg) (v : Word) (s : State) : (writeReg r v s).rxm = s.rxm := by
  rw [writeReg_frame]

@[simp] theorem writeReg_buf (r : Reg) (v : Word) (s : State) : (writeReg r v s).buf = s.buf := by
  rw [writeReg_frame]

@[simp] theorem writeReg_script (r : Reg) (v : Word) (s : State) : (writeReg r v s).script = s.script := by
  rw [writeReg_frame]

@[simp] theorem writeReg_reply (r : Reg) (v : Word) (s : State) : (writeReg r v s).reply = s.reply := by
  rw [writeReg_frame]

@[simp] theorem writeReg_flags (r : Reg) (v : Word) (s : State) : (writeReg r v s).rx.flags = s.rx.flags := by
  rw [writeReg_frame]

@[simp] theorem writeReg_txLen (r : Reg) (v : Word) (s : State) : (writeReg r v s).tx.len = s.tx.len := by
  rw [writeReg_frame]

end Sys2Proof.Machine
end

