-- ==== Sys2Proof/Laws/Codec.lean ====
section
/-! SUPPORT. The laws of the packet codec: big-endian fields read back (R40), what every byte of an encoded image reads (R55,
R61, R62), and that the images keep the canonical form and the bounds of TXM. -/

namespace Sys2Proof.Machine

/-- The four bytes of a word, put together again, are the word (R11). -/
theorem beBytes_join (v : Word) :
    v.extractLsb' 24 8 ++ v.extractLsb' 16 8 ++ v.extractLsb' 8 8 ++ v.extractLsb' 0 8 = v := by
  rw [BitVec.extractLsb'_append_extractLsb'_eq_extractLsb' (by rfl),
    BitVec.extractLsb'_append_extractLsb'_eq_extractLsb' (by rfl),
    BitVec.extractLsb'_append_extractLsb'_eq_extractLsb' (by rfl)]
  exact BitVec.extractLsb'_eq_self

theorem read_putBe32 (m : Memory) (o : Nat) (v : Word) (i : Nat) :
    (putBe32 m o v).read i = if o ≤ i ∧ i < o + 4 then (beBytes v).getD (i - o) 0#8 else m.read i := by
  simp [putBe32, Memory.read_store, beBytes]

theorem wf_putBe32 {m : Memory} (h : m.wf) (o : Nat) (v : Word) : (putBe32 m o v).wf := Memory.wf_store h o _

theorem within_putBe32 {m : Memory} {k o : Nat} {v : Word} (h : m.within k) (ho : o + 4 ≤ k) :
    (putBe32 m o v).within k :=
  Memory.within_store h (by simpa [beBytes] using ho)

/-- R11, R40: a big-endian field reads back. -/
theorem be32_putBe32 (m : Memory) (o : Nat) (v : Word) : be32 (putBe32 m o v) o = v := by
  simp [be32, read_putBe32, beBytes, beBytes_join]

/-- Two memories that agree on four bytes agree on the field. -/
theorem be32_congr {m₁ m₂ : Memory} {o : Nat} (h : ∀ i, o ≤ i → i < o + 4 → m₁.read i = m₂.read i) :
    be32 m₁ o = be32 m₂ o := by
  simp [be32, h o (by omega) (by omega), h (o + 1) (by omega) (by omega), h (o + 2) (by omega) (by omega),
    h (o + 3) (by omega) (by omega)]

/-- A field that lies outside the four bytes written is unchanged. -/
theorem be32_putBe32_ne (m : Memory) (o p : Nat) (v : Word) (h : p + 4 ≤ o ∨ o + 4 ≤ p) :
    be32 (putBe32 m o v) p = be32 m p := by
  apply be32_congr
  intro i h1 h2
  rw [read_putBe32, if_neg (by omega)]

section Header

variable (m : Memory) (kind : Byte) (seq ack win dsize : Word)

/-- Past its 17 bytes the header changes nothing (R55). -/
theorem read_putHeader_payload {i : Nat} (h : Config.hdrSize ≤ i) :
    (putHeader m kind seq ack win dsize).read i = m.read i := by
  simp only [Config.hdrSize] at h
  simp only [putHeader, read_putBe32, Memory.read_write]
  rw [if_neg (by omega), if_neg (by omega), if_neg (by omega), if_neg (by omega), if_neg (by omega)]

/-- The header's bytes do not depend on what the RAM held (R55). -/
theorem read_putHeader_header (m' : Memory) {i : Nat} (h : i < Config.hdrSize) :
    (putHeader m kind seq ack win dsize).read i = (putHeader m' kind seq ack win dsize).read i := by
  simp only [Config.hdrSize] at h
  simp only [putHeader, read_putBe32, Memory.read_write]
  by_cases h4 : 13 ≤ i ∧ i < 13 + 4
  · rw [if_pos h4, if_pos h4]
  · by_cases h3 : 9 ≤ i ∧ i < 9 + 4
    · rw [if_neg h4, if_neg h4, if_pos h3, if_pos h3]
    · by_cases h2 : 5 ≤ i ∧ i < 5 + 4
      · rw [if_neg h4, if_neg h4, if_neg h3, if_neg h3, if_pos h2, if_pos h2]
      · by_cases h1 : 1 ≤ i ∧ i < 1 + 4
        · rw [if_neg h4, if_neg h4, if_neg h3, if_neg h3, if_neg h2, if_neg h2, if_pos h1, if_pos h1]
        · have h0 : i = 0 := by omega
          rw [if_neg h4, if_neg h4, if_neg h3, if_neg h3, if_neg h2, if_neg h2, if_neg h1, if_neg h1, if_pos h0,
            if_pos h0]

theorem read_putHeader_kind : (putHeader m kind seq ack win dsize).read 0 = kind := by
  simp [putHeader, read_putBe32, Memory.read_write]

theorem be32_putHeader_seq : be32 (putHeader m kind seq ack win dsize) 1 = seq := by
  unfold putHeader
  rw [be32_putBe32_ne _ _ _ _ (by omega), be32_putBe32_ne _ _ _ _ (by omega), be32_putBe32_ne _ _ _ _ (by omega),
    be32_putBe32]

theorem be32_putHeader_ack : be32 (putHeader m kind seq ack win dsize) 5 = ack := by
  unfold putHeader
  rw [be32_putBe32_ne _ _ _ _ (by omega), be32_putBe32_ne _ _ _ _ (by omega), be32_putBe32]

theorem be32_putHeader_win : be32 (putHeader m kind seq ack win dsize) 9 = win := by
  unfold putHeader
  rw [be32_putBe32_ne _ _ _ _ (by omega), be32_putBe32]

theorem be32_putHeader_dsize : be32 (putHeader m kind seq ack win dsize) 13 = dsize := by
  unfold putHeader
  rw [be32_putBe32]

variable {m}

theorem wf_putHeader (h : m.wf) : (putHeader m kind seq ack win dsize).wf :=
  wf_putBe32 (wf_putBe32 (wf_putBe32 (wf_putBe32 (Memory.wf_write h _ _) _ _) _ _) _ _) _ _

theorem within_putHeader {k : Nat} (h : m.within k) (hk : Config.hdrSize ≤ k) :
    (putHeader m kind seq ack win dsize).within k := by
  simp only [Config.hdrSize] at hk
  exact within_putBe32 (within_putBe32 (within_putBe32 (within_putBe32 (Memory.within_write h (by omega)) (by omega))
    (by omega)) (by omega)) (by omega)

theorem wf_encodeImage {c : Config} (h : m.wf) : (encodeImage c m kind seq ack win dsize).wf :=
  Memory.wf_zero (wf_putHeader kind seq ack win dsize h) _ _

theorem within_encodeImage {c : Config} (h : m.within c.pktBudget) (hk : Config.hdrSize ≤ c.pktBudget) :
    (encodeImage c m kind seq ack win dsize).within c.pktBudget :=
  Memory.within_zero (within_putHeader kind seq ack win dsize h hk) _ _

end Header

/-- What each byte of an encoded image reads (R55, R61): the header, then the payload as it was, then zeros, and past
PKT_BUDGET as it was. -/
theorem read_encodeImage (c : Config) (m : Memory) (kind : Byte) (seq ack win dsize : Word) (i : Nat) :
    (encodeImage c m kind seq ack win dsize).read i =
      if Config.hdrSize + dsize.toNat ≤ i ∧ i < c.pktBudget then 0#8
      else (putHeader m kind seq ack win dsize).read i := by
  simp [encodeImage, Memory.read_zero]

/-- The header fields of an encoded image read back (R55, R66). -/
theorem be32_encodeImage (c : Config) (m : Memory) (kind : Byte) (seq ack win dsize : Word) {o : Nat}
    (h : o + 4 ≤ Config.hdrSize) :
    be32 (encodeImage c m kind seq ack win dsize) o = be32 (putHeader m kind seq ack win dsize) o := by
  apply be32_congr
  intro i h1 h2
  rw [read_encodeImage, if_neg (by omega)]

/-- What each byte of a frame's image reads (R62): the header, then the frame's bytes of BUF, then zeros, and past PKT_BUDGET
as it was. -/
theorem read_frameImage (c : Config) (txm buf : Memory) (q n i : Nat) :
    (frameImage c txm buf q n).read i =
      if Config.hdrSize + n ≤ i ∧ i < c.pktBudget then 0#8
      else if Config.hdrSize ≤ i ∧ i < Config.hdrSize + n then buf.read (i - Config.hdrSize + q)
      else (putHeader txm kindData (toWord q) 0#32 0#32 (toWord n)).read i := by
  simp [frameImage, Memory.read_zero, Memory.read_copy]

theorem wf_frameImage {c : Config} {txm buf : Memory} (ht : txm.wf) (hb : buf.wf) (q n : Nat) :
    (frameImage c txm buf q n).wf :=
  Memory.wf_zero (Memory.wf_copy (wf_putHeader _ _ _ _ _ ht) hb _ _ _) _ _

theorem within_frameImage {c : Config} {txm buf : Memory} {q n : Nat} (ht : txm.within c.pktBudget)
    (h : Config.hdrSize + n ≤ c.pktBudget) : (frameImage c txm buf q n).within c.pktBudget :=
  Memory.within_zero (Memory.within_copy (within_putHeader _ _ _ _ _ ht (by omega)) h) _ _

/-- The four fields of a header, byte by byte, most significant byte first (R55). -/
theorem read_putHeader_fields (m : Memory) (kind : Byte) (seq ack win dsize : Word) {k : Nat} (h : k < 4) :
    (putHeader m kind seq ack win dsize).read (1 + k) = seq.extractLsb' (24 - 8 * k) 8 ∧
      (putHeader m kind seq ack win dsize).read (5 + k) = ack.extractLsb' (24 - 8 * k) 8 ∧
      (putHeader m kind seq ack win dsize).read (9 + k) = win.extractLsb' (24 - 8 * k) 8 ∧
      (putHeader m kind seq ack win dsize).read (13 + k) = dsize.extractLsb' (24 - 8 * k) 8 := by
  have hk : k = 0 ∨ k = 1 ∨ k = 2 ∨ k = 3 := by omega
  rcases hk with rfl | rfl | rfl | rfl <;> simp [putHeader, read_putBe32, beBytes]

/-- `be32` as a number: the first byte weighs most (R11). -/
theorem be32_eq_ofNat (m : Memory) (o : Nat) :
    be32 m o =
      BitVec.ofNat 32
        ((m.read o).toNat * 2 ^ 24 + (m.read (o + 1)).toNat * 2 ^ 16 + (m.read (o + 2)).toNat * 2 ^ 8 +
          (m.read (o + 3)).toNat) := by
  have a := (m.read o).isLt
  have b := (m.read (o + 1)).isLt
  have c := (m.read (o + 2)).isLt
  have d := (m.read (o + 3)).isLt
  have h (x : Nat) {y : Nat} (hy : y < 2 ^ 8) : x <<< 8 ||| y = x * 2 ^ 8 + y := by
    rw [← Nat.shiftLeft_add_eq_or_of_lt hy, Nat.shiftLeft_eq]
  apply BitVec.eq_of_toNat_eq
  simp only [be32, BitVec.toNat_append, BitVec.toNat_ofNat]
  rw [h _ b, h _ c, h _ d]
  omega

/-- `k ∈ CONTROL` (R13). -/
theorem isControl_iff (k : Byte) : isControl k = true ↔ k = kindSyn ∨ k = kindAck ∨ k = kindEot := by
  simp [isControl, or_assoc]

/-- `k ∈ KINDS` (R13). -/
theorem isKind_iff (k : Byte) : isKind k = true ↔ k = kindSyn ∨ k = kindAck ∨ k = kindEot ∨ k = kindData := by
  simp [isKind, isControl_iff, or_assoc]

/-- The register value of a word's number is the word. -/
@[simp] theorem toWord_toNat (v : Word) : toWord v.toNat = v := by simp [toWord]

/-- A natural below 2^32 is what its register holds (R9). -/
theorem toNat_toWord {n : Nat} (h : n < 2 ^ 32) : (toWord n).toNat = n := by
  simp only [toWord, BitVec.toNat_ofNat]
  exact Nat.mod_eq_of_lt h

/-- R64: the effective size never exceeds the payload capacity. -/
theorem effectiveSize_le_cap (c : Config) (len raw : Nat) : effectiveSize c len raw ≤ c.payloadCap := by
  unfold effectiveSize
  omega

/-- R64: the effective size is bounded by the wire data_size. -/
theorem effectiveSize_le_raw (c : Config) (len raw : Nat) : effectiveSize c len raw ≤ raw := Nat.min_le_left _ _

end Sys2Proof.Machine
end

