-- ==== Sys2Proof/Laws/Decode.lean ====
section
/-! SUPPORT. The laws of the command-word decoder: its two fields as numbers, and what it does with every word, said once. -/

namespace Sys2Proof

theorem toNat_fieldRsv (w : Word) : (fieldRsv w).toNat = w.toNat / 256 := by
  have := w.isLt
  simp only [fieldRsv, BitVec.extractLsb'_toNat, Nat.shiftRight_eq_div_pow]
  omega

theorem toNat_fieldOp (w : Word) : (fieldOp w).toNat = w.toNat % 256 := by
  simp [fieldOp]

/-- The opcode map and the encoder have the same 18 entries. -/
theorem decodeOpcode_eq_some {op : Byte} {i : Instr} (h : decodeOpcode op = some i) :
    op.toNat = (encode i).toNat := by
  unfold decodeOpcode at h
  split at h <;> (cases h; try assumption)

/-- The opcodes with no entry are the ones outside the four groups (R53). -/
theorem decodeOpcode_eq_none {op : Byte} (h : decodeOpcode op = none) :
    (0x02 ≤ op.toNat ∧ op.toNat ≤ 0x0F) ∨ (0x14 ≤ op.toNat ∧ op.toNat ≤ 0x1F) ∨
      (0x28 ≤ op.toNat ∧ op.toNat ≤ 0x2F) ∨ 0x34 ≤ op.toNat := by
  unfold decodeOpcode at h
  split at h
  case h_19 =>
    simp only [imp_false] at *
    omega
  all_goals cases h

@[simp] theorem decodeOpcode_fieldOp_encode (i : Instr) : decodeOpcode (fieldOp (encode i)) = some i := by
  cases i <;> rfl

theorem decode_ok {w : Word} {i : Instr} (h : decode w = .ok i) : w.toNat < 256 ∧ w.toNat = (encode i).toNat := by
  unfold decode at h
  split at h
  · cases h
  · rename_i hr
    simp only [ne_eq, not_not] at hr
    have h0 : w.toNat / 256 = 0 := by
      rw [← toNat_fieldRsv, hr]
      rfl
    split at h
    · rename_i j hj
      cases h
      have := decodeOpcode_eq_some hj
      rw [toNat_fieldOp] at this
      omega
    · cases h

theorem decode_error {w : Word} {e : DecodeError} (h : decode w = .error e) :
    256 ≤ w.toNat ∨ decodeOpcode (fieldOp w) = none := by
  unfold decode at h
  split at h
  · rename_i hr
    left
    have h0 : w.toNat / 256 ≠ 0 := by
      rw [← toNat_fieldRsv]
      intro h0
      exact hr (BitVec.eq_of_toNat_eq (by simpa using h0))
    omega
  · split at h
    · cases h
    · rename_i hj
      exact .inr hj

end Sys2Proof
end

