-- ==== Sys2Proof/Laws/Exec.lean ====
section
/-! SUPPORT. One inversion lemma per command: if it answers `next t`, one of these cases holds. It says everything the command
can do, guards included, so that no later proof unfolds a meaning. -/

namespace Sys2Proof.Machine

theorem execNop_next {s t : State} (h : execNop s = .next t) : t = s.setResult .ok :=
  finish_inv h

theorem execReset_next {s t : State} (h : execReset s = .next t) :
    t = (((s.setWin Window.idle).setTmr Timers.clear).setRx { s.rx with flags := RxFlags.clear }).setResult .ok :=
  finish_inv h

theorem execEncode_next {s t : State} (h : execEncode s = .next t) :
    (isKind s.tx.kind = false ∧ t = s.setResult .badKind) ∨
      (isKind s.tx.kind = true ∧
        (s.cfg.payloadCap < s.tx.dsize.toNat ∨ (isControl s.tx.kind = true ∧ s.tx.dsize.toNat ≠ 0)) ∧
        t = s.setResult .badDsize) ∨
      (isKind s.tx.kind = true ∧ s.tx.dsize.toNat ≤ s.cfg.payloadCap ∧
        ¬ (isControl s.tx.kind = true ∧ s.tx.dsize.toNat ≠ 0) ∧
        t = ((s.setTxm (encodeImage s.cfg s.txm s.tx.kind s.tx.seq s.tx.ack s.tx.win s.tx.dsize)).setTx
          { s.tx with len := toWord s.cfg.pktBudget }).setResult .ok) := by
  unfold execEncode at h
  split at h
  · rename_i h1
    exact .inl ⟨h1, finish_inv h⟩
  · rename_i h1
    simp only [Bool.not_eq_false] at h1
    split at h
    · rename_i h2
      exact .inr (.inl ⟨h1, .inl h2, finish_inv h⟩)
    · split at h
      · rename_i h3
        exact .inr (.inl ⟨h1, .inr h3, finish_inv h⟩)
      · rename_i h3
        exact .inr (.inr ⟨h1, by omega, h3, finish_inv h⟩)

theorem execEncodeFrame_next {s t : State} (h : execEncodeFrame s = .next t) :
    (s.win.role ≠ .send ∧ t = s.setResult .role) ∨
      (s.win.role = .send ∧ (s.cfg.payloadCap < s.argNum1 ∨ s.win.len < s.argNum0 + s.argNum1) ∧
        t = s.setResult .range) ∨
      (s.win.role = .send ∧ s.argNum1 ≤ s.cfg.payloadCap ∧ s.argNum0 + s.argNum1 ≤ s.win.len ∧
        t = ((s.setTxm (frameImage s.cfg s.txm s.buf s.argNum0 s.argNum1)).setTx
          { kind := kindData, seq := s.arg0, ack := 0#32, win := 0#32, dsize := s.arg1,
            len := toWord s.cfg.pktBudget }).setResult .ok) := by
  unfold execEncodeFrame at h
  split at h
  · rename_i h1
    exact .inl ⟨h1, finish_inv h⟩
  · rename_i h1
    simp only [ne_eq, not_not] at h1
    split at h
    · rename_i h2
      exact .inr (.inl ⟨h1, h2, finish_inv h⟩)
    · rename_i h2
      exact .inr (.inr ⟨h1, by omega, by omega, finish_inv h⟩)

theorem execEncodeAck_next {s t : State} (h : execEncodeAck s = .next t) :
    t = ((s.setTxm (encodeImage s.cfg s.txm kindAck 0#32 s.arg0 (toWord s.cfg.recvWindow) 0#32)).setTx
      { kind := kindAck, seq := 0#32, ack := s.arg0, win := toWord s.cfg.recvWindow, dsize := 0#32,
        len := toWord s.cfg.pktBudget }).setResult .ok :=
  finish_inv h

theorem execDecode_next {s t : State} (h : execDecode s = .next t) :
    (s.rx.len.toNat < Config.hdrSize ∧ t = (s.setRx { s.rx with flags := RxFlags.clear }).setResult .malformed) ∨
      (Config.hdrSize ≤ s.rx.len.toNat ∧
        t = ((s.setRx (decodedRx s (be32 s.rxm 13))).setRxm
          (s.rxm.zero (Config.hdrSize + effectiveSize s.cfg s.rx.len.toNat (be32 s.rxm 13).toNat)
            s.cfg.pktBudget)).setResult .ok) := by
  unfold execDecode at h
  split at h
  · rename_i h1
    exact .inl ⟨h1, finish_inv h⟩
  · exact .inr ⟨by omega, finish_inv h⟩

theorem execWinLoad_next {s t : State} (h : execWinLoad s = .next t) :
    (s.win.role ≠ .none ∧ t = s.setResult .role) ∨
      (s.win.role = .none ∧ s.cfg.bufCap < s.argNum0 ∧ t = s.setResult .tooBig) ∨
      (s.win.role = .none ∧ s.argNum0 ≤ s.cfg.bufCap ∧ t = (s.setWin (Window.loaded s.argNum0)).setResult .ok) := by
  unfold execWinLoad at h
  split at h
  · rename_i h1
    exact .inl ⟨h1, finish_inv h⟩
  · rename_i h1
    simp only [ne_eq, not_not] at h1
    split at h
    · rename_i h2
      exact .inr (.inl ⟨h1, h2, finish_inv h⟩)
    · exact .inr (.inr ⟨h1, by omega, finish_inv h⟩)

theorem execWinRecvInit_next {s t : State} (h : execWinRecvInit s = .next t) :
    (s.win.role ≠ .none ∧ t = s.setResult .role) ∨
      (s.win.role = .none ∧ t = (s.setWin (Window.receiving s.cfg.recvWindow)).setResult .ok) := by
  unfold execWinRecvInit at h
  split at h
  · rename_i h1
    exact .inl ⟨h1, finish_inv h⟩
  · rename_i h1
    simp only [ne_eq, not_not] at h1
    exact .inr ⟨h1, finish_inv h⟩

theorem execWinSetwin_next {s t : State} (h : execWinSetwin s = .next t) :
    (s.win.role ≠ .send ∧ t = s.setResult .role) ∨
      (s.win.role = .send ∧ s.argNum0 < s.win.outstanding ∧ t = s.setResult .winTooSmall) ∨
      (s.win.role = .send ∧ s.win.outstanding ≤ s.argNum0 ∧
        t = (s.setWin { s.win with win := s.argNum0 }).setResult .ok) := by
  unfold execWinSetwin at h
  split at h
  · rename_i h1
    exact .inl ⟨h1, finish_inv h⟩
  · rename_i h1
    simp only [ne_eq, not_not] at h1
    split at h
    · rename_i h2
      exact .inr (.inl ⟨h1, h2, finish_inv h⟩)
    · exact .inr (.inr ⟨h1, by omega, finish_inv h⟩)

/-- What NO_FRAME leaves: RES0 the pointer, RES1 the reason (R71). -/
theorem noFrame_next {r : Nat} {s t : State} (h : noFrame r s = .next t) :
    t = (s.setRes (toWord s.win.pointer) (toWord r)).setResult .noFrame :=
  finish_inv h

theorem execWinNext_next {s t : State} (h : execWinNext s = .next t) :
    (s.win.role ≠ .send ∧ t = s.setResult .role) ∨
      (s.win.role = .send ∧ s.win.pointer = s.win.len ∧
        t = (s.setRes (toWord s.win.pointer) (toWord 0)).setResult .noFrame) ∨
      (s.win.role = .send ∧ s.win.pointer ≠ s.win.len ∧ s.win.limit ≤ s.win.pointer ∧
        t = (s.setRes (toWord s.win.pointer) (toWord 1)).setResult .noFrame) ∨
      (s.win.role = .send ∧ s.win.pointer ≠ s.win.len ∧ s.win.pointer < s.win.limit ∧
        s.win.fifo.length = s.cfg.fifoDepth ∧
        t = (s.setRes (toWord s.win.pointer) (toWord 2)).setResult .noFrame) ∨
      (s.win.role = .send ∧ s.win.pointer ≠ s.win.len ∧ s.win.pointer < s.win.limit ∧
        s.win.fifo.length ≠ s.cfg.fifoDepth ∧
        t = ((s.setWin (s.win.framed (s.win.nextLen s.cfg.payloadCap))).setRes (toWord s.win.pointer)
          (toWord (s.win.nextLen s.cfg.payloadCap))).setResult .ok) := by
  unfold execWinNext at h
  split at h
  · rename_i h1
    exact .inl ⟨h1, finish_inv h⟩
  · rename_i h1
    simp only [ne_eq, not_not] at h1
    split at h
    · rename_i h2
      exact .inr (.inl ⟨h1, h2, noFrame_next h⟩)
    · rename_i h2
      split at h
      · rename_i h3
        exact .inr (.inr (.inl ⟨h1, h2, h3, noFrame_next h⟩))
      · rename_i h3
        split at h
        · rename_i h4
          exact .inr (.inr (.inr (.inl ⟨h1, h2, by omega, h4, noFrame_next h⟩)))
        · rename_i h4
          exact .inr (.inr (.inr (.inr ⟨h1, h2, by omega, h4, finish_inv h⟩)))

theorem execWinPendRead_next {s t : State} (h : execWinPendRead s = .next t) :
    (s.win.role ≠ .send ∧ t = s.setResult .role) ∨
      (s.win.role = .send ∧ s.win.fifo[s.argNum0]? = none ∧ t = s.setResult .range) ∨
      (∃ f, s.win.role = .send ∧ s.win.fifo[s.argNum0]? = some f ∧
        t = (s.setRes (toWord f.seq) (toWord f.flen)).setResult .ok) := by
  unfold execWinPendRead at h
  split at h
  · rename_i h1
    exact .inl ⟨h1, finish_inv h⟩
  · rename_i h1
    simp only [ne_eq, not_not] at h1
    split at h
    · rename_i h2
      exact .inr (.inl ⟨h1, h2, finish_inv h⟩)
    · rename_i f h2
      exact .inr (.inr ⟨f, h1, h2, finish_inv h⟩)

theorem execWinAck_next {s t : State} (h : execWinAck s = .next t) :
    (s.win.role ≠ .send ∧ t = s.setResult .role) ∨
      (s.win.role = .send ∧ ¬ (s.win.head < s.argNum0 ∧ s.argNum0 ≤ s.win.pointer) ∧ t = s.setResult .ackRejected) ∨
      (s.win.role = .send ∧ s.win.head < s.argNum0 ∧ s.argNum0 ≤ s.win.pointer ∧
        t = ((s.setWin (s.win.acknowledged s.argNum0)).setRes s.arg0
          (toWord (Window.ackFifo s.win.fifo s.argNum0).length)).setResult .ok) := by
  unfold execWinAck at h
  split at h
  · rename_i h1
    exact .inl ⟨h1, finish_inv h⟩
  · rename_i h1
    simp only [ne_eq, not_not] at h1
    split at h
    · rename_i h2
      refine .inr (.inr ⟨h1, h2.1, h2.2, ?_⟩)
      have := finish_inv h
      rw [this]
      simp [Window.acknowledged, State.argNum0]
    · rename_i h2
      exact .inr (.inl ⟨h1, h2, finish_inv h⟩)

theorem execWinAccept_next {s t : State} (h : execWinAccept s = .next t) :
    (s.win.role ≠ .recv ∧ t = s.setResult .role) ∨
      (s.win.role = .recv ∧ s.rx.flags.valid = false ∧ t = s.setResult .noPacket) ∨
      (s.win.role = .recv ∧ s.rx.flags.valid = true ∧ s.rx.kind ≠ kindData ∧ t = s.setResult .notData) ∨
      (s.win.role = .recv ∧ s.rx.flags.valid = true ∧ s.rx.kind = kindData ∧ s.rx.seq.toNat ≠ s.win.pointer ∧
        t = (s.setRes0 (toWord s.win.pointer)).setResult .outOfOrder) ∨
      (s.win.role = .recv ∧ s.rx.flags.valid = true ∧ s.rx.kind = kindData ∧ s.rx.seq.toNat = s.win.pointer ∧
        (s.win.head + s.win.win < s.win.pointer + s.rx.dsize.toNat ∨ s.cfg.bufCap < s.win.pointer + s.rx.dsize.toNat) ∧
        t = (s.setRes0 (toWord s.win.pointer)).setResult .overflow) ∨
      (s.win.role = .recv ∧ s.rx.flags.valid = true ∧ s.rx.kind = kindData ∧ s.rx.seq.toNat = s.win.pointer ∧
        s.win.pointer + s.rx.dsize.toNat ≤ s.win.head + s.win.win ∧ s.win.pointer + s.rx.dsize.toNat ≤ s.cfg.bufCap ∧
        t = (((s.setBuf (s.buf.copy s.win.pointer s.rxm Config.hdrSize s.rx.dsize.toNat)).setWin
          (s.win.appended s.rx.dsize.toNat)).setRes (toWord (s.win.pointer + s.rx.dsize.toNat))
          s.rx.dsize).setResult .ok) := by
  unfold execWinAccept at h
  simp only at h
  split at h
  · rename_i h1
    exact .inl ⟨h1, finish_inv h⟩
  · rename_i h1
    simp only [ne_eq, not_not] at h1
    split at h
    · rename_i h2
      exact .inr (.inl ⟨h1, h2, finish_inv h⟩)
    · rename_i h2
      simp only [Bool.not_eq_false] at h2
      split at h
      · rename_i h3
        exact .inr (.inr (.inl ⟨h1, h2, h3, finish_inv h⟩))
      · rename_i h3
        simp only [ne_eq, not_not] at h3
        split at h
        · rename_i h4
          exact .inr (.inr (.inr (.inl ⟨h1, h2, h3, h4, finish_inv h⟩)))
        · rename_i h4
          simp only [ne_eq, not_not] at h4
          split at h
          · rename_i h5
            exact .inr (.inr (.inr (.inr (.inl ⟨h1, h2, h3, h4, h5, finish_inv h⟩))))
          · rename_i h5
            refine .inr (.inr (.inr (.inr (.inr ⟨h1, h2, h3, h4, by omega, by omega, ?_⟩))))
            have := finish_inv h
            rw [this]
            simp

theorem execWinDrain_next {s t : State} (h : execWinDrain s = .next t) :
    (s.win.role ≠ .recv ∧ t = s.setResult .role) ∨
      (s.win.role = .recv ∧
        t = ((s.setWin { s.win with head := s.win.pointer }).setRes (toWord s.win.head)
          (toWord s.win.outstanding)).setResult .ok) := by
  unfold execWinDrain at h
  split at h
  · rename_i h1
    exact .inl ⟨h1, finish_inv h⟩
  · rename_i h1
    simp only [ne_eq, not_not] at h1
    exact .inr ⟨h1, finish_inv h⟩

theorem execTmrRestartRx_next {s t : State} (h : execTmrRestartRx s = .next t) :
    t = (s.setTmr (s.tmr.restartRx s.cfg.rxTmo)).setResult .ok :=
  finish_inv h

theorem execTmrRestartIdle_next {s t : State} (h : execTmrRestartIdle s = .next t) :
    t = (s.setTmr (s.tmr.restartIdle s.cfg.idleTmo)).setResult .ok :=
  finish_inv h

theorem execTmrClear_next {s t : State} (h : execTmrClear s = .next t) :
    t = (s.setTmr Timers.clear).setResult .ok :=
  finish_inv h

theorem execTmrPoll_next {s t : State} (h : execTmrPoll s = .next t) :
    t = (s.setRes (toWord s.tmr.verdict) (toWord s.tmr.rawBits)).setResult .ok :=
  finish_inv h

theorem execIllegal_next {s t : State} (h : execIllegal s = .next t) : t = s.setResult .illegal :=
  finish_inv h

end Sys2Proof.Machine
end

