-- ==== Sys2Proof/Laws/Effect.lean ====
section
/-! SUPPORT. What a command can do, said once for all 18 of them: `exec_effect` is the one inversion lemma of `exec`, and a
whole-machine rule is a case split over `Effect`. -/

namespace Sys2Proof.Machine

/-- The role a command tests first, where it tests one (R62, R67). -/
def needs : Instr → Option Role
  | .winLoad | .winRecvInit => some .none
  | .winSetwin | .winNext | .winPendRead | .winAck | .encodeFrame => some .send
  | .winAccept | .winDrain => some .recv
  | .nop | .reset | .encode | .encodeAck | .decode | .tmrRestartRx | .tmrRestartIdle | .tmrClear | .tmrPoll => none

/-- `Effect s i t`: command `i` may take the state `s` to `t`; one constructor per outcome, with its guards. -/
inductive Effect (s : State) : Instr → State → Prop
  | wrongRole (i : Instr) (r : Role) (hneed : needs i = some r) (hrole : s.win.role ≠ r) :
      Effect s i (s.setResult .role)
  | nop : Effect s .nop (s.setResult .ok)
  | reset :
      Effect s .reset
        ((((s.setWin Window.idle).setTmr Timers.clear).setRx { s.rx with flags := RxFlags.clear }).setResult .ok)
  | badKind (hk : isKind s.tx.kind = false) : Effect s .encode (s.setResult .badKind)
  | badDsize (hk : isKind s.tx.kind = true)
      (hd : s.cfg.payloadCap < s.tx.dsize.toNat ∨ (isControl s.tx.kind = true ∧ s.tx.dsize.toNat ≠ 0)) :
      Effect s .encode (s.setResult .badDsize)
  | encode (hk : isKind s.tx.kind = true) (hd : s.tx.dsize.toNat ≤ s.cfg.payloadCap)
      (hc : ¬ (isControl s.tx.kind = true ∧ s.tx.dsize.toNat ≠ 0)) :
      Effect s .encode
        (((s.setTxm (encodeImage s.cfg s.txm s.tx.kind s.tx.seq s.tx.ack s.tx.win s.tx.dsize)).setTx
          { s.tx with len := toWord s.cfg.pktBudget }).setResult .ok)
  | frameRange (hr : s.win.role = .send) (hd : s.cfg.payloadCap < s.argNum1 ∨ s.win.len < s.argNum0 + s.argNum1) :
      Effect s .encodeFrame (s.setResult .range)
  | encodeFrame (hr : s.win.role = .send) (hn : s.argNum1 ≤ s.cfg.payloadCap) (hl : s.argNum0 + s.argNum1 ≤ s.win.len) :
      Effect s .encodeFrame
        (((s.setTxm (frameImage s.cfg s.txm s.buf s.argNum0 s.argNum1)).setTx
          { kind := kindData, seq := s.arg0, ack := 0#32, win := 0#32, dsize := s.arg1,
            len := toWord s.cfg.pktBudget }).setResult .ok)
  | encodeAck :
      Effect s .encodeAck
        (((s.setTxm (encodeImage s.cfg s.txm kindAck 0#32 s.arg0 (toWord s.cfg.recvWindow) 0#32)).setTx
          { kind := kindAck, seq := 0#32, ack := s.arg0, win := toWord s.cfg.recvWindow, dsize := 0#32,
            len := toWord s.cfg.pktBudget }).setResult .ok)
  | malformed (hl : s.rx.len.toNat < Config.hdrSize) :
      Effect s .decode ((s.setRx { s.rx with flags := RxFlags.clear }).setResult .malformed)
  | decode (hl : Config.hdrSize ≤ s.rx.len.toNat) :
      Effect s .decode
        (((s.setRx (decodedRx s (be32 s.rxm 13))).setRxm
          (s.rxm.zero (Config.hdrSize + effectiveSize s.cfg s.rx.len.toNat (be32 s.rxm 13).toNat)
            s.cfg.pktBudget)).setResult .ok)
  | tooBig (hr : s.win.role = .none) (hn : s.cfg.bufCap < s.argNum0) : Effect s .winLoad (s.setResult .tooBig)
  | winLoad (hr : s.win.role = .none) (hn : s.argNum0 ≤ s.cfg.bufCap) :
      Effect s .winLoad ((s.setWin (Window.loaded s.argNum0)).setResult .ok)
  | winRecvInit (hr : s.win.role = .none) :
      Effect s .winRecvInit ((s.setWin (Window.receiving s.cfg.recvWindow)).setResult .ok)
  | winTooSmall (hr : s.win.role = .send) (hn : s.argNum0 < s.win.outstanding) :
      Effect s .winSetwin (s.setResult .winTooSmall)
  | winSetwin (hr : s.win.role = .send) (hn : s.win.outstanding ≤ s.argNum0) :
      Effect s .winSetwin ((s.setWin { s.win with win := s.argNum0 }).setResult .ok)
  | bufferEnd (hr : s.win.role = .send) (hp : s.win.pointer = s.win.len) :
      Effect s .winNext ((s.setRes (toWord s.win.pointer) (toWord 0)).setResult .noFrame)
  | windowCeiling (hr : s.win.role = .send) (hp : s.win.pointer ≠ s.win.len) (hl : s.win.limit ≤ s.win.pointer) :
      Effect s .winNext ((s.setRes (toWord s.win.pointer) (toWord 1)).setResult .noFrame)
  | fifoFull (hr : s.win.role = .send) (hp : s.win.pointer ≠ s.win.len) (hl : s.win.pointer < s.win.limit)
      (hf : s.win.fifo.length = s.cfg.fifoDepth) :
      Effect s .winNext ((s.setRes (toWord s.win.pointer) (toWord 2)).setResult .noFrame)
  | winNext (hr : s.win.role = .send) (hp : s.win.pointer ≠ s.win.len) (hl : s.win.pointer < s.win.limit)
      (hf : s.win.fifo.length ≠ s.cfg.fifoDepth) :
      Effect s .winNext
        (((s.setWin (s.win.framed (s.win.nextLen s.cfg.payloadCap))).setRes (toWord s.win.pointer)
          (toWord (s.win.nextLen s.cfg.payloadCap))).setResult .ok)
  | pendRange (hr : s.win.role = .send) (hi : s.win.fifo[s.argNum0]? = none) : Effect s .winPendRead (s.setResult .range)
  | winPendRead (f : Frame) (hr : s.win.role = .send) (hi : s.win.fifo[s.argNum0]? = some f) :
      Effect s .winPendRead ((s.setRes (toWord f.seq) (toWord f.flen)).setResult .ok)
  | ackRejected (hr : s.win.role = .send) (ha : ¬ (s.win.head < s.argNum0 ∧ s.argNum0 ≤ s.win.pointer)) :
      Effect s .winAck (s.setResult .ackRejected)
  | winAck (hr : s.win.role = .send) (hlo : s.win.head < s.argNum0) (hhi : s.argNum0 ≤ s.win.pointer) :
      Effect s .winAck
        (((s.setWin (s.win.acknowledged s.argNum0)).setRes s.arg0
          (toWord (Window.ackFifo s.win.fifo s.argNum0).length)).setResult .ok)
  | noPacket (hr : s.win.role = .recv) (hv : s.rx.flags.valid = false) : Effect s .winAccept (s.setResult .noPacket)
  | notData (hr : s.win.role = .recv) (hv : s.rx.flags.valid = true) (hk : s.rx.kind ≠ kindData) :
      Effect s .winAccept (s.setResult .notData)
  | outOfOrder (hr : s.win.role = .recv) (hv : s.rx.flags.valid = true) (hk : s.rx.kind = kindData)
      (hs : s.rx.seq.toNat ≠ s.win.pointer) :
      Effect s .winAccept ((s.setRes0 (toWord s.win.pointer)).setResult .outOfOrder)
  | overflow (hr : s.win.role = .recv) (hv : s.rx.flags.valid = true) (hk : s.rx.kind = kindData)
      (hs : s.rx.seq.toNat = s.win.pointer)
      (ho : s.win.head + s.win.win < s.win.pointer + s.rx.dsize.toNat ∨
        s.cfg.bufCap < s.win.pointer + s.rx.dsize.toNat) :
      Effect s .winAccept ((s.setRes0 (toWord s.win.pointer)).setResult .overflow)
  | winAccept (hr : s.win.role = .recv) (hv : s.rx.flags.valid = true) (hk : s.rx.kind = kindData)
      (hs : s.rx.seq.toNat = s.win.pointer) (hw : s.win.pointer + s.rx.dsize.toNat ≤ s.win.head + s.win.win)
      (hc : s.win.pointer + s.rx.dsize.toNat ≤ s.cfg.bufCap) :
      Effect s .winAccept
        ((((s.setBuf (s.buf.copy s.win.pointer s.rxm Config.hdrSize s.rx.dsize.toNat)).setWin
          (s.win.appended s.rx.dsize.toNat)).setRes (toWord (s.win.pointer + s.rx.dsize.toNat))
          s.rx.dsize).setResult .ok)
  | winDrain (hr : s.win.role = .recv) :
      Effect s .winDrain
        (((s.setWin { s.win with head := s.win.pointer }).setRes (toWord s.win.head)
          (toWord s.win.outstanding)).setResult .ok)
  | tmrRestartRx : Effect s .tmrRestartRx ((s.setTmr (s.tmr.restartRx s.cfg.rxTmo)).setResult .ok)
  | tmrRestartIdle : Effect s .tmrRestartIdle ((s.setTmr (s.tmr.restartIdle s.cfg.idleTmo)).setResult .ok)
  | tmrClear : Effect s .tmrClear ((s.setTmr Timers.clear).setResult .ok)
  | tmrPoll : Effect s .tmrPoll ((s.setRes (toWord s.tmr.verdict) (toWord s.tmr.rawBits)).setResult .ok)

/-- The one inversion lemma of `exec`. -/
theorem exec_effect {i : Instr} {s t : State} (h : exec i s = .next t) : Effect s i t := by
  cases i with
  | nop =>
    rw [execNop_next h]
    exact .nop
  | reset =>
    rw [execReset_next h]
    exact .reset
  | encode =>
    rcases execEncode_next h with ⟨h1, rfl⟩ | ⟨h1, h2, rfl⟩ | ⟨h1, h2, h3, rfl⟩
    · exact .badKind h1
    · exact .badDsize h1 h2
    · exact .encode h1 h2 h3
  | encodeFrame =>
    rcases execEncodeFrame_next h with ⟨h1, rfl⟩ | ⟨h1, h2, rfl⟩ | ⟨h1, h2, h3, rfl⟩
    · exact .wrongRole _ _ rfl h1
    · exact .frameRange h1 h2
    · exact .encodeFrame h1 h2 h3
  | encodeAck =>
    rw [execEncodeAck_next h]
    exact .encodeAck
  | decode =>
    rcases execDecode_next h with ⟨h1, rfl⟩ | ⟨h1, rfl⟩
    · exact .malformed h1
    · exact .decode h1
  | winLoad =>
    rcases execWinLoad_next h with ⟨h1, rfl⟩ | ⟨h1, h2, rfl⟩ | ⟨h1, h2, rfl⟩
    · exact .wrongRole _ _ rfl h1
    · exact .tooBig h1 h2
    · exact .winLoad h1 h2
  | winRecvInit =>
    rcases execWinRecvInit_next h with ⟨h1, rfl⟩ | ⟨h1, rfl⟩
    · exact .wrongRole _ _ rfl h1
    · exact .winRecvInit h1
  | winSetwin =>
    rcases execWinSetwin_next h with ⟨h1, rfl⟩ | ⟨h1, h2, rfl⟩ | ⟨h1, h2, rfl⟩
    · exact .wrongRole _ _ rfl h1
    · exact .winTooSmall h1 h2
    · exact .winSetwin h1 h2
  | winNext =>
    rcases execWinNext_next h with
      ⟨h1, rfl⟩ | ⟨h1, h2, rfl⟩ | ⟨h1, h2, h3, rfl⟩ | ⟨h1, h2, h3, h4, rfl⟩ | ⟨h1, h2, h3, h4, rfl⟩
    · exact .wrongRole _ _ rfl h1
    · exact .bufferEnd h1 h2
    · exact .windowCeiling h1 h2 h3
    · exact .fifoFull h1 h2 h3 h4
    · exact .winNext h1 h2 h3 h4
  | winPendRead =>
    rcases execWinPendRead_next h with ⟨h1, rfl⟩ | ⟨h1, h2, rfl⟩ | ⟨f, h1, h2, rfl⟩
    · exact .wrongRole _ _ rfl h1
    · exact .pendRange h1 h2
    · exact .winPendRead f h1 h2
  | winAck =>
    rcases execWinAck_next h with ⟨h1, rfl⟩ | ⟨h1, h2, rfl⟩ | ⟨h1, h2, h3, rfl⟩
    · exact .wrongRole _ _ rfl h1
    · exact .ackRejected h1 h2
    · exact .winAck h1 h2 h3
  | winAccept =>
    rcases execWinAccept_next h with
      ⟨h1, rfl⟩ | ⟨h1, h2, rfl⟩ | ⟨h1, h2, h3, rfl⟩ | ⟨h1, h2, h3, h4, rfl⟩ | ⟨h1, h2, h3, h4, h5, rfl⟩ |
        ⟨h1, h2, h3, h4, h5, h6, rfl⟩
    · exact .wrongRole _ _ rfl h1
    · exact .noPacket h1 h2
    · exact .notData h1 h2 h3
    · exact .outOfOrder h1 h2 h3 h4
    · exact .overflow h1 h2 h3 h4 h5
    · exact .winAccept h1 h2 h3 h4 h5 h6
  | winDrain =>
    rcases execWinDrain_next h with ⟨h1, rfl⟩ | ⟨h1, rfl⟩
    · exact .wrongRole _ _ rfl h1
    · exact .winDrain h1
  | tmrRestartRx =>
    rw [execTmrRestartRx_next h]
    exact .tmrRestartRx
  | tmrRestartIdle =>
    rw [execTmrRestartIdle_next h]
    exact .tmrRestartIdle
  | tmrClear =>
    rw [execTmrClear_next h]
    exact .tmrClear
  | tmrPoll =>
    rw [execTmrPoll_next h]
    exact .tmrPoll

/-- No command changes the instance (R20). -/
theorem Effect.cfg_eq {i : Instr} {s t : State} (h : Effect s i t) : t.cfg = s.cfg := by
  cases h <;> simp

/-- Only DECODE and RESET change RX_FLAGS (R27). -/
theorem Effect.flags_eq {i : Instr} {s t : State} (h : Effect s i t) :
    t.rx.flags = s.rx.flags ∨ i = .decode ∨ i = .reset := by
  cases h <;> simp

end Sys2Proof.Machine
end

