-- ==== Sys2Proof/Laws/Flags.lean ====
section
/-! SUPPORT. The words the block builds from flags and codes (R22, R27, R33), bit by bit and field by field, and what each
live view says in terms of the state. -/

namespace Sys2Proof.Machine

theorem getLsbD_fieldAt {w : Nat} (n : Nat) (v : BitVec w) (i : Nat) :
    (fieldAt n v).getLsbD i = (decide (i < 32) && decide (n ≤ i) && v.getLsbD (i - n)) := by
  simp only [fieldAt, BitVec.getLsbD_shiftLeft, BitVec.getLsbD_setWidth]
  by_cases h1 : i < 32
  · have h3 : i - n < 32 := by omega
    by_cases h2 : i < n
    · have h4 : ¬ n ≤ i := by omega
      simp [h1, h2, h4]
    · have h4 : n ≤ i := by omega
      simp [h1, h2, h3, h4]
  · simp [h1]

theorem getLsbD_bitAt (n : Nat) (b : Bool) (i : Nat) :
    (bitAt n b).getLsbD i = (decide (i < 32) && decide (i = n) && b) := by
  simp only [bitAt, getLsbD_fieldAt, BitVec.getLsbD_ofBool]
  by_cases h3 : i = n
  · simp [h3]
  · have h4 : n ≤ i → i - n ≠ 0 := by omega
    by_cases h2 : n ≤ i
    · simp [h3, h4 h2]
    · simp [h2, h3]

@[simp] theorem fieldAt_zero {w : Nat} (n : Nat) : fieldAt n (0#w) = 0#32 := by simp [fieldAt]

@[simp] theorem bitAt_false (n : Nat) : bitAt n false = 0#32 := fieldAt_zero n

/-- RX_TO (R83). -/
theorem Timers.rxTimedOut_iff (t : Timers) : t.rxTimedOut = true ↔ t.rxArmed = true ∧ t.rxCount = 0 := by
  simp [Timers.rxTimedOut]

/-- IDLE_TO (R83). -/
theorem Timers.idleTimedOut_iff (t : Timers) : t.idleTimedOut = true ↔ t.idleArmed = true ∧ t.idleCount = 0 := by
  simp [Timers.idleTimedOut]

theorem State.complete_iff (s : State) : s.complete = true ↔ s.win.endState = .acked := by simp [State.complete]

theorem State.irq_iff (s : State) :
    s.irq = true ↔ s.tmoIe = true ∧ (s.tmr.rxTimedOut = true ∨ s.tmr.idleTimedOut = true) := by
  simp [State.irq]

/-- Every field of STATUS, by bit (R22). -/
theorem State.getLsbD_status (s : State) (i : Nat) :
    s.status.getLsbD i =
      (decide (i < 32) &&
        ((decide (8 ≤ i) && s.result.code.getLsbD (i - 8)) || (decide (i = 16) && s.complete) ||
          (decide (i = 17) && s.tmr.rxTimedOut) || (decide (i = 18) && s.tmr.idleTimedOut) ||
          (decide (i = 19) && s.rx.flags.valid) || (decide (20 ≤ i) && s.win.role.code.getLsbD (i - 20)) ||
          (decide (22 ≤ i) && s.win.endState.code.getLsbD (i - 22)) || (decide (i = 24) && s.irq))) := by
  simp only [State.status, BitVec.getLsbD_or, getLsbD_fieldAt, getLsbD_bitAt]
  cases decide (i < 32) <;> simp

theorem RxFlags.getLsbD_word (f : RxFlags) (i : Nat) :
    f.word.getLsbD i =
      ((decide (i = 0) && f.valid) || (decide (i = 1) && f.badKind) || (decide (i = 2) && f.overCap) ||
        (decide (i = 3) && f.trunc) || (decide (i = 4) && f.ctrlPayload) || (decide (i = 5) && f.overLen)) := by
  simp only [RxFlags.word, BitVec.getLsbD_or, getLsbD_bitAt]
  by_cases h : i < 32
  · simp [h]
  · have : i ≠ 0 ∧ i ≠ 1 ∧ i ≠ 2 ∧ i ≠ 3 ∧ i ≠ 4 ∧ i ≠ 5 := by omega
    simp [h, this]

theorem RxFlags.word_clear : RxFlags.clear.word = 0#32 := rfl

theorem Timers.ctrlWord_clear : Timers.clear.ctrlWord = 0#32 := rfl

theorem RxFlags.toNat_word_lt (f : RxFlags) : f.word.toNat < 2 ^ 6 := by
  obtain ⟨a, b, c, d, e, g⟩ := f
  cases a <;> cases b <;> cases c <;> cases d <;> cases e <;> cases g <;> decide

end Sys2Proof.Machine
end

