-- ==== Sys2Proof/Laws/Sliding.lean ====
section
/-! SUPPORT. The laws of the sliding window: `Covers`, the acknowledgement of frames, and that each change a command makes to
the window keeps `Window.Good` (R32). -/

namespace Sys2Proof.Machine

theorem Covers.le {a b : Nat} {fs : List Frame} (h : Covers a b fs) : a ≤ b := by
  induction fs generalizing a with
  | nil => exact Nat.le_of_eq h
  | cons f fs ih =>
    have := ih h.2.2
    omega

theorem Covers.append {a b c : Nat} {fs gs : List Frame} (hf : Covers a b fs) (hg : Covers b c gs) :
    Covers a c (fs ++ gs) := by
  induction fs generalizing a with
  | nil =>
    have : a = b := hf
    simpa [this] using hg
  | cons f fs ih => exact ⟨hf.1, hf.2.1, ih hf.2.2⟩

theorem Covers.push {a b n : Nat} {fs : List Frame} (h : Covers a b fs) (hn : 0 < n) :
    Covers a (b + n) (fs ++ [⟨b, n⟩]) :=
  h.append ⟨rfl, hn, rfl⟩

/-- Every frame holds at least one byte, so there are at most as many frames as bytes. -/
theorem Covers.length_le {a b : Nat} {fs : List Frame} (h : Covers a b fs) : fs.length ≤ b - a := by
  induction fs generalizing a with
  | nil => simp
  | cons f fs ih =>
    have h1 := ih h.2.2
    have h2 := h.2.2.le
    have h3 := h.2.1
    simp only [List.length_cons]
    omega

theorem Covers.mem {a b : Nat} {fs : List Frame} (h : Covers a b fs) {f : Frame} (hf : f ∈ fs) :
    a ≤ f.seq ∧ 0 < f.flen ∧ f.seq + f.flen ≤ b := by
  induction fs generalizing a with
  | nil => simp at hf
  | cons g fs ih =>
    rcases List.mem_cons.mp hf with rfl | hf
    · have := h.2.2.le
      have h1 := h.1
      have h2 := h.2.1
      omega
    · have := ih h.2.2 hf
      have h2 := h.2.1
      omega

namespace Window

theorem ackFifo_nil (a : Nat) : ackFifo [] a = [] := rfl

/-- The fully acknowledged oldest frame is popped. -/
theorem ackFifo_pop {f : Frame} {fs : List Frame} {a : Nat} (h : f.seq + f.flen ≤ a) :
    ackFifo (f :: fs) a = ackFifo fs a := by
  simp [ackFifo, h]

/-- The acknowledgement lands inside the oldest frame, which is trimmed. -/
theorem ackFifo_trim {f : Frame} {fs : List Frame} {a : Nat} (h : a < f.seq + f.flen) (h' : f.seq < a) :
    ackFifo (f :: fs) a = ⟨a, f.seq + f.flen - a⟩ :: fs := by
  have : ¬ f.seq + f.flen ≤ a := by omega
  simp [ackFifo, this, h']

/-- The acknowledgement does not reach into the oldest frame. -/
theorem ackFifo_keep {f : Frame} {fs : List Frame} {a : Nat} (h : a < f.seq + f.flen) (h' : a ≤ f.seq) :
    ackFifo (f :: fs) a = f :: fs := by
  have h1 : ¬ f.seq + f.flen ≤ a := by omega
  have h2 : ¬ f.seq < a := by omega
  simp [ackFifo, h1, h2]

/-- R76: what stays outstanding after an acknowledgement covers [a, pointer) exactly (I3). -/
theorem covers_ackFifo {h p a : Nat} {fs : List Frame} (hc : Covers h p fs) (ha : h ≤ a) (hp : a ≤ p) :
    Covers a p (ackFifo fs a) := by
  induction fs generalizing h with
  | nil =>
    have : h = p := hc
    rw [ackFifo_nil]
    show a = p
    omega
  | cons f fs ih =>
    obtain ⟨hseq, hlen, hrest⟩ := hc
    by_cases h1 : f.seq + f.flen ≤ a
    · rw [ackFifo_pop h1]
      exact ih hrest (by omega)
    · by_cases h2 : f.seq < a
      · rw [ackFifo_trim (by omega) h2]
        refine ⟨rfl, by simp only; omega, ?_⟩
        have : a + (f.seq + f.flen - a) = h + f.flen := by omega
        simpa only [this] using hrest
      · rw [ackFifo_keep (by omega) (by omega)]
        have : a = h := by omega
        subst this
        exact ⟨hseq, hlen, hrest⟩

theorem length_ackFifo_le (fs : List Frame) (a : Nat) : (ackFifo fs a).length ≤ fs.length := by
  induction fs with
  | nil => simp [ackFifo_nil]
  | cons f fs ih =>
    by_cases h1 : f.seq + f.flen ≤ a
    · rw [ackFifo_pop h1]
      exact ih.trans (by simp)
    · by_cases h2 : f.seq < a
      · rw [ackFifo_trim (by omega) h2]
        simp
      · rw [ackFifo_keep (by omega) (by omega)]

/-- An acknowledgement makes no frame longer. -/
theorem flen_ackFifo_le {fs : List Frame} {a n : Nat} (h : ∀ f ∈ fs, f.flen ≤ n) : ∀ f ∈ ackFifo fs a, f.flen ≤ n := by
  induction fs with
  | nil => simp [ackFifo_nil]
  | cons f fs ih =>
    have hf : f.flen ≤ n := h f (by simp)
    have hfs : ∀ g ∈ fs, g.flen ≤ n := fun g hg => h g (by simp [hg])
    by_cases h1 : f.seq + f.flen ≤ a
    · rw [ackFifo_pop h1]
      exact ih hfs
    · by_cases h2 : f.seq < a
      · rw [ackFifo_trim (by omega) h2]
        intro g hg
        rcases List.mem_cons.mp hg with rfl | hg
        · simp only
          omega
        · exact hfs g hg
      · rw [ackFifo_keep (by omega) (by omega)]
        exact h

theorem nextLen_pos {w : Window} {cap : Nat} (hc : 0 < cap) (h : w.pointer < w.limit) : 0 < w.nextLen cap := by
  unfold nextLen
  omega

theorem nextLen_le_cap (w : Window) (cap : Nat) : w.nextLen cap ≤ cap := Nat.min_le_left _ _

theorem pointer_add_nextLen_le {w : Window} {cap : Nat} (h : w.pointer ≤ w.limit) :
    w.pointer + w.nextLen cap ≤ w.limit := by
  unfold nextLen
  omega

theorem limit_le_len (w : Window) : w.limit ≤ w.len := Nat.min_le_right _ _

theorem limit_le_ceiling (w : Window) : w.limit ≤ w.head + w.win := Nat.min_le_left _ _

/-- WIN_LOAD establishes R32. -/
theorem good_loaded {c : Config} {n : Nat} (h : n ≤ c.bufCap) : (loaded n).Good c where
  headLePointer := Nat.le_refl _
  pointerLeLen := Nat.zero_le _
  lenLeCap := h
  windowBound := by simp [loaded]
  winFits := by simp [loaded]
  endOffset := fun _ => rfl
  covers := fun _ => rfl
  frameBound := by simp [loaded]
  fifoBound := by simp [loaded]
  pending := by
    intro hp
    simp only [loaded] at hp
    split at hp <;> cases hp
  acked := by
    intro ha
    by_cases hn : n = 0
    · simp [loaded, hn]
    · simp [loaded, hn] at ha
  notSent := by
    intro hs _
    by_cases hn : n = 0
    · simp [loaded, hn] at hs
    · simp only [loaded]
      omega
  recv := by simp [loaded]
  idle := by simp [loaded]

/-- WIN_RECV_INIT establishes R32. -/
theorem good_receiving {c : Config} (h : c.recvWindow < 2 ^ 32) : (receiving c.recvWindow).Good c := by
  constructor <;> simp [receiving]
  exact h

/-- RESET and hardware reset establish R32. -/
theorem good_idle (c : Config) : Window.idle.Good c := by
  constructor <;> simp [Window.idle]

/-- WIN_SETWIN keeps R32. -/
theorem Good.setwin {c : Config} {w : Window} {n : Nat} (g : w.Good c) (hr : w.role = .send) (ho : w.outstanding ≤ n)
    (hn : n < 2 ^ 32) : ({ w with win := n } : Window).Good c :=
  { g with
    windowBound := ho
    winFits := hn
    recv := by simp [hr]
    idle := by simp [hr] }

/-- WIN_NEXT keeps R32. -/
theorem Good.framed {c : Config} {w : Window} {n : Nat} (g : w.Good c) (hr : w.role = .send) (hpos : 0 < n)
    (hcap : n ≤ c.payloadCap) (hlim : w.pointer + n ≤ w.limit) (hfifo : w.fifo.length < c.fifoDepth) :
    (w.framed n).Good c := by
  have h1 := w.limit_le_len
  have h2 := w.limit_le_ceiling
  have h3 := g.headLePointer
  have hns : w.endState = .notSent := by
    cases he : w.endState with
    | notSent => rfl
    | pending =>
      have := g.pending he
      omega
    | acked =>
      have := g.acked he
      omega
  exact
    { headLePointer := by simp only [Window.framed]; omega
      pointerLeLen := by simp only [Window.framed]; omega
      lenLeCap := g.lenLeCap
      windowBound := by simp only [Window.framed]; omega
      winFits := g.winFits
      endOffset := by
        intro hs
        by_cases he : w.pointer + n = w.len
        · simp [Window.framed, he] at hs
        · simp [Window.framed, he, g.endOffset hns]
      covers := fun _ => (g.covers hr).push hpos
      frameBound := by
        intro f hf
        rcases List.mem_append.mp hf with hf | hf
        · exact g.frameBound f hf
        · rw [List.mem_singleton.mp hf]
          exact hcap
      fifoBound := by
        simp only [Window.framed, List.length_append, List.length_singleton]
        omega
      pending := by
        intro hp
        by_cases he : w.pointer + n = w.len
        · refine ⟨hr, he, ?_, ?_⟩ <;> simp only [Window.framed, if_pos he]
          omega
        · simp [Window.framed, he, hns] at hp
      acked := by
        intro ha
        by_cases he : w.pointer + n = w.len <;> simp [Window.framed, he, hns] at ha
      notSent := by
        intro hs _
        by_cases he : w.pointer + n = w.len
        · simp [Window.framed, he] at hs
        · simp only [Window.framed]
          omega
      recv := by simp [Window.framed, hr]
      idle := by simp [Window.framed, hr] }

/-- An accepted WIN_ACK keeps R32. -/
theorem Good.acknowledged {c : Config} {w : Window} {a : Nat} (g : w.Good c) (hr : w.role = .send) (hlo : w.head < a)
    (hhi : a ≤ w.pointer) : (w.acknowledged a).Good c := by
  have h1 := g.pointerLeLen
  have h2 := g.windowBound
  exact
    { headLePointer := hhi
      pointerLeLen := h1
      lenLeCap := g.lenLeCap
      windowBound := by
        show w.pointer - a ≤ w.win
        omega
      winFits := g.winFits
      endOffset := by
        intro hs
        simp only [Window.acknowledged] at hs ⊢
        split at hs
        · cases hs
        · exact g.endOffset hs
      covers := fun _ => covers_ackFifo (g.covers hr) (Nat.le_of_lt hlo) hhi
      frameBound := flen_ackFifo_le g.frameBound
      fifoBound := (length_ackFifo_le _ _).trans g.fifoBound
      pending := by
        intro hp
        simp only [Window.acknowledged] at hp ⊢
        split at hp
        · cases hp
        · rename_i hne
          have := g.pending hp
          refine ⟨hr, this.2.1, this.2.2.1, ?_⟩
          have : a ≠ w.endOffset := fun e => hne ⟨hp, e⟩
          omega
      acked := by
        intro ha
        simp only [Window.acknowledged] at ha ⊢
        split at ha
        · rename_i he
          have := g.pending he.1
          refine ⟨hr, ?_, this.2.1, this.2.2.1⟩
          omega
        · have := g.acked ha
          omega
      notSent := by
        intro hs _
        simp only [Window.acknowledged] at hs ⊢
        split at hs
        · cases hs
        · exact g.notSent hs hr
      recv := by simp [Window.acknowledged, hr]
      idle := by simp [Window.acknowledged, hr] }

/-- WIN_ACCEPT keeps R32. -/
theorem Good.appended {c : Config} {w : Window} {n : Nat} (g : w.Good c) (hr : w.role = .recv)
    (hwin : w.pointer + n ≤ w.head + w.win) (hcap : w.pointer + n ≤ c.bufCap) : (w.appended n).Good c := by
  obtain ⟨h1, h2, h3, h4⟩ := g.recv hr
  have h5 := g.headLePointer
  exact
    { headLePointer := by simp only [Window.appended]; omega
      pointerLeLen := Nat.le_refl _
      lenLeCap := hcap
      windowBound := by simp only [Window.appended]; omega
      winFits := g.winFits
      endOffset := g.endOffset
      covers := by simp [Window.appended, hr]
      frameBound := g.frameBound
      fifoBound := g.fifoBound
      pending := by simp [Window.appended, h2]
      acked := by simp [Window.appended, h2]
      notSent := by simp [Window.appended, hr]
      recv := fun _ => ⟨rfl, h2, h3, h4⟩
      idle := by simp [Window.appended, hr] }

/-- WIN_DRAIN keeps R32. -/
theorem Good.drained {c : Config} {w : Window} (g : w.Good c) (hr : w.role = .recv) :
    ({ w with head := w.pointer } : Window).Good c := by
  obtain ⟨h1, h2, h3, h4⟩ := g.recv hr
  exact
    { headLePointer := Nat.le_refl _
      pointerLeLen := g.pointerLeLen
      lenLeCap := g.lenLeCap
      windowBound := by simp
      winFits := g.winFits
      endOffset := g.endOffset
      covers := by simp [hr]
      frameBound := g.frameBound
      fifoBound := g.fifoBound
      pending := by simp [h2]
      acked := by simp [h2]
      notSent := by simp [hr]
      recv := fun _ => ⟨h1, h2, h3, h4⟩
      idle := by simp [hr] }

end Window

end Sys2Proof.Machine
end

