-- ==== Sys2Proof/Laws/Invariant.lean ====
section
/-! SUPPORT. That each update of the state, and then each command, keeps the invariant of the block (R32 and the ranges). -/

namespace Sys2Proof.Machine

/-- What a legal instance gives (R7), as facts for arithmetic. -/
theorem Config.legal_iff (c : Config) :
    c.Legal = true ↔
      18 ≤ c.pktBudget ∧ c.pktBudget ≤ 4096 ∧ 1 ≤ c.bufCap ∧ c.bufCap ≤ 2 ^ 24 ∧ 1 ≤ c.fifoDepth ∧
        c.fifoDepth ≤ 2 ^ 16 ∧ 1 ≤ c.recvWindow ∧ c.recvWindow < 2 ^ 32 ∧ c.rxTmo < 2 ^ 32 ∧ c.idleTmo < 2 ^ 32 := by
  simp only [Config.Legal, Bool.and_eq_true, decide_eq_true_eq]
  tauto

theorem Config.payloadCap_add {c : Config} (h : c.Legal = true) : Config.hdrSize + c.payloadCap = c.pktBudget := by
  have := (legal_iff c).mp h
  simp only [Config.payloadCap, Config.hdrSize]
  omega

theorem Config.payloadCap_pos {c : Config} (h : c.Legal = true) : 0 < c.payloadCap := by
  have := (legal_iff c).mp h
  simp only [Config.payloadCap, Config.hdrSize]
  omega

namespace Timers

theorem good_clear (c : Config) : Timers.clear.Good c := by
  constructor <;> simp [Timers.clear]

theorem Good.tick {c : Config} {t : Timers} (g : t.Good c) : t.tick.Good c := by
  obtain ⟨h1, h2, h3, h4⟩ := g
  constructor <;> simp only [Timers.tick]
  · split <;> omega
  · split <;> omega
  · intro ha
    simp [ha, h3 ha]
  · intro ha
    simp [ha, h4 ha]

theorem Good.restartRx {c : Config} {t : Timers} (g : t.Good c) : (t.restartRx c.rxTmo).Good c :=
  { g with
    rxBound := Nat.le_refl _
    rxDisarmed := by simp [Timers.restartRx] }

theorem Good.restartIdle {c : Config} {t : Timers} (g : t.Good c) : (t.restartIdle c.idleTmo).Good c :=
  { g with
    idleBound := Nat.le_refl _
    idleDisarmed := by simp [Timers.restartIdle] }

end Timers

namespace Inv

variable {s : State}

theorem setResult (h : Inv s) (c : ResultCode) : Inv (s.setResult c) := { h with }

theorem setRes0 (h : Inv s) (v : Word) : Inv (s.setRes0 v) := { h with }

theorem setRes (h : Inv s) (a b : Word) : Inv (s.setRes a b) := { h with }

theorem setScript (h : Inv s) (es : List Event) : Inv (s.setScript es) := { h with }

theorem setReply (h : Inv s) (r : Reply) : Inv (s.setReply r) := { h with }

theorem setWin (h : Inv s) {w : Window} (hw : w.Good s.cfg) : Inv (s.setWin w) := { h with window := hw }

theorem setTmr (h : Inv s) {t : Timers} (ht : t.Good s.cfg) : Inv (s.setTmr t) := { h with timers := ht }

theorem setTx (h : Inv s) {t : TxRegs} (ht : t.len = 0#32 ∨ t.len = toWord s.cfg.pktBudget) : Inv (s.setTx t) :=
  { h with txLen := ht }

theorem setRx (h : Inv s) {r : RxRegs} (hd : r.dsize.toNat ≤ s.cfg.payloadCap)
    (hf : r.flags.valid = false → r.flags = RxFlags.clear) : Inv (s.setRx r) :=
  { h with rxSize := hd, rxFlags := hf }

theorem setTxm (h : Inv s) {m : Memory} (hm : m.wf ∧ m.within s.cfg.pktBudget) : Inv (s.setTxm m) :=
  { h with txm := hm }

theorem setRxm (h : Inv s) {m : Memory} (hm : m.wf ∧ m.within s.cfg.pktBudget) : Inv (s.setRxm m) :=
  { h with rxm := hm }

theorem setBuf (h : Inv s) {m : Memory} (hm : m.wf ∧ m.within s.cfg.bufCap) : Inv (s.setBuf m) :=
  { h with buf := hm }

/-- Clearing RX_FLAGS keeps the invariant (R27). -/
theorem clearFlags (h : Inv s) : Inv (s.setRx { s.rx with flags := RxFlags.clear }) := h.setRx h.rxSize (fun _ => rfl)

/-- A legal instance has room for a header. -/
theorem hdr_le (h : Inv s) : Config.hdrSize ≤ s.cfg.pktBudget := by
  have := Config.payloadCap_add h.legal
  omega

end Inv

variable {s t : State}

theorem execReset_inv (h : Inv s) (ht : execReset s = .next t) : Inv t := by
  rw [execReset_next ht]
  refine Inv.setResult ?_ _
  exact ((h.setWin (Window.good_idle s.cfg)).setTmr (Timers.good_clear s.cfg)).clearFlags

theorem execEncode_inv (h : Inv s) (ht : execEncode s = .next t) : Inv t := by
  rcases execEncode_next ht with ⟨-, rfl⟩ | ⟨-, -, rfl⟩ | ⟨-, -, -, rfl⟩
  · exact h.setResult _
  · exact h.setResult _
  · refine Inv.setResult (Inv.setTx (h.setTxm ⟨?_, ?_⟩) (.inr rfl)) _
    · exact wf_encodeImage _ _ _ _ _ h.txm.1
    · exact within_encodeImage _ _ _ _ _ h.txm.2 h.hdr_le

theorem execEncodeFrame_inv (h : Inv s) (ht : execEncodeFrame s = .next t) : Inv t := by
  rcases execEncodeFrame_next ht with ⟨-, rfl⟩ | ⟨-, -, rfl⟩ | ⟨-, hn, -, rfl⟩
  · exact h.setResult _
  · exact h.setResult _
  · have := Config.payloadCap_add h.legal
    refine Inv.setResult (Inv.setTx (h.setTxm ⟨?_, ?_⟩) (.inr rfl)) _
    · exact wf_frameImage h.txm.1 h.buf.1 _ _
    · exact within_frameImage h.txm.2 (by omega)

theorem execEncodeAck_inv (h : Inv s) (ht : execEncodeAck s = .next t) : Inv t := by
  rw [execEncodeAck_next ht]
  refine Inv.setResult (Inv.setTx (h.setTxm ⟨?_, ?_⟩) (.inr rfl)) _
  · exact wf_encodeImage _ _ _ _ _ h.txm.1
  · exact within_encodeImage _ _ _ _ _ h.txm.2 h.hdr_le

theorem execDecode_inv (h : Inv s) (ht : execDecode s = .next t) : Inv t := by
  rcases execDecode_next ht with ⟨-, rfl⟩ | ⟨-, rfl⟩
  · exact h.clearFlags.setResult _
  · refine Inv.setResult (Inv.setRxm (h.setRx (r := decodedRx s (be32 s.rxm 13)) ?_ ?_) ⟨Memory.wf_zero h.rxm.1 _ _, Memory.within_zero h.rxm.2 _ _⟩) _
    · have h1 := effectiveSize_le_cap s.cfg s.rx.len.toNat (be32 s.rxm 13).toNat
      have h2 := Nat.mod_le (effectiveSize s.cfg s.rx.len.toNat (be32 s.rxm 13).toNat) (2 ^ 32)
      simp only [decodedRx, toWord, BitVec.toNat_ofNat]
      omega
    · simp [decodedRx, decodeFlags]

theorem execWinLoad_inv (h : Inv s) (ht : execWinLoad s = .next t) : Inv t := by
  rcases execWinLoad_next ht with ⟨-, rfl⟩ | ⟨-, -, rfl⟩ | ⟨-, hn, rfl⟩
  · exact h.setResult _
  · exact h.setResult _
  · exact (h.setWin (Window.good_loaded hn)).setResult _

theorem execWinRecvInit_inv (h : Inv s) (ht : execWinRecvInit s = .next t) : Inv t := by
  rcases execWinRecvInit_next ht with ⟨-, rfl⟩ | ⟨-, rfl⟩
  · exact h.setResult _
  · have := ((Config.legal_iff _).mp h.legal)
    exact (h.setWin (Window.good_receiving (by omega))).setResult _

theorem execWinSetwin_inv (h : Inv s) (ht : execWinSetwin s = .next t) : Inv t := by
  rcases execWinSetwin_next ht with ⟨-, rfl⟩ | ⟨-, -, rfl⟩ | ⟨hr, hn, rfl⟩
  · exact h.setResult _
  · exact h.setResult _
  · exact (h.setWin (h.window.setwin hr hn s.arg0.isLt)).setResult _

theorem execWinNext_inv (h : Inv s) (ht : execWinNext s = .next t) : Inv t := by
  rcases execWinNext_next ht with ⟨-, rfl⟩ | ⟨-, -, rfl⟩ | ⟨-, -, -, rfl⟩ | ⟨-, -, -, -, rfl⟩ | ⟨hr, -, hp, hf, rfl⟩
  · exact h.setResult _
  · exact (h.setRes _ _).setResult _
  · exact (h.setRes _ _).setResult _
  · exact (h.setRes _ _).setResult _
  · have hb := h.window.fifoBound
    refine Inv.setResult (Inv.setRes (h.setWin ?_) _ _) _
    exact h.window.framed hr (Window.nextLen_pos (Config.payloadCap_pos h.legal) hp) (Window.nextLen_le_cap _ _)
      (Window.pointer_add_nextLen_le (by omega)) (by omega)

theorem execWinPendRead_inv (h : Inv s) (ht : execWinPendRead s = .next t) : Inv t := by
  rcases execWinPendRead_next ht with ⟨-, rfl⟩ | ⟨-, -, rfl⟩ | ⟨f, -, -, rfl⟩
  · exact h.setResult _
  · exact h.setResult _
  · exact (h.setRes _ _).setResult _

theorem execWinAck_inv (h : Inv s) (ht : execWinAck s = .next t) : Inv t := by
  rcases execWinAck_next ht with ⟨-, rfl⟩ | ⟨-, -, rfl⟩ | ⟨hr, hlo, hhi, rfl⟩
  · exact h.setResult _
  · exact h.setResult _
  · exact ((h.setWin (h.window.acknowledged hr hlo hhi)).setRes _ _).setResult _

theorem execWinAccept_inv (h : Inv s) (ht : execWinAccept s = .next t) : Inv t := by
  rcases execWinAccept_next ht with
    ⟨-, rfl⟩ | ⟨-, -, rfl⟩ | ⟨-, -, -, rfl⟩ | ⟨-, -, -, -, rfl⟩ | ⟨-, -, -, -, -, rfl⟩ | ⟨hr, -, -, -, hw, hc, rfl⟩
  · exact h.setResult _
  · exact h.setResult _
  · exact h.setResult _
  · exact (h.setRes0 _).setResult _
  · exact (h.setRes0 _).setResult _
  · refine Inv.setResult (Inv.setRes (Inv.setWin (h.setBuf ⟨?_, ?_⟩) ?_) _ _) _
    · exact Memory.wf_copy h.buf.1 h.rxm.1 _ _ _
    · exact Memory.within_copy h.buf.2 hc
    · exact h.window.appended hr hw hc

theorem execWinDrain_inv (h : Inv s) (ht : execWinDrain s = .next t) : Inv t := by
  rcases execWinDrain_next ht with ⟨-, rfl⟩ | ⟨hr, rfl⟩
  · exact h.setResult _
  · exact ((h.setWin (h.window.drained hr)).setRes _ _).setResult _

theorem execTmrRestartRx_inv (h : Inv s) (ht : execTmrRestartRx s = .next t) : Inv t := by
  rw [execTmrRestartRx_next ht]
  exact (h.setTmr h.timers.restartRx).setResult _

theorem execTmrRestartIdle_inv (h : Inv s) (ht : execTmrRestartIdle s = .next t) : Inv t := by
  rw [execTmrRestartIdle_next ht]
  exact (h.setTmr h.timers.restartIdle).setResult _

theorem execTmrClear_inv (h : Inv s) (ht : execTmrClear s = .next t) : Inv t := by
  rw [execTmrClear_next ht]
  exact (h.setTmr (Timers.good_clear s.cfg)).setResult _

theorem execTmrPoll_inv (h : Inv s) (ht : execTmrPoll s = .next t) : Inv t := by
  rw [execTmrPoll_next ht]
  exact (h.setRes _ _).setResult _

end Sys2Proof.Machine
end

