-- ==== Sys2Proof/Laws/PerInstr.lean ====
section
/-! SUPPORT. Statements about the instructions as syntax, one lemma per constructor: the encoding of each of them. -/

namespace Sys2Proof.Laws

/-- The opcode's high nibble of each group (R52). -/
def groupNibble : Group → Nat
  | .control => 0
  | .codec => 1
  | .window => 2
  | .timer => 3

namespace Encoding

/-- The command word of `i` is legal (R50, R53), lies in its group's column of the opcode map (R52), and is the one word that
the decoder reads as `i`. -/
def Statement (i : Instr) : Prop :=
  commandWordWF (encode i) = true ∧ (encode i).toNat / 16 = groupNibble i.group ∧
    decodeTableWord 32 (encode i).toNat = some i

theorem nop : Statement .nop := ⟨rfl, rfl, rfl⟩

theorem reset : Statement .reset := ⟨rfl, rfl, rfl⟩

theorem encode : Statement .encode := ⟨rfl, rfl, rfl⟩

theorem encodeFrame : Statement .encodeFrame := ⟨rfl, rfl, rfl⟩

theorem encodeAck : Statement .encodeAck := ⟨rfl, rfl, rfl⟩

theorem decode : Statement .decode := ⟨rfl, rfl, rfl⟩

theorem winLoad : Statement .winLoad := ⟨rfl, rfl, rfl⟩

theorem winRecvInit : Statement .winRecvInit := ⟨rfl, rfl, rfl⟩

theorem winSetwin : Statement .winSetwin := ⟨rfl, rfl, rfl⟩

theorem winNext : Statement .winNext := ⟨rfl, rfl, rfl⟩

theorem winPendRead : Statement .winPendRead := ⟨rfl, rfl, rfl⟩

theorem winAck : Statement .winAck := ⟨rfl, rfl, rfl⟩

theorem winAccept : Statement .winAccept := ⟨rfl, rfl, rfl⟩

theorem winDrain : Statement .winDrain := ⟨rfl, rfl, rfl⟩

theorem tmrRestartRx : Statement .tmrRestartRx := ⟨rfl, rfl, rfl⟩

theorem tmrRestartIdle : Statement .tmrRestartIdle := ⟨rfl, rfl, rfl⟩

theorem tmrClear : Statement .tmrClear := ⟨rfl, rfl, rfl⟩

theorem tmrPoll : Statement .tmrPoll := ⟨rfl, rfl, rfl⟩

end Encoding

end Sys2Proof.Laws
end

