-- ==== Sys2Proof/Laws/Step.lean ====
section
/-! SUPPORT. What one step can do, said once: `perform_effect` is the inversion lemma of the bus and of the other two agents,
and a rule about every step is a case split over `StepEffect`. -/

namespace Sys2Proof.Machine

/-- `StepEffect s e t`: the event `e` may take the state `s`, in which it is already off the script, to `t`. -/
inductive StepEffect (s : State) : Event → State → Prop
  /-- A read, or a write that a reserved offset ignores: only the bus's answer changes (R19, R43). -/
  | answer (e : Event) (r : Reply) : StepEffect s e (s.setReply r)
  /-- A write of a register other than CMD (R18). -/
  | register (e : Event) (r : Reg) (v : Word) (h : r ≠ .cmd) : StepEffect s e (writeReg r v (s.setReply .written))
  /-- A byte written into TXM (R38). -/
  | txm (e : Event) (i : Nat) (v : Byte) (h : i < s.cfg.pktBudget) :
      StepEffect s e ((s.setTxm (s.txm.write i v)).setReply .written)
  /-- A byte written into RXM (R38). -/
  | rxm (e : Event) (i : Nat) (v : Byte) (h : i < s.cfg.pktBudget) :
      StepEffect s e ((s.setRxm (s.rxm.write i v)).setReply .written)
  /-- A byte written into BUF (R38). -/
  | buf (e : Event) (i : Nat) (v : Byte) (h : i < s.cfg.bufCap) :
      StepEffect s e ((s.setBuf (s.buf.write i v)).setReply .written)
  /-- A legal command (R21); `exec_effect` says what it can do. -/
  | command (i : Instr) (t : State) (h : exec i (s.setReply .written) = .next t) : StepEffect s (commandWrite (encode i)) t
  /-- An illegal word (R92). -/
  | illegal (w : Word) (err : DecodeError) (h : decode w = .error err) :
      StepEffect s (commandWrite w) ((s.setReply .written).setResult .illegal)
  /-- The time base (R82). -/
  | tick : StepEffect s .tick (tickStep s)
  /-- Hardware reset (R105). -/
  | rst : StepEffect s .rst (hardwareReset s)

/-- A write to the offset 0x040 of the page is a command write (R18, R21). -/
theorem write32_eq_commandWrite {a v : Word} (h : a.toNat = 0x40) : Event.write32 a v = commandWrite v := by
  have : a = BitVec.ofNat 32 Reg.cmd.offset := BitVec.eq_of_toNat_eq (h.trans (by decide))
  rw [this, commandWrite]

theorem runCommand_effect {w : Word} {s t : State} (h : runCommand w (s.setReply .written) = .next t) :
    StepEffect s (commandWrite w) t := by
  unfold runCommand at h
  cases hd : decode w with
  | ok i =>
    simp only [hd] at h
    have : w = encode i := BitVec.eq_of_toNat_eq (decode_ok hd).2
    rw [this]
    exact .command i t h
  | error err =>
    simp only [hd] at h
    rw [execIllegal_next h]
    exact .illegal w err hd

/-- The inversion lemma of one event. -/
theorem perform_effect {e : Event} {s t : State} (h : perform e s = .next t) : StepEffect s e t := by
  cases e with
  | read32 a =>
    change busRead32 a s = .next t at h
    rcases busRead32_cases a s with ⟨-, -, v, h'⟩ | ⟨-, h'⟩
    · rw [h'] at h
      cases h
      exact .answer _ _
    · rw [h'] at h
      cases h
  | read8 a =>
    change busRead8 a s = .next t at h
    rcases busRead8_cases a s with ⟨-, v, h'⟩ | ⟨-, h'⟩
    · rw [h'] at h
      cases h
      exact .answer _ _
    · rw [h'] at h
      cases h
  | write32 a v =>
    change busWrite32 a v s = .next t at h
    rcases busWrite32_cases a v s with ⟨-, -, ⟨ha, h'⟩ | ⟨r, hr, -, h'⟩ | ⟨-, h'⟩⟩ | ⟨-, h'⟩
    · rw [h'] at h
      rw [write32_eq_commandWrite ha]
      exact runCommand_effect h
    · rw [h'] at h
      cases h
      exact .register _ r v hr
    · rw [h'] at h
      cases h
      exact .answer _ _
    · rw [h'] at h
      cases h
  | write8 a v =>
    change busWrite8 a v s = .next t at h
    rcases busWrite8_cases a v s with ⟨i, hi, -, h'⟩ | ⟨i, hi, -, h'⟩ | ⟨i, hi, -, h'⟩ | ⟨-, h'⟩
    · rw [h'] at h
      cases h
      exact .txm _ i v hi
    · rw [h'] at h
      cases h
      exact .rxm _ i v hi
    · rw [h'] at h
      cases h
      exact .buf _ i v hi
    · rw [h'] at h
      cases h
  | tick =>
    cases h
    exact .tick
  | rst =>
    cases h
    exact .rst

/-- The inversion lemma of `step`: the idle block keeps its state, or the first event has its effect. -/
theorem step_effect {s t : State} (h : step s = .next t) :
    (s.script = [] ∧ t = s) ∨ ∃ e es, s.script = e :: es ∧ StepEffect (s.setScript es) e t := by
  cases hs : s.script with
  | nil =>
    rw [step_nil hs] at h
    cases h
    exact .inl ⟨rfl, rfl⟩
  | cons e es =>
    rw [step_cons hs] at h
    exact .inr ⟨e, es, rfl, perform_effect h⟩

end Sys2Proof.Machine
end

