-- ==== Sys2Proof/Tests/Slice0.lean ====
section
/-! SUPPORT. Tests of the model and witnesses for the statements. Every expected value is read or computed by hand from the
spec: 95_test_vectors.md (a vector's name stands in a test's comment), the rules, and the encodings of R52. A test is one
step on a small state. A witness shows a concrete state and operands that meet a statement's hypotheses together. -/

open Sys2Proof Sys2Proof.Machine Sys2Proof.Spec

namespace Sys2Proof.Tests

/-! ### Helpers -/

/-- The outcome is a next state, and it has `p`. -/
def runs (o : Host.Outcome State Fault Refusal) (p : State → Bool) : Bool :=
  match o with
  | .next t => p t
  | .fault _ | .refused _ => false

/-- The outcome is the bus error at `a`. -/
def busErrorAt (o : Host.Outcome State Fault Refusal) (a : Word) : Bool :=
  match o with
  | .fault f => f == .busError a
  | .next _ | .refused _ => false

theorem runs_next {o : Host.Outcome State Fault Refusal} {p : State → Bool} (h : runs o p = true) :
    ∃ t, o = .next t ∧ p t = true := by
  cases o with
  | next t => exact ⟨t, rfl, h⟩
  | fault _ => cases h
  | refused _ => cases h

/-- The instance I1417 of 95_test_vectors.md: PAYLOAD_CAP 1400, RECV_WINDOW 2800. -/
def i1417 : Config := ⟨1417, 2 ^ 20, 64, 2800, 500, 10000⟩

/-- I1417 right after hardware reset. -/
def blank : State := State.resetOf i1417

/-- The state of W9, W13 and W17: 3000 bytes loaded, window 2800, two frames of 1400 outstanding. -/
def twoFrames : State :=
  { blank with win := ⟨.send, 0, 2800, 3000, 2800, .notSent, 0, [⟨0, 1400⟩, ⟨1400, 1400⟩]⟩ }

/-- A loaded sender with `n` bytes and window `w`, nothing framed (R68, R70). -/
def loadedState (n w : Nat) : State := { blank with win := ⟨.send, 0, 0, n, w, .notSent, 0, []⟩ }

/-- A receiver that has drained nothing and accepted `p` bytes (R69, R80). -/
def receiver (p : Nat) : State := { blank with win := ⟨.recv, 0, p, p, 2800, .notSent, 0, []⟩ }

/-- `s` with a decoded packet of kind `k` in the RX_* registers (R65). -/
def withPacket (s : State) (k : Byte) (seq d : Word) : State :=
  { s with rx := ⟨17, k, seq, 0, 0, d, d, ⟨true, false, false, false, false, false⟩⟩ }

/-- `s` with the packet of `k`, `seq`, `d` in the TX_* registers. -/
def withTx (s : State) (k : Byte) (seq d : Word) : State := { s with tx := ⟨k, seq, 0, 0, d, 0⟩ }

/-! ### Well-formedness: each check refuses an ill-formed word or instance -/

theorem test_wf_reserved_bits : commandWordWF 0x00000110#32 = false ∧ rsvClear 0x00000110#32 = false := by decide

theorem test_wf_opcode_gaps :
    [0x02#32, 0x0F#32, 0x14#32, 0x1F#32, 0x28#32, 0x2F#32, 0x34#32, 0xFF#32].all
      (fun w => rsvClear w && !opcodeDefined w && !commandWordWF w) = true := by decide

theorem test_wf_accepts_the_18 :
    [0x00#32, 0x01#32, 0x10#32, 0x11#32, 0x12#32, 0x13#32, 0x20#32, 0x21#32, 0x22#32, 0x23#32, 0x24#32, 0x25#32, 0x26#32,
      0x27#32, 0x30#32, 0x31#32, 0x32#32, 0x33#32].all commandWordWF = true := by decide

theorem test_wf_parameters :
    ({ i1417 with pktBudget := 17 } : Config).Legal = false ∧ ({ i1417 with pktBudget := 4097 } : Config).Legal = false ∧
      ({ i1417 with bufCap := 0 } : Config).Legal = false ∧ ({ i1417 with bufCap := 2 ^ 24 + 1 } : Config).Legal = false ∧
      ({ i1417 with fifoDepth := 0 } : Config).Legal = false ∧
      ({ i1417 with fifoDepth := 2 ^ 16 + 1 } : Config).Legal = false ∧
      ({ i1417 with recvWindow := 0 } : Config).Legal = false ∧
      ({ i1417 with recvWindow := 2 ^ 32 } : Config).Legal = false ∧ ({ i1417 with rxTmo := 2 ^ 32 } : Config).Legal = false ∧
      ({ i1417 with idleTmo := 2 ^ 32 } : Config).Legal = false := by decide

/-! ### Decoding: every command's word, written out from R50 and R52 (RSV, then the group and the row of OP) -/

theorem test_decode_control :
    decode 0b00000000_00000000_00000000_0000_0000#32 = .ok .nop ∧
      decode 0b00000000_00000000_00000000_0000_0001#32 = .ok .reset := ⟨rfl, rfl⟩

theorem test_decode_codec :
    decode 0b00000000_00000000_00000000_0001_0000#32 = .ok .encode ∧
      decode 0b00000000_00000000_00000000_0001_0001#32 = .ok .encodeFrame ∧
      decode 0b00000000_00000000_00000000_0001_0010#32 = .ok .encodeAck ∧
      decode 0b00000000_00000000_00000000_0001_0011#32 = .ok .decode := ⟨rfl, rfl, rfl, rfl⟩

theorem test_decode_window :
    decode 0b00000000_00000000_00000000_0010_0000#32 = .ok .winLoad ∧
      decode 0b00000000_00000000_00000000_0010_0001#32 = .ok .winRecvInit ∧
      decode 0b00000000_00000000_00000000_0010_0010#32 = .ok .winSetwin ∧
      decode 0b00000000_00000000_00000000_0010_0011#32 = .ok .winNext ∧
      decode 0b00000000_00000000_00000000_0010_0100#32 = .ok .winPendRead ∧
      decode 0b00000000_00000000_00000000_0010_0101#32 = .ok .winAck ∧
      decode 0b00000000_00000000_00000000_0010_0110#32 = .ok .winAccept ∧
      decode 0b00000000_00000000_00000000_0010_0111#32 = .ok .winDrain :=
  ⟨rfl, rfl, rfl, rfl, rfl, rfl, rfl, rfl⟩

theorem test_decode_timer :
    decode 0b00000000_00000000_00000000_0011_0000#32 = .ok .tmrRestartRx ∧
      decode 0b00000000_00000000_00000000_0011_0001#32 = .ok .tmrRestartIdle ∧
      decode 0b00000000_00000000_00000000_0011_0010#32 = .ok .tmrClear ∧
      decode 0b00000000_00000000_00000000_0011_0011#32 = .ok .tmrPoll := ⟨rfl, rfl, rfl, rfl⟩

theorem test_decode_table_word : decodeTableWord 32 0x25 = some .winAck ∧ decodeTableWord 32 0x14 = none := by decide

/-! ### One step per command -/

/-- CT1. -/
theorem test_nop : runs (exec .nop { loadedState 3000 0 with result := .ackRejected })
    (fun t => t.result == .ok && t.status == 0x00100000#32) = true := by decide

/-- CT2. -/
theorem test_reset_clears_and_keeps :
    runs (exec .reset { twoFrames with tmoIe := true, arg0 := 77, res1 := 1400, tmr := ⟨true, 500, false, 0⟩ })
      (fun t => t.status == 0#32 && t.win.len == 0 && t.arg0 == 77#32 && t.res1 == 1400#32 && t.tmoIe) = true := by decide

/-- E2. -/
theorem test_encode_data :
    runs (exec .encode
        { withTx blank 0x02 5 3 with
          txm := [(17, 0xA0#8), (18, 0xA1#8), (19, 0xA2#8), (20, 0x55#8), (1416, 0x55#8)] })
      (fun t => t.result == .ok && t.tx.len == 1417#32 &&
        t.txm == [(0, 0x02#8), (4, 0x05#8), (16, 0x03#8), (17, 0xA0#8), (18, 0xA1#8), (19, 0xA2#8)]) = true := by decide

/-- E3, E4, E5. -/
theorem test_encode_refusals :
    runs (exec .encode (withTx blank 0x07 0 0)) (fun t => t.result == .badKind && t.tx.len == 0#32) = true ∧
      runs (exec .encode (withTx blank 0x02 0 1401)) (fun t => t.result == .badDsize) = true ∧
      runs (exec .encode (withTx blank 0x05 0 1)) (fun t => t.result == .badDsize) = true := by decide

/-- E12, with bytes in BUF. -/
theorem test_encode_frame :
    runs (exec .encodeFrame
        { loadedState 3000 0 with
          tx := ⟨0x05, 7, 7, 7, 0, 0⟩
          arg0 := 0x0102
          arg1 := 2
          buf := [(0x0101, 0xAA#8), (0x0102, 0xBB#8), (0x0103, 0xCC#8), (0x0104, 0xDD#8)] })
      (fun t => t.tx == ⟨0x02, 0x0102, 0, 0, 2, 1417⟩ &&
        t.txm == [(0, 0x02#8), (3, 0x01#8), (4, 0x02#8), (16, 0x02#8), (17, 0xBB#8), (18, 0xCC#8)]) = true := by decide

/-- E8, E9, E10. -/
theorem test_encode_frame_refusals :
    runs (exec .encodeFrame { blank with arg1 := 1 }) (fun t => t.result == .role) = true ∧
      runs (exec .encodeFrame { loadedState 3000 0 with arg0 := 2900, arg1 := 101 }) (fun t => t.result == .range) = true ∧
      runs (exec .encodeFrame { loadedState 3000 0 with arg1 := 1401 }) (fun t => t.result == .range) = true := by decide

/-- E13: RECV_WINDOW 5932 is 0x172C. -/
theorem test_encode_ack :
    runs (exec .encodeAck { blank with cfg := { i1417 with recvWindow := 5932 }, arg0 := 0x01020304, txm := [(20, 0x77#8)] })
      (fun t => t.tx.win == 5932#32 && t.txm == [(0, 0x05#8), (5, 0x01#8), (6, 0x02#8), (7, 0x03#8), (8, 0x04#8),
        (11, 0x17#8), (12, 0x2C#8)]) = true := by decide

/-- D3: the wire data_size exceeds the bytes present. -/
theorem test_decode_truncated :
    runs (exec .decode
        { blank with
          rx := { blank.rx with len := 20 }
          rxm := [(0, 0x02#8), (16, 200#8), (17, 0x41#8), (18, 0x42#8), (19, 0x43#8), (20, 0x44#8)] })
      (fun t => t.rx.dsize == 3#32 && t.rx.dsizeRaw == 200#32 && t.rx.flags.word == 9#32 && t.rxm.read 19 == 0x43#8 &&
        t.rxm.read 20 == 0#8) = true := by decide

/-- D9: MALFORMED clears the flags and keeps the other RX_* registers. -/
theorem test_decode_malformed :
    runs (exec .decode
        { blank with
          rxm := [(0, 0x02#8)]
          rx := ⟨3, 0x02, 0, 0, 0, 0, 0, ⟨true, false, false, false, false, false⟩⟩ })
      (fun t => t.result == .malformed && t.rx.flags.word == 0#32 && t.rx.kind == 0x02#8 && t.rxm.read 0 == 0x02#8)
      = true := by decide

/-- W1, W2, W5. -/
theorem test_win_load :
    runs (exec .winLoad { blank with cfg := { i1417 with bufCap := 4096 }, arg0 := 4097 })
        (fun t => t.result == .tooBig && t.win == Window.idle) = true ∧
      runs (exec .winLoad { blank with cfg := { i1417 with bufCap := 4096 }, arg0 := 4096 })
        (fun t => t.win.role == .send && t.win.len == 4096 && t.win.endState == .notSent) = true ∧
      runs (exec .winLoad blank) (fun t => t.status == 0x00910000#32) = true := by decide

/-- P2, W4. -/
theorem test_win_recv_init :
    runs (exec .winRecvInit blank) (fun t => t.win.role == .recv && t.win.win == 2800) = true ∧
      runs (exec .winRecvInit twoFrames) (fun t => t.result == .role && t.win == twoFrames.win) = true := by decide

/-- W9. -/
theorem test_win_setwin :
    runs (exec .winSetwin { twoFrames with arg0 := 2799 }) (fun t => t.result == .winTooSmall && t.win.win == 2800) = true ∧
      runs (exec .winSetwin { twoFrames with arg0 := 2800 }) (fun t => t.result == .ok && t.win.win == 2800) = true := by
  decide

/-- P1: the last frame, 200 bytes, makes the end PENDING. -/
theorem test_win_next_last_frame :
    runs (exec .winNext { blank with win := ⟨.send, 2800, 2800, 3000, 2800, .notSent, 0, []⟩ })
      (fun t => t.res0 == 2800#32 && t.res1 == 200#32 && t.win == ⟨.send, 2800, 3000, 3000, 2800, .pending, 3000,
        [⟨2800, 200⟩]⟩) = true := by decide

/-- W6, W8, and R71's reason 0. -/
theorem test_win_next_no_frame :
    runs (exec .winNext (loadedState 3000 0)) (fun t => t.result == .noFrame && t.res0 == 0#32 && t.res1 == 1#32) = true ∧
      runs (exec .winNext
          { blank with
            cfg := { i1417 with fifoDepth := 2 }
            win := ⟨.send, 0, 2800, 5000, 5000, .notSent, 0, [⟨0, 1400⟩, ⟨1400, 1400⟩]⟩ })
        (fun t => t.result == .noFrame && t.res0 == 2800#32 && t.res1 == 2#32) = true ∧
      runs (exec .winNext { blank with win := ⟨.send, 0, 1400, 1400, 2800, .pending, 1400, [⟨0, 1400⟩]⟩, res1 := 7 })
        (fun t => t.result == .noFrame && t.res0 == 1400#32 && t.res1 == 0#32) = true := by decide

/-- W13, W14. -/
theorem test_win_pend_read :
    runs (exec .winPendRead { twoFrames with arg0 := 1 })
        (fun t => t.res0 == 1400#32 && t.res1 == 1400#32 && t.win == twoFrames.win) = true ∧
      runs (exec .winPendRead { twoFrames with arg0 := 2, res0 := 9 }) (fun t => t.result == .range && t.res0 == 9#32)
        = true := by decide

/-- W13: an acknowledgement inside the oldest frame trims it. -/
theorem test_win_ack_trims :
    runs (exec .winAck { twoFrames with arg0 := 700 })
      (fun t => t.res0 == 700#32 && t.res1 == 2#32 && t.win.head == 700 && t.win.fifo == [⟨700, 700⟩, ⟨1400, 1400⟩])
      = true := by decide

/-- W17, and P1's last acknowledgement, which completes the transfer. -/
theorem test_win_ack_bounds :
    runs (exec .winAck { twoFrames with arg0 := 2801 }) (fun t => t.result == .ackRejected && t.win.head == 0) = true ∧
      runs (exec .winAck { twoFrames with arg0 := 0 }) (fun t => t.result == .ackRejected) = true ∧
      runs (exec .winAck { blank with arg0 := 3000, win := ⟨.send, 2800, 3000, 3000, 2800, .pending, 3000, [⟨2800, 200⟩]⟩ })
        (fun t => t.status == 0x00910000#32 && t.win.fifo == []) = true := by decide

/-- L1 part B: bytes land at the pointer. -/
theorem test_win_accept :
    runs (exec .winAccept
        { withPacket (receiver 500) 0x02 500 2 with
          buf := [(500, 0x11#8)]
          rxm := [(17, 0xAB#8), (18, 0xCD#8), (19, 0xEF#8)] })
      (fun t => t.res0 == 502#32 && t.res1 == 2#32 && t.win.pointer == 502 && t.win.len == 502 && t.win.head == 0 &&
        t.buf == [(500, 0xAB#8), (501, 0xCD#8)]) = true := by decide

/-- W26 to W31: the refusals, in their order. -/
theorem test_win_accept_refusals :
    runs (exec .winAccept (receiver 0)) (fun t => t.result == .noPacket) = true ∧
      runs (exec .winAccept (withPacket (receiver 0) 0x05 9 0)) (fun t => t.result == .notData) = true ∧
      runs (exec .winAccept (withPacket (receiver 1400) 0x02 0 1400))
        (fun t => t.result == .outOfOrder && t.res0 == 1400#32) = true ∧
      runs (exec .winAccept (withPacket (receiver 2800) 0x02 2800 200))
        (fun t => t.result == .overflow && t.res0 == 2800#32 && t.win.pointer == 2800) = true := by decide

/-- P2. -/
theorem test_win_drain :
    runs (exec .winDrain { blank with win := ⟨.recv, 1400, 2800, 2800, 2800, .notSent, 0, []⟩ })
      (fun t => t.res0 == 1400#32 && t.res1 == 1400#32 && t.win.head == 2800 && t.win.pointer == 2800) = true := by decide

/-- T1, T13. -/
theorem test_tmr_restart :
    runs (exec .tmrRestartRx { blank with tmr := ⟨true, 2, true, 9⟩ }) (fun t => t.tmr == ⟨true, 500, true, 9⟩) = true ∧
      runs (exec .tmrRestartIdle { blank with tmr := ⟨true, 2, false, 0⟩ }) (fun t => t.tmr == ⟨true, 2, true, 10000⟩)
        = true := by decide

/-- R88, R98. -/
theorem test_tmr_clear :
    runs (exec .tmrClear { blank with tmr := ⟨true, 0, true, 0⟩, tmoIe := true })
      (fun t => t.tmr == ⟨false, 0, false, 0⟩ && !t.irq && t.status == 0#32) = true := by decide

/-- P3: both timed out, idle first. -/
theorem test_tmr_poll :
    runs (exec .tmrPoll { blank with tmr := ⟨true, 0, true, 0⟩ }) (fun t => t.res0 == 2#32 && t.res1 == 3#32) = true ∧
      runs (exec .tmrPoll { blank with tmr := ⟨true, 0, true, 7⟩ }) (fun t => t.res0 == 1#32 && t.res1 == 1#32) = true := by
  decide

/-! ### Steps of the three agents -/

/-- T14: the tenth tick after the restart raises `irq`, STATUS bits 24 and 18. -/
theorem test_tick_raises_irq :
    runs (step { blank with script := [.tick], tmoIe := true, tmr := ⟨false, 0, true, 1⟩ })
      (fun t => t.irq && t.status == 0x01040000#32 && t.script == []) = true := by decide

/-- R39: an unmapped address, a byte access to the page, a misaligned and a wide access to a RAM. -/
theorem test_bus_errors :
    busErrorAt (step { blank with script := [.read32 0x02000000] }) 0x02000000 = true ∧
      busErrorAt (step { blank with script := [.read8 0x44] }) 0x44 = true ∧
      busErrorAt (step { blank with script := [.write32 0x46 0] }) 0x46 = true ∧
      busErrorAt (step { blank with script := [.write8 0x1589 0] }) 0x1589 = true ∧
      busErrorAt (step { blank with script := [.read32 0x2000] }) 0x2000 = true := by decide

/-- CT3: words outside the map give ILLEGAL and keep ARG0. -/
theorem test_illegal_words :
    runs (step { blank with script := [commandWrite 0x14], arg0 := 9 }) (fun t => t.status == 0x1F00#32 && t.arg0 == 9#32)
        = true ∧
      runs (step { blank with script := [commandWrite 0x110] }) (fun t => t.status == 0x1F00#32) = true := by decide

/-- R105. -/
theorem test_hardware_reset :
    runs (step { twoFrames with script := [.rst, .tick], arg0 := 5, txm := [(3, 1#8)], reply := .written })
      (fun t => t == { blank with script := [.tick] }) = true := by decide

/-- The first instruction after reset, placed by `withFetchWord`: WIN_RECV_INIT of the reference instance. -/
theorem test_first_instruction :
    runs (step (State.reset.withFetchWord 32 0x21)) (fun t => t.win.role == .recv && t.win.win == 5932 && t.script == [])
      = true := by decide

/-! ### Witnesses: states that keep the invariant -/

/-- Right after reset but for the window, the invariant is the window's. -/
theorem inv_of_window {c : Config} {w : Window} (hl : c.Legal = true) (hw : w.Good c) :
    Inv { State.resetOf c with win := w } where
  legal := hl
  window := hw
  timers := ⟨Nat.zero_le _, Nat.zero_le _, fun _ => rfl, fun _ => rfl⟩
  txLen := .inl rfl
  rxSize := Nat.zero_le _
  rxFlags := fun _ => rfl
  txm := ⟨⟨List.Pairwise.nil, fun _ h => nomatch h⟩, fun _ h => nomatch h⟩
  rxm := ⟨⟨List.Pairwise.nil, fun _ h => nomatch h⟩, fun _ h => nomatch h⟩
  buf := ⟨⟨List.Pairwise.nil, fun _ h => nomatch h⟩, fun _ h => nomatch h⟩

theorem witness_inv_blank : Inv blank :=
  inv_of_window (by decide)
    { headLePointer := by decide, pointerLeLen := by decide, lenLeCap := by decide, windowBound := by decide,
      winFits := by decide, endOffset := by decide, covers := (fun h => nomatch h), frameBound := by decide,
      fifoBound := by decide, pending := by decide, acked := by decide, notSent := by decide, recv := by decide,
      idle := by decide }

theorem witness_inv_twoFrames : Inv twoFrames :=
  inv_of_window (by decide)
    { headLePointer := by decide, pointerLeLen := by decide, lenLeCap := by decide, windowBound := by decide,
      winFits := by decide, endOffset := by decide, covers := by simp [Covers], frameBound := by decide,
      fifoBound := by decide, pending := by decide, acked := by decide, notSent := by decide, recv := by decide,
      idle := by decide }

theorem witness_inv_loaded : Inv (loadedState 3000 64) :=
  inv_of_window (by decide)
    { headLePointer := by decide, pointerLeLen := by decide, lenLeCap := by decide, windowBound := by decide,
      winFits := by decide, endOffset := by decide, covers := by simp [Covers], frameBound := by decide,
      fifoBound := by decide, pending := by decide, acked := by decide, notSent := by decide, recv := by decide,
      idle := by decide }

theorem witness_inv_receiver : Inv (receiver 1400) :=
  inv_of_window (by decide)
    { headLePointer := by decide, pointerLeLen := by decide, lenLeCap := by decide, windowBound := by decide,
      winFits := by decide, endOffset := by decide, covers := (fun h => nomatch h), frameBound := by decide,
      fifoBound := by decide, pending := by decide, acked := by decide, notSent := by decide, recv := by decide,
      idle := by decide }

/-- All of 3000 bytes framed, the last frame outstanding. -/
def lastFrame : State := { blank with win := ⟨.send, 2800, 3000, 3000, 2800, .pending, 3000, [⟨2800, 200⟩]⟩ }

theorem witness_inv_lastFrame : Inv lastFrame :=
  inv_of_window (by decide)
    { headLePointer := by decide, pointerLeLen := by decide, lenLeCap := by decide, windowBound := by decide,
      winFits := by decide, endOffset := by decide, covers := by simp [Covers], frameBound := by decide,
      fifoBound := by decide, pending := by decide, acked := by decide, notSent := by decide, recv := by decide,
      idle := by decide }

/-! ### Witnesses: hypotheses of the statements, clause by clause, at the ends of their ranges -/

theorem witness_ResetClearsTheConnection :
    twoFrames.win.role ≠ .none ∧ ∃ t, exec .reset twoFrames = .next t ∧ decide (t.win.role = .none) = true :=
  ⟨by decide, runs_next (by decide)⟩

theorem witness_IllegalWordOnlyReportsIllegal :
    illegalWord 0x02#32 ∧ illegalWord 0x0F#32 ∧ illegalWord 0x14#32 ∧ illegalWord 0x1F#32 ∧ illegalWord 0x28#32 ∧
      illegalWord 0x2F#32 ∧ illegalWord 0x34#32 ∧ illegalWord 0xFF#32 ∧ illegalWord 0x100#32 ∧
      illegalWord 0xFFFFFFFF#32 := by
  simp [illegalWord]

theorem witness_DecoderRefusesExactlyIllegalWords :
    ¬ illegalWord 0x00#32 ∧ ¬ illegalWord 0x01#32 ∧ ¬ illegalWord 0x10#32 ∧ ¬ illegalWord 0x13#32 ∧ ¬ illegalWord 0x20#32 ∧
      ¬ illegalWord 0x27#32 ∧ ¬ illegalWord 0x30#32 ∧ ¬ illegalWord 0x33#32 := by
  simp [illegalWord]

theorem witness_DecodeAndEncodeAgree :
    Instr.nop.wellFormed = true ∧ Instr.tmrPoll.wellFormed = true ∧ decode 0x33#32 = .ok .tmrPoll := ⟨rfl, rfl, rfl⟩

theorem witness_StepRunsTheDecodedCommand :
    ({ blank with script := [commandWrite 0x33#32] } : State).script = [commandWrite 0x33#32] ∧
      decode 0x33#32 = .ok .tmrPoll ∧
      ({ blank with script := [commandWrite 0x14#32, .tick] } : State).script = commandWrite 0x14#32 :: [.tick] :=
  ⟨rfl, rfl, rfl⟩

theorem witness_RegisterPageReads :
    (0x000, 0x4B475031#32) ∈ readTable blank ∧ (0x14C, 0#32) ∈ readTable blank ∧
      (0x024#32).toNat % 4 = 0 ∧ (0x024#32).toNat ∉ pageOffsets ∧ (0xFFC#32).toNat < 0x1000 ∧
      (0xFFC#32).toNat ∉ pageOffsets := by decide

theorem witness_RegisterPageWrites :
    (0x048, { blank with arg0 := 5 }) ∈ writeTable 5 blank ∧ (0x058, { blank with tmoIe := true }) ∈ writeTable 5 blank ∧
      (0x0C0, { blank with rx := { blank.rx with len := 5 } }) ∈ writeTable 5 blank ∧
      [0x000#32, 0x044#32, 0x050#32, 0x14C#32, 0xFFC#32].all (fun a => a.toNat < 0x1000 && a.toNat % 4 == 0 &&
        a.toNat != 0x040 && !([0x048, 0x04C, 0x058, 0x080, 0x084, 0x088, 0x08C, 0x090, 0x0C0].contains a.toNat))
        = true := by decide

/-- The first and the last byte of each window. -/
theorem witness_RamWindowAccesses :
    blank.cfg.Legal = true ∧ 1416 < blank.cfg.pktBudget ∧ (0x1000#32).toNat = 0x1000 + 0 ∧
      (0x1588#32).toNat = 0x1000 + 1416 ∧ (0x2000#32).toNat = 0x2000 + 0 ∧ (0x2588#32).toNat = 0x2000 + 1416 ∧
      1048575 < blank.cfg.bufCap ∧ (0x01000000#32).toNat = 0x01000000 + 0 ∧
      (0x010FFFFF#32).toNat = 0x01000000 + 1048575 := by decide

/-- Both sides of the equivalence, at the ends of the mapped ranges. -/
theorem witness_BusErrorExactlyWhenNotAllowed :
    allowed i1417 (.read32 0xFFC) ∧ ¬ allowed i1417 (.read32 0x1000) ∧ ¬ allowed i1417 (.read32 0x2) ∧
      allowed i1417 (.read8 0x1588) ∧ ¬ allowed i1417 (.read8 0x1589) ∧ ¬ allowed i1417 (.read8 0xFFF) ∧
      allowed i1417 (.write8 0x2588 0) ∧ ¬ allowed i1417 (.write8 0x2589 0) ∧ allowed i1417 (.write8 0x010FFFFF 0) ∧
      ¬ allowed i1417 (.write8 0x01100000 0) := by
  simp [allowed, i1417]

theorem witness_ReadsHaveNoSideEffect :
    (∃ t, step { blank with script := [.read32 0x044] } = .next t ∧ (t.reply == .word 0) = true) ∧
      ∃ t, step { blank with script := [.read8 0x1000] } = .next t ∧ (t.reply == .byte 0) = true :=
  ⟨runs_next (by decide), runs_next (by decide)⟩

theorem witness_IdAndConfigAreConstants :
    ∃ t, step { twoFrames with script := [.rst] } = .next t ∧ (t.win == Window.idle) = true := runs_next (by decide)

theorem witness_StatusFields : (blank.result, 0x00) ∈ resultCodes ∧ (ResultCode.illegal, 0x1F) ∈ resultCodes := by decide

theorem witness_RxFlagBitsAndWriters :
    (∃ t, step { blank with rx := { blank.rx with len := 17 }, script := [commandWrite 0x13] } = .next t ∧
        decide (t.rx.flags ≠ blank.rx.flags) = true) ∧
      (∃ t, step { withPacket blank 2 0 0 with script := [commandWrite 0x01] } = .next t ∧
        decide (t.rx.flags ≠ (withPacket blank 2 0 0).rx.flags) = true) ∧
      ∃ t, step { withPacket blank 2 0 0 with script := [.rst] } = .next t ∧
        decide (t.rx.flags ≠ (withPacket blank 2 0 0).rx.flags) = true :=
  ⟨runs_next (by decide), runs_next (by decide), runs_next (by decide)⟩

theorem witness_HardwareResetClearsEverything :
    ({ twoFrames with script := [.rst] } : State).script = [.rst] ∧
      Reg.status ∉ [Reg.id, .cfgPktBudget, .cfgHdrSize, .cfgPayloadCap, .cfgBufCap, .cfgFifoDepth, .cfgRecvWindow,
        .cfgRxTmo, .cfgIdleTmo] := by decide

/-- The smallest and the largest legal instance. -/
theorem witness_ResetStateIsGood :
    (⟨18, 1, 1, 1, 0, 0⟩ : Config).Legal = true ∧
      (⟨4096, 2 ^ 24, 2 ^ 16, 2 ^ 32 - 1, 2 ^ 32 - 1, 2 ^ 32 - 1⟩ : Config).Legal = true := by decide

theorem witness_TickCountsArmedTimersDown :
    ({ blank with script := [.tick], tmr := ⟨true, 1, true, 0⟩ } : State).script = [.tick] := by decide

theorem witness_EncodeEffect :
    i1417.Legal = true ∧ (0x07#8) ∉ kinds ∧ (0x02#8) ∈ kinds ∧ i1417.pktBudget - 17 < (1401#32).toNat ∧
      (0x04#8) ∈ controlKinds ∧ 1#32 ≠ 0#32 ∧ validPacket i1417 0x02#8 1400 ∧ validPacket i1417 0x15#8 0 := by
  refine ⟨by decide, by decide, by decide, by decide, by decide, by decide, ?_, ?_⟩ <;> simp [validPacket, i1417, kinds,
    controlKinds]

theorem witness_EncodeFrameEffect :
    blank.win.role ≠ .send ∧ twoFrames.win.role = .send ∧ twoFrames.cfg.pktBudget - 17 < (1401#32).toNat ∧
      twoFrames.win.len < (1601#32).toNat + (1400#32).toNat ∧ (1400#32).toNat ≤ twoFrames.cfg.pktBudget - 17 ∧
      (1600#32).toNat + (1400#32).toNat ≤ twoFrames.win.len ∧ (3000#32).toNat + (0#32).toNat ≤ twoFrames.win.len := by
  decide

theorem witness_EncodeAckEffect : blank.cfg.Legal = true := by decide

theorem witness_DecodeEffect :
    (withPacket blank 2 0 0).rx.len.toNat = 17 ∧ ({ blank with rx := { blank.rx with len := 16 } } : State).rx.len.toNat < 17 :=
  by decide

theorem witness_CodecRoundTrip :
    (withTx blank 0x02 7 1400).cfg.Legal = true ∧ validPacket i1417 0x02#8 1400 ∧
      (∃ t, exec .encode (withTx blank 0x02 7 1400) = .next t ∧ (t.result == .ok) = true) ∧
      ∃ t, exec .encode (withTx blank 0x15 0 0) = .next t ∧ (t.result == .ok) = true :=
  ⟨by decide, by simp [validPacket, i1417, kinds, controlKinds], runs_next (by decide), runs_next (by decide)⟩

/-- Two states that agree on what a codec command reads and differ elsewhere. -/
theorem witness_CodecIsAPureTransformation :
    (∃ t, exec .encodeFrame { twoFrames with arg1 := 3 } = .next t ∧ (t.result == .ok) = true) ∧
      (∃ t, exec .encodeFrame { twoFrames with arg1 := 3, res0 := 9, result := .range } = .next t ∧ (t.result == .ok) = true) ∧
      (∃ t, exec .decode (withPacket blank 2 0 0) = .next t ∧ (t.result == .ok) = true) ∧
      ∃ t, exec .decode { withPacket blank 2 0 0 with buf := [(0, 1)] } = .next t ∧ (t.result == .ok) = true :=
  ⟨runs_next (by decide), runs_next (by decide), runs_next (by decide), runs_next (by decide)⟩

/-- The same frame from two states whose TXM and TX_* registers differ. -/
theorem witness_RetransmissionIsByteIdentical :
    Inv { twoFrames with arg1 := 3 } ∧ Inv { twoFrames with arg1 := 3, tx := ⟨5, 1, 1, 1, 1, 0⟩, txm := [(30, 9)] } ∧
      (∃ t, exec .encodeFrame { twoFrames with arg1 := 3 } = .next t ∧ (t.result == .ok) = true) ∧
      ∃ t, exec .encodeFrame { twoFrames with arg1 := 3, tx := ⟨5, 1, 1, 1, 1, 0⟩, txm := [(30, 9)] } = .next t ∧
        (t.result == .ok) = true :=
  ⟨{ witness_inv_twoFrames with },
    { witness_inv_twoFrames with txLen := .inl rfl, txm := by decide },
    runs_next (by decide), runs_next (by decide)⟩

theorem witness_WinLoadEffect :
    twoFrames.win.role ≠ .none ∧ blank.win.role = .none ∧ blank.cfg.bufCap < (1048577#32).toNat ∧
      (1048576#32).toNat ≤ blank.cfg.bufCap ∧ (0#32).toNat ≤ blank.cfg.bufCap := by decide

theorem witness_WinSetwinEffect :
    blank.win.role ≠ .send ∧ twoFrames.win.role = .send ∧ (2799#32).toNat < twoFrames.win.pointer - twoFrames.win.head ∧
      twoFrames.win.pointer - twoFrames.win.head ≤ (2800#32).toNat := by decide

/-- Reason 0, reason 1, reason 2 and a frame, each at the value where the next clause begins. -/
theorem witness_WinNextEffect :
    (lastFrame.win.role = .send ∧ lastFrame.win.pointer = lastFrame.win.len) ∧
      (twoFrames.win.pointer ≠ twoFrames.win.len ∧
        min (twoFrames.win.head + twoFrames.win.win) twoFrames.win.len = twoFrames.win.pointer) ∧
      (∃ s : State, s.win.role = .send ∧ s.win.pointer ≠ s.win.len ∧ s.win.pointer < min (s.win.head + s.win.win) s.win.len ∧
        s.win.fifo.length = s.cfg.fifoDepth) ∧
      ((loadedState 1 1).win.role = .send ∧ (loadedState 1 1).win.pointer ≠ (loadedState 1 1).win.len ∧
        (loadedState 1 1).win.pointer < min ((loadedState 1 1).win.head + (loadedState 1 1).win.win) (loadedState 1 1).win.len ∧
        (loadedState 1 1).win.fifo.length ≠ (loadedState 1 1).cfg.fifoDepth ∧ (loadedState 1 1).cfg.Legal = true) :=
  ⟨by decide, by decide,
    ⟨{ blank with cfg := { i1417 with fifoDepth := 1 }, win := ⟨.send, 0, 1400, 3000, 2800, .notSent, 0, [⟨0, 1400⟩]⟩ },
      by decide⟩, by decide⟩

theorem witness_WinPendReadEffect :
    twoFrames.win.role = .send ∧ twoFrames.win.fifo.length ≤ (2#32).toNat ∧
      twoFrames.win.fifo[(1#32).toNat]? = some ⟨1400, 1400⟩ := by decide

/-- ACK 0 and 2801 are rejected, 1 and 2800 are the first and the last accepted. -/
theorem witness_WinAckEffect :
    twoFrames.win.role = .send ∧ ¬ (twoFrames.win.head < (0#32).toNat ∧ (0#32).toNat ≤ twoFrames.win.pointer) ∧
      ¬ (twoFrames.win.head < (2801#32).toNat ∧ (2801#32).toNat ≤ twoFrames.win.pointer) ∧
      (twoFrames.win.head < (1#32).toNat ∧ (1#32).toNat ≤ twoFrames.win.pointer) ∧
      (twoFrames.win.head < (2800#32).toNat ∧ (2800#32).toNat ≤ twoFrames.win.pointer) := by decide

theorem witness_RoleIsCheckedFirst :
    (neededRole .winLoad = some .none ∧ twoFrames.win.role ≠ .none) ∧
      (neededRole .encodeFrame = some .send ∧ blank.win.role ≠ .send) ∧
      (neededRole .winDrain = some .recv ∧ blank.win.role ≠ .recv) := by decide

theorem witness_HeadNeverDecreasesInSend :
    (∃ t, step { twoFrames with arg0 := 1, script := [commandWrite 0x25] } = .next t ∧
        (decide (t.win.role = .send) && t.win.head == 1) = true) ∧
      (∃ t, exec .winNext (loadedState 3000 64) = .next t ∧ (t.result == .ok) = true) ∧
      ∃ t, exec .winAck twoFrames = .next t ∧ (t.result == .ackRejected) = true :=
  ⟨runs_next (by decide), runs_next (by decide), runs_next (by decide)⟩

theorem witness_CompleteExactlyWhenAllAcknowledged :
    (Inv twoFrames ∧ twoFrames.win.role = .send) ∧
      (Inv { lastFrame with arg0 := 3000 } ∧ lastFrame.win.endState ≠ .acked ∧
        ∃ t, exec .winAck { lastFrame with arg0 := 3000 } = .next t ∧ (t.win.endState == .acked) = true) ∧
      (∃ t, exec .winLoad blank = .next t ∧ (t.win.endState == .acked) = true) ∧
      ∃ t, exec .winNext (loadedState 3 3) = .next t ∧ (t.win.endState == .pending) = true :=
  ⟨⟨witness_inv_twoFrames, by decide⟩, ⟨{ witness_inv_lastFrame with }, by decide, runs_next (by decide)⟩,
    runs_next (by decide), runs_next (by decide)⟩

theorem witness_NextFramesLoop :
    Inv (loadedState 3000 64) ∧ (loadedState 3000 64).win.role = .send ∧ ∀ f ∈ (nextFrames 3 (loadedState 3000 64)).1,
      f = ⟨0, 64⟩ :=
  ⟨witness_inv_loaded, by decide, by decide⟩

theorem witness_PendingFramesLoop : Inv twoFrames ∧ twoFrames.win.role = .send := ⟨witness_inv_twoFrames, by decide⟩

/-- One step that produces a frame, and a frame read back. -/
theorem witness_FramesCoverTheTransfer :
    Inv { loadedState 3000 64 with script := [commandWrite 0x23] } ∧
      (runThrough 1 { loadedState 3000 64 with script := [commandWrite 0x23] }).win.role = .send ∧
      produced 1 { loadedState 3000 64 with script := [commandWrite 0x23] } = [⟨0, 64⟩] ∧
      ∃ t, exec .winPendRead twoFrames = .next t ∧ (t.result == .ok) = true :=
  ⟨{ witness_inv_loaded with }, by decide, by decide, runs_next (by decide)⟩

/-- A window of exactly FIFO_DEPTH bytes. -/
theorem witness_SmallWindowNeverFillsTheFifo :
    Inv (loadedState 3000 64) ∧ (loadedState 3000 64).win.win ≤ (loadedState 3000 64).cfg.fifoDepth ∧
      ∃ t, exec .winNext (loadedState 3000 64) = .next t ∧ (t.result == .ok) = true :=
  ⟨witness_inv_loaded, by decide, runs_next (by decide)⟩

theorem witness_AlignedWindowNeverFillsTheFifo :
    Inv twoFrames ∧ twoFrames.win.role = .send ∧ Aligned twoFrames.cfg twoFrames.win ∧
      (∃ t, exec .winNext twoFrames = .next t ∧ (t.result == .noFrame) = true) ∧
      twoFrames.cfg.payloadCap ∣ (1400#32).toNat ∧
      ∃ t, exec .winAck { twoFrames with arg0 := 1400 } = .next t ∧ (t.result == .ok) = true :=
  ⟨witness_inv_twoFrames, by decide,
    { window := ⟨2, by decide⟩, head := by decide, pointer := by decide, frames := by decide }, runs_next (by decide),
    by decide, runs_next (by decide)⟩

theorem witness_WinRecvInitEffect : twoFrames.win.role ≠ .none ∧ blank.win.role = .none := by decide

/-- The first refused and the last accepted size of each bound. -/
theorem witness_WinAcceptEffect :
    blank.win.role ≠ .recv ∧ ((receiver 0).win.role = .recv ∧ (receiver 0).rx.flags.valid = false) ∧
      ((withPacket (receiver 0) 0x05 0 0).rx.flags.valid = true ∧ (withPacket (receiver 0) 0x05 0 0).rx.kind ≠ 0x02#8) ∧
      ((withPacket (receiver 1400) 0x02 0 0).rx.seq.toNat ≠ (receiver 1400).win.pointer) ∧
      ((receiver 1400).win.head + (receiver 1400).win.win < 1400 + (1401#32).toNat) ∧
      (1400 + (1400#32).toNat ≤ (receiver 1400).win.head + (receiver 1400).win.win ∧
        1400 + (1400#32).toNat ≤ (receiver 1400).cfg.bufCap) ∧
      ((withPacket (receiver 1400) 0x02 1400 1400).rx.kind = 0x02#8 ∧
        (withPacket (receiver 1400) 0x02 1400 1400).rx.seq.toNat = (receiver 1400).win.pointer) := by decide

theorem witness_WinDrainEffect : blank.win.role ≠ .recv ∧ (receiver 1400).win.role = .recv := by decide

theorem witness_DrainedRangesAreAdjacent :
    Inv (receiver 1400) ∧ (receiver 1400).win.role = .recv ∧
      (∃ t, exec .winDrain (receiver 1400) = .next t ∧ (t.res1 == 1400#32) = true) ∧
      ∃ t, exec .winAccept (withPacket (receiver 1400) 0x02 1400 2) = .next t ∧
        (decide (t.win.role = .recv) && t.win.pointer == 1402) = true :=
  ⟨witness_inv_receiver, by decide, runs_next (by decide), runs_next (by decide)⟩

/-- The four combinations of the two timeouts. -/
theorem witness_TmrPollEffect :
    (idleTo ⟨false, 0, true, 0⟩ ∧ ¬ rxTo ⟨false, 0, true, 0⟩) ∧ (¬ idleTo ⟨true, 0, true, 1⟩ ∧ rxTo ⟨true, 0, true, 1⟩) ∧
      (¬ idleTo Timers.clear ∧ ¬ rxTo Timers.clear) ∧ idleTo ⟨true, 0, true, 0⟩ ∧ rxTo ⟨true, 0, true, 0⟩ := by
  simp [rxTo, idleTo, Timers.clear]

theorem witness_TimesOutAfterExactlyDTicks :
    (∃ t, exec .tmrRestartRx blank = .next t ∧ (t.tmr.rxCount == 500) = true) ∧
      (∃ t, exec .tmrRestartIdle blank = .next t ∧ (t.tmr.idleCount == 10000) = true) ∧ blank.tmr.rxArmed = false ∧
      blank.tmr.idleArmed = false :=
  ⟨runs_next (by decide), runs_next (by decide), by decide, by decide⟩

/-- Both timers timed out: a tick keeps that, and each of the four ways out is taken. -/
theorem witness_TimeoutIsSticky :
    rxTo ⟨true, 0, true, 0⟩ ∧ idleTo ⟨true, 0, true, 0⟩ ∧
      [Event.tick, .rst, commandWrite 0x30, commandWrite 0x31, commandWrite 0x32, commandWrite 0x01].all
        (fun e => runs (step { blank with tmr := ⟨true, 0, true, 0⟩, script := [e] }) (fun t => t.script == [])) = true :=
  ⟨by simp [rxTo], by simp [idleTo], by decide⟩

theorem witness_TimersAreIndependent :
    Instr.tmrRestartIdle ∉ [Instr.tmrRestartRx, .tmrClear, .reset] ∧
      Instr.tmrRestartRx ∉ [Instr.tmrRestartIdle, .tmrClear, .reset] ∧
      runs (exec .tmrRestartIdle twoFrames) (fun t => t.tmr.idleArmed) = true ∧
      runs (exec .tmrRestartRx twoFrames) (fun t => t.tmr.rxArmed) = true := by decide

theorem witness_IrqLevel :
    (∃ t, exec .tmrRestartRx { blank with cfg := { i1417 with rxTmo := 0 }, tmoIe := true } = .next t ∧ t.irq = true) ∧
      (∃ t, exec .tmrRestartIdle { blank with cfg := { i1417 with idleTmo := 0 }, tmoIe := true } = .next t ∧ t.irq = true) ∧
      (∃ t, exec .tmrRestartRx { blank with tmr := ⟨true, 0, false, 0⟩, tmoIe := true } = .next t ∧ (!t.irq) = true) ∧
      ∃ t, exec .tmrRestartIdle { blank with tmr := ⟨false, 0, true, 0⟩, tmoIe := true } = .next t ∧ (!t.irq) = true :=
  ⟨runs_next (by decide), runs_next (by decide), runs_next (by decide), runs_next (by decide)⟩

theorem witness_EveryCommandCompletes :
    ∃ f, step { blank with script := [.read32 0x02000000] } = .fault f := ⟨_, rfl⟩

/-- The first and the last row of R94's table; each command's results are met by the tests above. -/
theorem witness_ResultCodesByCommand : (ResultCode.ok, 0x00) ∈ resultCodes ∧ (ResultCode.illegal, 0x1F) ∈ resultCodes := by
  decide

/-- One failure for each of the four codes that name another register, and one that names none. -/
theorem witness_FailuresArePrecise :
    runs (exec .winNext (loadedState 3000 0)) (fun t => t.result == .noFrame) = true ∧
      runs (exec .winAccept (withPacket (receiver 0) 0x02 1 1)) (fun t => t.result == .outOfOrder) = true ∧
      runs (exec .winAccept (withPacket (receiver 2800) 0x02 2800 1)) (fun t => t.result == .overflow) = true ∧
      runs (exec .decode blank) (fun t => t.result == .malformed) = true ∧
      runs (exec .winDrain blank) (fun t => t.result == .role) = true := by decide

theorem witness_OnlyTheNamedCommandsWrite :
    Instr.winLoad ∉ [Instr.winNext, .winPendRead, .winAck, .winAccept, .winDrain, .tmrPoll] ∧
      Instr.decode ∉ [Instr.encode, .encodeFrame, .encodeAck] ∧ Instr.encode ≠ .decode ∧ Instr.winDrain ≠ .winAccept ∧
      Instr.tmrPoll.group ≠ .window ∧ Instr.winAck ∉ [Instr.tmrRestartRx, .tmrRestartIdle, .tmrClear, .reset] := by decide

theorem witness_EveryStepKeepsTheInvariant :
    Inv { twoFrames with arg0 := 700, script := [commandWrite 0x25] } ∧
      ∃ t, step { twoFrames with arg0 := 700, script := [commandWrite 0x25] } = .next t ∧ (t.win.head == 700) = true :=
  ⟨{ witness_inv_twoFrames with }, runs_next (by decide)⟩

theorem witness_MirrorRegistersAreExact : Inv twoFrames ∧ Inv blank ∧ Inv (receiver 1400) ∧ Inv lastFrame :=
  ⟨witness_inv_twoFrames, witness_inv_blank, witness_inv_receiver, witness_inv_lastFrame⟩

/-- A legal instance whose reachable states include a sender with a frame outstanding. -/
theorem witness_ReachableStatesKeepR32 :
    i1417.Legal = true ∧
      (runThrough 4 (bootWith i1417 [.write32 0x048 7, commandWrite 0x20, commandWrite 0x22, commandWrite 0x23])).win.fifo =
        [⟨0, 7⟩] := by decide

end Sys2Proof.Tests
end

section
/-! Proofs for the scope family: what every step keeps (R7, R20, R32), that every command completes (R93), and what the
registers and the wire fields show (R9, R11, R29, R40). -/

namespace Sys2Proof.Machine

open Sys2Proof.Spec

variable {s t : State} {e : Event}

/-! ### The invariant -/

/-- Every command keeps the invariant (R32). -/
theorem exec_inv {i : Instr} (h : Inv s) (ht : exec i s = .next t) : Inv t := by
  cases i with
  | nop => exact execNop_next ht ▸ h.setResult _
  | reset => exact execReset_inv h ht
  | encode => exact execEncode_inv h ht
  | encodeFrame => exact execEncodeFrame_inv h ht
  | encodeAck => exact execEncodeAck_inv h ht
  | decode => exact execDecode_inv h ht
  | winLoad => exact execWinLoad_inv h ht
  | winRecvInit => exact execWinRecvInit_inv h ht
  | winSetwin => exact execWinSetwin_inv h ht
  | winNext => exact execWinNext_inv h ht
  | winPendRead => exact execWinPendRead_inv h ht
  | winAck => exact execWinAck_inv h ht
  | winAccept => exact execWinAccept_inv h ht
  | winDrain => exact execWinDrain_inv h ht
  | tmrRestartRx => exact execTmrRestartRx_inv h ht
  | tmrRestartIdle => exact execTmrRestartIdle_inv h ht
  | tmrClear => exact execTmrClear_inv h ht
  | tmrPoll => exact execTmrPoll_inv h ht

/-- No register that a write reaches is bound by the invariant (R18). -/
theorem Inv.writeReg (h : Inv s) (r : Reg) (v : Word) : Inv (writeReg r v s) := by
  rw [writeReg_frame]
  exact { h with }

/-- The time base keeps the invariant (R82). -/
theorem Inv.tickStep (h : Inv s) : Inv (tickStep s) := h.setTmr h.timers.tick

/-- Hardware reset with legal parameters establishes the invariant (R35). -/
theorem inv_resetOf {c : Config} (h : c.Legal = true) : Inv (State.resetOf c) where
  legal := h
  window := Window.good_idle c
  timers := Timers.good_clear c
  txLen := .inl rfl
  rxSize := Nat.zero_le _
  rxFlags := fun _ => rfl
  txm := ⟨Memory.wf_nil, by simp [State.resetOf]⟩
  rxm := ⟨Memory.wf_nil, by simp [State.resetOf]⟩
  buf := ⟨Memory.wf_nil, by simp [State.resetOf]⟩

/-- The reset agent keeps the invariant, since it keeps the parameters (R105). -/
theorem Inv.hardwareReset (h : Inv s) : Inv (hardwareReset s) := (inv_resetOf h.legal).setScript _

/-- Every event keeps the invariant. -/
theorem StepEffect.inv (h : Inv s) (he : StepEffect s e t) : Inv t := by
  cases he with
  | answer _ r => exact h.setReply r
  | register _ r v => exact (h.setReply _).writeReg r v
  | txm _ i v hi => exact (h.setTxm ⟨Memory.wf_write h.txm.1 i v, Memory.within_write h.txm.2 hi⟩).setReply _
  | rxm _ i v hi => exact (h.setRxm ⟨Memory.wf_write h.rxm.1 i v, Memory.within_write h.rxm.2 hi⟩).setReply _
  | buf _ i v hi => exact (h.setBuf ⟨Memory.wf_write h.buf.1 i v, Memory.within_write h.buf.2 hi⟩).setReply _
  | command i _ hx => exact exec_inv (h.setReply _) hx
  | illegal => exact (h.setReply _).setResult _
  | tick => exact h.tickStep
  | rst => exact h.hardwareReset

/-- One step keeps the invariant: the idle block keeps its state, and an event keeps the invariant. -/
theorem step_inv (h : Inv s) (ht : step s = .next t) : Inv t := by
  rcases step_effect ht with ⟨-, rfl⟩ | ⟨e, es, -, he⟩
  · exact h
  · exact he.inv (h.setScript es)

/-! ### The construction-time parameters -/

@[simp] theorem hardwareReset_cfg (s : State) : (hardwareReset s).cfg = s.cfg := rfl

@[simp] theorem tickStep_cfg (s : State) : (tickStep s).cfg = s.cfg := rfl

/-- No event changes the parameters (R20). -/
theorem StepEffect.cfg_eq (he : StepEffect s e t) : t.cfg = s.cfg := by
  cases he with
  | command i _ hx => exact (exec_effect hx).cfg_eq
  | answer | register | txm | rxm | buf | illegal | tick | rst => simp

/-- No step changes the parameters (R20). -/
theorem step_cfg (ht : step s = .next t) : t.cfg = s.cfg := by
  rcases step_effect ht with ⟨-, rfl⟩ | ⟨e, es, -, he⟩
  · rfl
  · exact he.cfg_eq

/-! ### The registers that mirror hidden variables -/

namespace Inv

/-- The window offsets fit in 32 bits, since `len` does (R7, R29). -/
theorem len_lt (h : Inv s) : s.win.len < 2 ^ 32 := by
  have hcap := h.window.lenLeCap
  have hlegal := (Config.legal_iff _).mp h.legal
  omega

theorem pointer_lt (h : Inv s) : s.win.pointer < 2 ^ 32 := h.window.pointerLeLen.trans_lt h.len_lt

theorem head_lt (h : Inv s) : s.win.head < 2 ^ 32 := h.window.headLePointer.trans_lt h.pointer_lt

/-- The end offset is 0 until the last frame is produced, and `len` from then on (R29, R32 I5). -/
theorem endOffset_lt (h : Inv s) : s.win.endOffset < 2 ^ 32 := by
  have hlen := h.len_lt
  cases he : s.win.endState with
  | notSent =>
    have := h.window.endOffset he
    omega
  | pending =>
    have := h.window.pending he
    omega
  | acked =>
    have := h.window.acked he
    omega

theorem fifoCount_lt (h : Inv s) : s.win.fifo.length < 2 ^ 32 := by
  have hdepth := h.window.fifoBound
  have hlegal := (Config.legal_iff _).mp h.legal
  omega

theorem rxCount_lt (h : Inv s) : s.tmr.rxCount < 2 ^ 32 := by
  have hbound := h.timers.rxBound
  have hlegal := (Config.legal_iff _).mp h.legal
  omega

theorem idleCount_lt (h : Inv s) : s.tmr.idleCount < 2 ^ 32 := by
  have hbound := h.timers.idleBound
  have hlegal := (Config.legal_iff _).mp h.legal
  omega

end Inv

/-- TMR_CTRL as a number: RX_ARMED weighs 1 and IDLE_ARMED 2 (R33). -/
theorem Timers.toNat_ctrlWord (t : Timers) :
    t.ctrlWord.toNat = (if t.rxArmed then 1 else 0) + (if t.idleArmed then 2 else 0) := by
  unfold ctrlWord
  cases t.rxArmed <;> cases t.idleArmed <;> decide

/-! ### Wire fields -/

/-- The bytes of a stored field, most significant first (R11, R40). -/
theorem read_putBe32_byte (m : Memory) (o : Nat) (v : Word) {k : Nat} (hk : k < 4) :
    (putBe32 m o v).read (o + k) = v.extractLsb' (24 - 8 * k) 8 := by
  rw [read_putBe32, if_pos (by omega), Nat.add_sub_cancel_left]
  interval_cases k <;> rfl

/-! ### Completion -/

/-- The outcome is a next state: no fault and no refusal (R93). -/
def Completes (o : Host.Outcome State Fault Refusal) : Prop := ∃ t, o = .next t

/-- Every command ends in `finish` (R12). -/
theorem completes_finish (c : ResultCode) (s : State) : Completes (finish c s) := ⟨_, rfl⟩

/-- A test of a command completes when both of its branches do. -/
theorem Completes.ite {p : Prop} [Decidable p] {a b : Host.Outcome State Fault Refusal} (ha : Completes a)
    (hb : Completes b) : Completes (if p then a else b) := by
  split
  · exact ha
  · exact hb

theorem completes_execWinPendRead (s : State) : Completes (execWinPendRead s) := by
  refine .ite (completes_finish _ _) ?_
  cases s.win.fifo[s.argNum0]? with
  | none => exact completes_finish _ _
  | some f => exact completes_finish _ _

/-- Every command completes: along each path of its tests it ends in `finish` (R93). -/
theorem completes_exec (i : Instr) (s : State) : Completes (exec i s) := by
  have fin := completes_finish
  cases i with
  | nop | reset | encodeAck | tmrRestartRx | tmrRestartIdle | tmrClear | tmrPoll => exact fin _ _
  | decode | winRecvInit | winDrain => exact .ite (fin _ _) (fin _ _)
  | encodeFrame | winLoad | winSetwin => exact .ite (fin _ _) (.ite (fin _ _) (fin _ _))
  | winAck => exact .ite (fin _ _) (.ite (fin _ _) (fin _ _))
  | encode => exact .ite (fin _ _) (.ite (fin _ _) (.ite (fin _ _) (fin _ _)))
  | winNext => exact .ite (fin _ _) (.ite (fin _ _) (.ite (fin _ _) (.ite (fin _ _) (fin _ _))))
  | winAccept =>
    exact .ite (fin _ _) (.ite (fin _ _) (.ite (fin _ _) (.ite (fin _ _) (.ite (fin _ _) (fin _ _)))))
  | winPendRead => exact completes_execWinPendRead s

/-- Every command word completes: it is a command's, or it is illegal (R53, R92, R93). -/
theorem completes_runCommand (w : Word) (s : State) : Completes (runCommand w s) := by
  unfold runCommand
  cases decode w with
  | ok i => exact completes_exec i s
  | error _ => exact completes_finish _ _

/-- An event completes, or it is an access that ends in the bus error at its address (R39, R93). -/
theorem perform_cases (e : Event) (s : State) :
    Completes (perform e s) ∨ ∃ a, addressOf e = some a ∧ perform e s = .fault (.busError a) := by
  cases e with
  | read32 a =>
    rcases busRead32_cases a s with ⟨-, -, v, h⟩ | ⟨-, h⟩
    · exact .inl ⟨_, h⟩
    · exact .inr ⟨a, rfl, h⟩
  | read8 a =>
    rcases busRead8_cases a s with ⟨-, v, h⟩ | ⟨-, h⟩
    · exact .inl ⟨_, h⟩
    · exact .inr ⟨a, rfl, h⟩
  | write32 a v =>
    rcases busWrite32_cases a v s with ⟨-, -, ⟨-, h⟩ | ⟨r, -, -, h⟩ | ⟨-, h⟩⟩ | ⟨-, h⟩
    · exact .inl ((congrArg Completes h).mpr (completes_runCommand v _))
    · exact .inl ⟨_, h⟩
    · exact .inl ⟨_, h⟩
    · exact .inr ⟨a, rfl, h⟩
  | write8 a v =>
    rcases busWrite8_cases a v s with ⟨i, -, -, h⟩ | ⟨i, -, -, h⟩ | ⟨i, -, -, h⟩ | ⟨-, h⟩
    · exact .inl ⟨_, h⟩
    · exact .inl ⟨_, h⟩
    · exact .inl ⟨_, h⟩
    · exact .inr ⟨a, rfl, h⟩
  | tick => exact .inl ⟨_, rfl⟩
  | rst => exact .inl ⟨_, rfl⟩

/-- A step completes, or its event is an access that ends in the bus error at its address (R39, R93). -/
theorem step_cases (s : State) :
    Completes (step s) ∨
      ∃ e es a, s.script = e :: es ∧ addressOf e = some a ∧ step s = .fault (.busError a) := by
  cases hs : s.script with
  | nil => exact .inl ⟨s, step_nil hs⟩
  | cons e es =>
    rw [step_cons hs]
    rcases perform_cases e (s.setScript es) with h | ⟨a, ha, h⟩
    · exact .inl h
    · exact .inr ⟨e, es, a, rfl, ha, h⟩

/-! ### The obligations -/

/-- Settles O59: the case split over what a step can do, each case by the law of its state update. -/
theorem everyStepKeepsTheInvariant : Obligations.EveryStepKeepsTheInvariant :=
  fun _ _ h ht => step_inv h ht

/-- Settles O13: the reads are the table's constants, and the parameters are kept by every case of a step's effect. -/
theorem idAndConfigAreConstants : Obligations.IdAndConfigAreConstants :=
  ⟨fun _ => ⟨rfl, rfl, rfl, rfl, rfl, rfl, rfl, rfl, rfl⟩, fun _ _ ht => step_cfg ht⟩

/-- Settles O16: in a state with the invariant no mirrored number is cut off at 32 bits. -/
theorem mirrorRegistersAreExact : Obligations.MirrorRegistersAreExact :=
  fun s h =>
    ⟨toNat_toWord h.head_lt, toNat_toWord h.pointer_lt, toNat_toWord h.len_lt, toNat_toWord h.window.winFits,
      toNat_toWord h.endOffset_lt, toNat_toWord h.fifoCount_lt, toNat_toWord h.rxCount_lt, toNat_toWord h.idleCount_lt,
      s.tmr.toNat_ctrlWord⟩

/-- Settles O25: byte by byte from what a stored field reads. -/
theorem headerFieldsAreBigEndian : Obligations.HeaderFieldsAreBigEndian := by
  intro m o v
  have byte {k : Nat} (hk : k < 4) := read_putBe32_byte m o v hk
  refine ⟨byte (k := 0) (by decide), byte (k := 1) (by decide), byte (k := 2) (by decide), byte (k := 3) (by decide),
    fun i hi => ?_, be32_putBe32 m o v, be32_eq_ofNat m o⟩
  rw [read_putBe32, if_neg (by omega)]

/-- Settles O55: no step has a third outcome beside a next state and the bus error of its access. -/
theorem everyCommandCompletes : Obligations.EveryCommandCompletes := by
  refine ⟨completes_exec, completes_runCommand, fun s r hr => ?_, fun s f hf => ?_⟩
  · rcases step_cases s with ⟨t, h⟩ | ⟨e, es, a, -, -, h⟩
    · cases h.symm.trans hr
    · cases h.symm.trans hr
  · rcases step_cases s with ⟨t, h⟩ | ⟨e, es, a, hs, ha, h⟩
    · cases h.symm.trans hf
    · cases h.symm.trans hf
      exact ⟨e, es, a, hs, ha, rfl⟩

/-- Settles O19: the reset state of legal parameters is good, and the reference ones are legal. -/
theorem resetStateIsGood : Obligations.ResetStateIsGood :=
  ⟨fun _ h => inv_resetOf h, inv_resetOf (by decide)⟩

end Sys2Proof.Machine
end

section
/-! Proofs for the state family: what the register page reads and takes (R18 to R27), what a command write runs (R21),
which commands and resets change each register (R23 to R27, R34, R85, R105), the interrupt level (R98), the frames a host
reads back (R75), and the invariant along whole runs (R32, R39). -/

namespace Sys2Proof.Machine

open Sys2Proof.Spec

variable {s t : State} {e : Event} {es : List Event} {i : Instr} {r : Reg} {w : Word}

/-! ### The run of a command word -/

theorem decode_encode (i : Instr) : decode (encode i) = .ok i := by
  cases i <;> rfl

/-- A word that is legal runs as the command it decodes to (R21, R50). -/
theorem runCommand_of_decode (h : decode w = .ok i) (s : State) : runCommand w s = exec i s := by
  simp only [runCommand, h]

/-- A step whose event is a command write runs the word where the access is over (R21, R44). -/
theorem step_commandWrite (h : s.script = commandWrite w :: es) :
    step s = runCommand w { s with script := es, reply := .written } := by
  rw [step_cons h, perform_commandWrite]
  rfl

/-- A command word is its own table word: its 32 bits are all that the number holds. -/
theorem tableWord_toNat (w : Word) : tableWord 32 w.toNat = some w := by
  have hmod : w.toNat % 2 ^ 32 = w.toNat := Nat.mod_eq_of_lt w.isLt
  simp only [tableWord, hmod, w.isLt, if_true, BitVec.ofNat_toNat, BitVec.setWidth_eq]

theorem withFetchWord_encode (s : State) (i : Instr) :
    s.withFetchWord 32 (encode i).toNat = s.setScript (commandWrite (encode i) :: s.script) := by
  simp only [State.withFetchWord, tableWord_toNat]

/-! ### Reads of the register page -/

theorem readReg_irqEn (s : State) : readReg .irqEn s = if s.tmoIe then 1#32 else 0#32 := by
  unfold readReg
  cases s.tmoIe <;> rfl

theorem readReg_winRole (s : State) :
    readReg .winRole s = match s.win.role with | .none => 0#32 | .send => 1#32 | .recv => 2#32 := by
  unfold readReg
  cases s.win.role <;> rfl

theorem readReg_winEnd (s : State) :
    readReg .winEnd s = match s.win.endState with | .notSent => 0#32 | .pending => 1#32 | .acked => 2#32 := by
  unfold readReg
  cases s.win.endState <;> rfl

/-- R18's table is the read of each register at its own offset. -/
theorem readTable_eq (s : State) : readTable s = Reg.all.map fun r => (r.offset, readReg r s) := by
  simp only [Reg.all, List.map_append, List.map_cons, List.map_nil, readReg_irqEn, readReg_winRole, readReg_winEnd]
  rfl

theorem pageOffsets_eq : pageOffsets = Reg.all.map Reg.offset := rfl

/-- An offset that is not in R18's table is reserved (R19). -/
theorem Reg.at_eq_none {o : Nat} (h : o ∉ pageOffsets) : Reg.at? o = none := by
  rw [Reg.at?, List.find?_eq_none]
  intro r hr ho
  exact h (pageOffsets_eq ▸ List.mem_map.mpr ⟨r, hr, by simpa using ho⟩)

/-- A 32-bit read of a reserved offset answers 0 (R19). -/
theorem busRead32_reserved {a : Word} (hpage : a.toNat < 0x1000) (halign : a.toNat % 4 = 0)
    (hres : Reg.at? a.toNat = none) (s : State) : busRead32 a s = .next (s.setReply (.word 0#32)) := by
  simp only [busRead32, target_page hpage, halign, if_true, hres]

/-! ### Writes of the register page -/

/-- The registers with access RW in R18's table. -/
def rwRegs : List Reg := [.arg0, .arg1, .irqEn, .txKind, .txSeq, .txAck, .txWin, .txDsize, .rxLen]

theorem Reg.access_eq_rw_iff (r : Reg) : r.access = .rw ↔ r ∈ rwRegs := by
  cases r <;> decide

/-- R18's table, write side, is the write of each RW register at its own offset. -/
theorem writeTable_eq (v : Word) (s : State) :
    writeTable v s = rwRegs.map fun r => (r.offset, writeReg r v s) := rfl

/-- A register that is not RW ignores a write (R18, R43). -/
theorem writeReg_eq_self (h : r ∉ rwRegs) (v : Word) (s : State) : writeReg r v s = s := by
  rw [← Reg.access_eq_rw_iff] at h
  cases r with
  | arg0 | arg1 | irqEn | txKind | txSeq | txAck | txWin | txDsize | rxLen => exact absurd rfl h
  | _ => rfl

/-- A 32-bit write that misses CMD and the RW registers changes only the bus's answer (R19, R43). -/
theorem busWrite32_ignored {a : Word} (hpage : a.toNat < 0x1000) (halign : a.toNat % 4 = 0) (hcmd : a.toNat ≠ 0x40)
    (hrw : a.toNat ∉ rwRegs.map Reg.offset) (v : Word) (s : State) :
    busWrite32 a v s = .next (s.setReply .written) := by
  rcases busWrite32_cases a v s with ⟨-, -, ⟨ha, -⟩ | ⟨r, -, ho, h⟩ | ⟨-, h⟩⟩ | ⟨hbad, -⟩
  · exact absurd ha hcmd
  · have hr : r ∉ rwRegs := fun hr => hrw (ho ▸ List.mem_map_of_mem hr)
    rw [h, writeReg_eq_self hr]
  · exact h
  · exact absurd ⟨hpage, halign⟩ hbad

/-! ### The fields of STATUS and the bits of RX_FLAGS -/

theorem code_of_mem_resultCodes {c : ResultCode} {n : Nat} (h : (c, n) ∈ resultCodes) : c.code.toNat = n := by
  have table : ∀ p ∈ resultCodes, p.1.code.toNat = p.2 := by decide
  exact table (c, n) h

/-- A field of STATUS is the code that has the same bits. -/
theorem extractLsb'_status_eq {n k : Nat} {v : BitVec k} (h : ∀ j < k, s.status.getLsbD (n + j) = v.getLsbD j) :
    s.status.extractLsb' n k = v := by
  ext j hj
  rw [BitVec.getElem_extractLsb', h j hj, BitVec.getLsbD_eq_getElem hj]

/-- STATUS bits 15:8 (R22). -/
theorem status_result (s : State) : s.status.extractLsb' 8 8 = s.result.code := by
  refine extractLsb'_status_eq fun j hj => ?_
  rw [State.getLsbD_status]
  interval_cases j <;> simp

/-- STATUS bits 21:20 (R22). -/
theorem status_role (s : State) : s.status.extractLsb' 20 2 = s.win.role.code := by
  refine extractLsb'_status_eq fun j hj => ?_
  rw [State.getLsbD_status]
  interval_cases j <;> simp

/-- STATUS bits 23:22 (R22). -/
theorem status_endState (s : State) : s.status.extractLsb' 22 2 = s.win.endState.code := by
  refine extractLsb'_status_eq fun j hj => ?_
  rw [State.getLsbD_status]
  interval_cases j <;> simp

/-- STATUS bits 7:0 and 31:25 read 0 (R22). -/
theorem status_reserved (s : State) : s.status.extractLsb' 0 8 = 0#8 ∧ s.status.extractLsb' 25 7 = 0#7 := by
  constructor <;> refine extractLsb'_status_eq fun j hj => ?_
  · rw [State.getLsbD_status]
    interval_cases j <;> simp
  · rw [State.getLsbD_status]
    interval_cases j <;> simp

/-- STATUS bit 16, COMPLETE (R22). -/
theorem status_complete (s : State) : s.status.getLsbD 16 = s.complete := by
  rw [State.getLsbD_status]
  simp

/-- STATUS bit 17, RX_TO (R22). -/
theorem status_rxTo (s : State) : s.status.getLsbD 17 = s.tmr.rxTimedOut := by
  rw [State.getLsbD_status]
  simp

/-- STATUS bit 18, IDLE_TO (R22). -/
theorem status_idleTo (s : State) : s.status.getLsbD 18 = s.tmr.idleTimedOut := by
  rw [State.getLsbD_status]
  simp

/-- STATUS bit 19 mirrors RX_FLAGS.VALID (R22). -/
theorem status_valid (s : State) : s.status.getLsbD 19 = s.rx.flags.valid := by
  rw [State.getLsbD_status]
  simp

/-- STATUS bit 24 mirrors `irq` (R22, R98). -/
theorem status_irq (s : State) : s.status.getLsbD 24 = s.irq := by
  rw [State.getLsbD_status]
  simp

theorem Role.toNat_code (r : Role) : r.code.toNat = match r with | .none => 0 | .send => 1 | .recv => 2 := by
  cases r <;> rfl

theorem EndState.toNat_code (x : EndState) :
    x.code.toNat = match x with | .notSent => 0 | .pending => 1 | .acked => 2 := by
  cases x <;> rfl

/-! ### What each command keeps -/

namespace Effect

/-- No command writes the operands, IRQ_EN or RX_LEN (R23, R24, R26). -/
theorem operands_eq (h : Effect s i t) :
    t.arg0 = s.arg0 ∧ t.arg1 = s.arg1 ∧ t.tmoIe = s.tmoIe ∧ t.rx.len = s.rx.len := by
  cases h <;> simp [decodedRx]

/-- No command reads on in the script or answers on the bus (log 1, log 2). -/
theorem bus_eq (h : Effect s i t) : t.script = s.script ∧ t.reply = s.reply := by
  cases h <;> simp

/-- Who writes RES0 and RES1 (R23). -/
theorem res_eq (h : Effect s i t)
    (hi : i ∉ [Instr.winNext, .winPendRead, .winAck, .winAccept, .winDrain, .tmrPoll]) :
    t.res0 = s.res0 ∧ t.res1 = s.res1 := by
  cases h <;> simp at hi ⊢

/-- Only the encoders write TX_* and TXM (R25, R34). -/
theorem tx_eq (h : Effect s i t) (hi : i ∉ [Instr.encode, .encodeFrame, .encodeAck]) :
    t.tx = s.tx ∧ t.txm = s.txm := by
  cases h <;> simp at hi ⊢

/-- Only DECODE writes RXM and the RX_* fields; RESET clears the flags (R26, R34, R91). -/
theorem rx_eq (h : Effect s i t) (hi : i ≠ .decode) : t.rxm = s.rxm ∧ t.rx = { s.rx with flags := t.rx.flags } := by
  cases h <;> simp at hi ⊢

/-- Only WIN_ACCEPT writes BUF (R34). -/
theorem buf_eq (h : Effect s i t) (hi : i ≠ .winAccept) : t.buf = s.buf := by
  cases h <;> simp at hi ⊢

/-- Only the window commands and RESET write the window (R28 to R31, R91). -/
theorem win_eq (h : Effect s i t) (hg : i.group ≠ .window) (hi : i ≠ .reset) : t.win = s.win := by
  cases h <;> simp [Instr.group] at hg hi ⊢

/-- What a command can do to the timers (R85 to R88, R91). -/
theorem tmr_cases (h : Effect s i t) :
    t.tmr = s.tmr ∨ (i = .tmrRestartRx ∧ t.tmr = s.tmr.restartRx s.cfg.rxTmo) ∨
      (i = .tmrRestartIdle ∧ t.tmr = s.tmr.restartIdle s.cfg.idleTmo) ∨
      ((i = .tmrClear ∨ i = .reset) ∧ t.tmr = Timers.clear) := by
  cases h <;> simp

/-- Only the restarts, TMR_CLEAR and RESET write the timers (R85, R91). -/
theorem tmr_eq (h : Effect s i t) (hi : i ∉ [Instr.tmrRestartRx, .tmrRestartIdle, .tmrClear, .reset]) :
    t.tmr = s.tmr := by
  rcases h.tmr_cases with htmr | ⟨rfl, -⟩ | ⟨rfl, -⟩ | ⟨rfl | rfl, -⟩
  · exact htmr
  all_goals exact absurd hi (by decide)

end Effect

/-- Which events can change RX_FLAGS (R27). -/
theorem StepEffect.flags_eq (h : StepEffect s e t) :
    t.rx.flags = s.rx.flags ∨ e = .rst ∨ e = commandWrite (encode .decode) ∨ e = commandWrite (encode .reset) := by
  cases h with
  | command i _ hx =>
    rcases (exec_effect hx).flags_eq with hf | rfl | rfl
    · exact .inl hf
    · exact .inr (.inr (.inl rfl))
    · exact .inr (.inr (.inr rfl))
  | rst => exact .inr (.inl rfl)
  | answer | register | txm | rxm | buf | illegal | tick => exact .inl (by simp [tickStep])

/-! ### The timeouts and the interrupt -/

theorem rxTo_restartRx (t : Timers) (d : Nat) : rxTo (t.restartRx d) ↔ d = 0 := by
  simp [rxTo, Timers.restartRx]

theorem idleTo_restartRx (t : Timers) (d : Nat) : idleTo (t.restartRx d) ↔ idleTo t := Iff.rfl

theorem rxTo_restartIdle (t : Timers) (d : Nat) : rxTo (t.restartIdle d) ↔ rxTo t := Iff.rfl

theorem idleTo_restartIdle (t : Timers) (d : Nat) : idleTo (t.restartIdle d) ↔ d = 0 := by
  simp [idleTo, Timers.restartIdle]

/-- The level of `irq` (R98). -/
theorem irq_iff_timeout (s : State) : s.irq = true ↔ s.tmoIe = true ∧ (rxTo s.tmr ∨ idleTo s.tmr) := by
  rw [s.irq_iff, s.tmr.rxTimedOut_iff, s.tmr.idleTimedOut_iff]
  rfl

/-- `irq` is low while neither timer is timed out (R98). -/
theorem irq_eq_false (hrx : ¬ rxTo s.tmr) (hidle : ¬ idleTo s.tmr) : s.irq = false := by
  rw [← Bool.not_eq_true, irq_iff_timeout]
  exact fun h => h.2.elim hrx hidle

/-- With both timers clear neither is timed out (R35, R88). -/
theorem irq_eq_false_of_clear (h : s.tmr = Timers.clear) : s.irq = false := by
  refine irq_eq_false ?_ ?_ <;> simp [h, rxTo, idleTo, Timers.clear]

/-- A command raises `irq` only by a restart with duration 0: IRQ_EN is kept, so a timeout is new (R24, R98). -/
theorem Effect.irq_raised (h : Effect s i t) (hlow : s.irq = false) (hhigh : t.irq = true) :
    (i = .tmrRestartRx ∧ s.cfg.rxTmo = 0) ∨ (i = .tmrRestartIdle ∧ s.cfg.idleTmo = 0) := by
  obtain ⟨-, -, hie, -⟩ := h.operands_eq
  obtain ⟨hon, hto⟩ := (irq_iff_timeout t).mp hhigh
  have hnone : ¬ (rxTo s.tmr ∨ idleTo s.tmr) := fun hs =>
    Bool.false_ne_true (hlow.symm.trans ((irq_iff_timeout s).mpr ⟨hie ▸ hon, hs⟩))
  rcases h.tmr_cases with htmr | ⟨hi, htmr⟩ | ⟨hi, htmr⟩ | ⟨-, htmr⟩
  · exact absurd (htmr ▸ hto) hnone
  · rw [htmr, rxTo_restartRx, idleTo_restartRx] at hto
    exact .inl ⟨hi, hto.resolve_right fun hidle => hnone (.inr hidle)⟩
  · rw [htmr, rxTo_restartIdle, idleTo_restartIdle] at hto
    exact .inr ⟨hi, hto.resolve_left fun hrx => hnone (.inl hrx)⟩
  · exact absurd hhigh (by simp [irq_eq_false_of_clear htmr])

/-! ### Hardware reset -/

/-- The registers that hardware reset leaves at another value than 0 (R18, R20). -/
def constantRegs : List Reg :=
  [.id, .cfgPktBudget, .cfgHdrSize, .cfgPayloadCap, .cfgBufCap, .cfgFifoDepth, .cfgRecvWindow, .cfgRxTmo, .cfgIdleTmo]

/-- STATUS shows no parameter, so its reset value is that of the reference parameters: 0 (R18, R22). -/
theorem status_hardwareReset (s : State) : (hardwareReset s).status = 0#32 := by
  have href : (hardwareReset s).status = State.reset.status := rfl
  have hzero : State.reset.status = 0#32 := by decide
  exact href.trans hzero

/-- Every register but ID and CFG_* reads 0 after hardware reset (R18, R35). -/
theorem readReg_hardwareReset (hr : r ∉ constantRegs) (s : State) : readReg r (hardwareReset s) = 0#32 := by
  cases r with
  | id | cfgPktBudget | cfgHdrSize | cfgPayloadCap | cfgBufCap | cfgFifoDepth | cfgRecvWindow | cfgRxTmo | cfgIdleTmo =>
    exact absurd hr (by decide)
  | status => exact status_hardwareReset s
  | rxFlags => exact RxFlags.word_clear
  | tmrCtrl => exact Timers.ctrlWord_clear
  | _ => rfl

/-! ### Reading the outstanding frames back -/

/-- WIN_PEND_READ of an outstanding frame (R74). -/
theorem execWinPendRead_of_getElem? {f : Frame} (hr : s.win.role = .send) (hf : s.win.fifo[s.argNum0]? = some f) :
    execWinPendRead s = .next ((s.setRes (toWord f.seq) (toWord f.flen)).setResult .ok) := by
  simp only [execWinPendRead, hr, ne_eq, not_true_eq_false, if_false, hf, finish]

/-- An outstanding frame lies below `pointer`, so both its numbers fit a register (R9, R32 I3). -/
theorem Inv.frame_lt (h : Inv s) (hr : s.win.role = .send) {f : Frame} (hf : f ∈ s.win.fifo) :
    f.seq < 2 ^ 32 ∧ f.flen < 2 ^ 32 := by
  have hmem := (h.window.covers hr).mem hf
  have hptr := h.pointer_lt
  omega

/-- One turn of R75's loop returns the frame at its index. -/
theorem pendRead_eq (h : Inv s) (hr : s.win.role = .send) {k : Nat} (hk : k < s.win.fifo.length) :
    pendRead s k = some s.win.fifo[k] := by
  have hnum : (toWord k).toNat = k := toNat_toWord (hk.trans h.fifoCount_lt)
  have hget : s.win.fifo[(toWord k).toNat]? = some s.win.fifo[k] := by rw [hnum, List.getElem?_eq_getElem hk]
  have hexec := execWinPendRead_of_getElem? (s := { s with arg0 := toWord k }) hr hget
  obtain ⟨hseq, hlen⟩ := h.frame_lt hr (List.getElem_mem hk)
  simp only [pendRead, exec, hexec, State.setResult_result, if_true, State.setResult_res0, State.setResult_res1,
    State.setRes_res0, State.setRes_res1, toNat_toWord hseq, toNat_toWord hlen]

/-- R75's loop returns the FIFO. -/
theorem pendingFrames_eq (h : Inv s) (hr : s.win.role = .send) : pendingFrames s = s.win.fifo.map some := by
  have hcount : (readReg .winFifoCount s).toNat = s.win.fifo.length := toNat_toWord h.fifoCount_lt
  refine List.ext_getElem (by simp [pendingFrames, hcount]) fun k _ hk => ?_
  rw [List.length_map] at hk
  simp [pendingFrames, pendRead_eq h hr hk]

/-! ### Runs that go on after bus errors -/

/-- What a step of such a host can do: the step itself, or the access taken off the script (R39). -/
theorem stepThrough_cases (s : State) : step s = .next (stepThrough s) ∨ stepThrough s = s.afterBusError := by
  rcases step_cases s with ⟨t, h⟩ | ⟨_, _, _, -, -, h⟩
  · exact .inl (by simp only [stepThrough, h])
  · exact .inr (by simp only [stepThrough, h])

theorem stepThrough_inv (h : Inv s) : Inv (stepThrough s) := by
  rcases stepThrough_cases s with hs | hs
  · exact step_inv h hs
  · exact hs ▸ h.setScript _

theorem stepThrough_cfg (s : State) : (stepThrough s).cfg = s.cfg := by
  rcases stepThrough_cases s with hs | hs
  · exact step_cfg hs
  · rw [hs]
    rfl

/-- Every run keeps the invariant. -/
theorem runThrough_inv (k : Nat) (h : Inv s) : Inv (runThrough k s) := by
  induction k generalizing s with
  | zero => exact h
  | succ k ih => exact ih (stepThrough_inv h)

/-- Every run keeps the parameters (R20). -/
theorem runThrough_cfg (k : Nat) (s : State) : (runThrough k s).cfg = s.cfg := by
  induction k generalizing s with
  | zero => rfl
  | succ k ih => exact (ih _).trans (stepThrough_cfg s)

/-! ### The obligations -/

/-- Settles O8: R18's table is the list of all registers, and an offset outside it names none. -/
theorem registerPageReads : Obligations.RegisterPageReads := by
  refine fun s es => ⟨fun o v hmem hs => ?_, fun a hs hpage halign hres => ?_⟩
  · rw [readTable_eq] at hmem
    obtain ⟨r, -, hr⟩ := List.mem_map.mp hmem
    cases hr
    exact (step_cons hs).trans (busRead32_reg r _)
  · exact (step_cons hs).trans (busRead32_reserved hpage halign (Reg.at_eq_none hres) _)

/-- Settles O9: the table's write side is the list of the RW registers, and any other register ignores a write. -/
theorem registerPageWrites : Obligations.RegisterPageWrites := by
  refine fun s v es => ⟨fun o t hmem hs => ?_, fun a hs hpage halign hcmd hrw => ?_⟩
  · rw [writeTable_eq] at hmem
    obtain ⟨r, hr, hrow⟩ := List.mem_map.mp hmem
    cases hrow
    have hcmd : r ≠ .cmd := fun h => absurd (h ▸ hr) (by decide)
    exact (step_cons hs).trans (busWrite32_reg hcmd v _)
  · exact (step_cons hs).trans (busWrite32_ignored hpage halign hcmd hrw v _)

/-- Settles O14: each field of STATUS is the code or the bit of its live view. -/
theorem statusFields : Obligations.StatusFields := by
  refine fun s => ⟨(status_reserved s).1, fun n hn => ?_, ?_, ?_, ?_, ?_, ?_, ?_, ?_, (status_reserved s).2⟩
  · rw [status_result, code_of_mem_resultCodes hn]
  · rw [status_complete, s.complete_iff]
  · rw [status_rxTo, s.tmr.rxTimedOut_iff, rxTo]
  · rw [status_idleTo, s.tmr.idleTimedOut_iff, idleTo]
  · exact status_valid s
  · exact (congrArg BitVec.toNat (status_role s)).trans (Role.toNat_code _)
  · exact (congrArg BitVec.toNat (status_endState s)).trans (EndState.toNat_code _)
  · rw [status_irq, irq_iff_timeout]

/-- Settles O15: the bits by the law of the flags' word, the writers by the case split over what an event can do. -/
theorem rxFlagBitsAndWriters : Obligations.RxFlagBitsAndWriters := by
  refine ⟨fun s => ?_, fun s t e es hs ht hne => ?_⟩
  · have bit (n : Nat) := s.rx.flags.getLsbD_word n
    exact ⟨(bit 0).trans (by simp), (bit 1).trans (by simp), (bit 2).trans (by simp), (bit 3).trans (by simp),
      (bit 4).trans (by simp), (bit 5).trans (by simp), s.rx.flags.toNat_word_lt⟩
  · rw [step_cons hs] at ht
    exact (perform_effect ht).flags_eq.resolve_left hne

/-- Settles O18: the state after hardware reset is written out, so each part of it is read off. -/
theorem hardwareResetClearsEverything : Obligations.HardwareResetClearsEverything := by
  intro s es hs
  refine ⟨hardwareReset (s.setScript es), step_cons hs, rfl, rfl, rfl, rfl, rfl, rfl, fun _ => ⟨rfl, rfl, rfl⟩,
    irq_eq_false_of_clear rfl, fun r hr => readReg_hardwareReset hr _⟩

/-- Settles O38: each turn of the loop reads the frame at its index, and the FIFO covers the range by I3. -/
theorem pendingFramesLoop : Obligations.PendingFramesLoop :=
  fun _ h hr => ⟨pendingFrames_eq h hr, h.window.covers hr⟩

/-- Settles O54: the level follows from what a command does to the timers. -/
theorem irqLevel : Obligations.IrqLevel := by
  refine ⟨fun s => ⟨irq_iff_timeout s, status_irq s⟩, fun i s t ht => (exec_effect ht).irq_raised, ?_⟩
  rintro i s t ht (rfl | rfl | ⟨rfl, hd, hidle⟩ | ⟨rfl, hd, hrx⟩)
  · exact irq_eq_false_of_clear (execTmrClear_next ht ▸ rfl)
  · exact irq_eq_false_of_clear (execReset_next ht ▸ rfl)
  · rw [execTmrRestartRx_next ht]
    exact irq_eq_false ((rxTo_restartRx _ _).not.mpr hd) hidle
  · rw [execTmrRestartIdle_next ht]
    exact irq_eq_false hrx ((idleTo_restartIdle _ _).not.mpr hd)

/-- Settles O58: one frame law of `Effect` for each group of fields. -/
theorem onlyTheNamedCommandsWrite : Obligations.OnlyTheNamedCommandsWrite := by
  intro i s t ht
  have h := exec_effect ht
  obtain ⟨harg0, harg1, hie, hlen⟩ := h.operands_eq
  obtain ⟨hscript, hreply⟩ := h.bus_eq
  exact ⟨h.cfg_eq, harg0, harg1, hie, hlen, hscript, hreply, h.res_eq, h.tx_eq, h.rx_eq, h.buf_eq, h.win_eq, h.tmr_eq⟩

/-- Settles O60: the invariant holds at hardware reset and along every run, and it holds I1 to I7. -/
theorem reachableStatesKeepR32 : Obligations.ReachableStatesKeepR32 := by
  intro c es k hc
  have hinv : Inv (runThrough k (bootWith c es)) := runThrough_inv k ((inv_resetOf hc).setScript es)
  have hcfg : (runThrough k (bootWith c es)).cfg = c := runThrough_cfg k _
  have g := hinv.window
  rw [hcfg] at g
  refine ⟨⟨g.headLePointer, g.pointerLeLen, g.lenLeCap⟩, g.windowBound, g.covers, g.fifoBound, fun hp => ?_, g.acked,
    fun hr => ?_, g.idle⟩
  · obtain ⟨hrole, hptr, hlen, -⟩ := g.pending hp
    exact ⟨hrole, hptr, hlen⟩
  · obtain ⟨hlen, hend, hfifo, -⟩ := g.recv hr
    exact ⟨hlen, hend, hfifo⟩

/-- Settles O7: a command write runs its word, and the word of a command decodes to that command. -/
theorem stepRunsTheDecodedCommand : Obligations.StepRunsTheDecodedCommand := by
  refine ⟨fun s w i es hs hd => ?_, fun s w es hs => step_commandWrite hs, fun s i => ?_⟩
  · rw [step_commandWrite hs, runCommand_of_decode hd]
  · rw [withFetchWord_encode, step_commandWrite rfl, runCommand_of_decode (decode_encode i)]
    rfl

end Sys2Proof.Machine
end

section
/-! Proofs for the memory family: what an access to a RAM window does (R36, R38), when an event is a bus error (R37, R39),
and that a read has no side effect (R43). -/

namespace Sys2Proof.Machine

open Sys2Proof.Spec

variable {s t : State} {e : Event} {es : List Event} {a : Word} {i : Nat}

/-! ### The three RAM windows, under one name -/

namespace Space

/-- How many bytes a RAM has (R34). -/
def size (c : Config) : Space → Nat
  | .txm | .rxm => c.pktBudget
  | .buf => c.bufCap

/-- The RAM of a space. -/
def ram (s : State) : Space → Memory
  | .txm => s.txm
  | .rxm => s.rxm
  | .buf => s.buf

/-- The state with another RAM in a space. -/
def setRam (s : State) (m : Memory) : Space → State
  | .txm => s.setTxm m
  | .rxm => s.setRxm m
  | .buf => s.setBuf m

/-- The byte of a space, as what an address reaches. -/
def target (i : Nat) : Space → Target
  | .txm => .txm i
  | .rxm => .rxm i
  | .buf => .buf i

/-- Every window lies beyond the register page (R36). -/
theorem page_le_base (sp : Space) : 0x1000 ≤ sp.base := by
  cases sp <;> decide

end Space

/-- An address of a window reaches that window's byte: for a legal instance no earlier range of the map holds the address
(R7, R36). -/
theorem target_ram {c : Config} (hc : c.Legal = true) (sp : Space) (hi : i < sp.size c) (ha : a.toNat = sp.base + i) :
    target c a = sp.target i := by
  obtain ⟨-, hbudget, -⟩ := (Config.legal_iff c).mp hc
  cases sp with
  | txm =>
    simp only [Space.base, Space.size, txmBase] at ha hi
    rw [target, if_neg (by omega), txmBase, if_pos (by omega), ha, Nat.add_sub_cancel_left, Space.target]
  | rxm =>
    simp only [Space.base, Space.size, rxmBase] at ha hi
    rw [target, if_neg (by omega), txmBase, if_neg (by omega), rxmBase, if_pos (by omega), ha, Nat.add_sub_cancel_left,
      Space.target]
  | buf =>
    simp only [Space.base, Space.size, bufBase] at ha hi
    rw [target, if_neg (by omega), txmBase, if_neg (by omega), rxmBase, if_neg (by omega), bufBase, if_pos (by omega), ha,
      Nat.add_sub_cancel_left, Space.target]

theorem busRead8_ram {sp : Space} (h : target s.cfg a = sp.target i) :
    busRead8 a s = .next (s.setReply (.byte ((sp.ram s).read i))) := by
  cases sp <;> simp only [busRead8, h, Space.target, Space.ram]

theorem busWrite8_ram {sp : Space} (h : target s.cfg a = sp.target i) (b : Byte) :
    busWrite8 a b s = .next ((sp.setRam s ((sp.ram s).write i b)).setReply .written) := by
  cases sp <;> simp only [busWrite8, h, Space.target, Space.ram, Space.setRam]

/-- A 32-bit read beyond the register page is a bus error (R38, R39). -/
theorem busRead32_beyond_page (h : 0x1000 ≤ a.toNat) (s : State) : busRead32 a s = .fault (.busError a) := by
  rcases busRead32_cases a s with ⟨hpage, -⟩ | ⟨-, hfault⟩
  · omega
  · exact hfault

/-- A 32-bit write beyond the register page is a bus error (R38, R39). -/
theorem busWrite32_beyond_page (h : 0x1000 ≤ a.toNat) (v : Word) (s : State) :
    busWrite32 a v s = .fault (.busError a) := by
  rcases busWrite32_cases a v s with ⟨hpage, -⟩ | ⟨-, hfault⟩
  · omega
  · exact hfault

/-- What each kind of access does at the address of byte `i` of a window (R38). -/
theorem step_ram_accesses (hc : s.cfg.Legal = true) (sp : Space) (hi : i < sp.size s.cfg) (ha : a.toNat = sp.base + i)
    (v : Word) (b : Byte) (es : List Event) :
    (s.script = .read8 a :: es → step s = .next ((s.setScript es).setReply (.byte ((sp.ram s).read i)))) ∧
      (s.script = .write8 a b :: es →
        ∃ m, step s = .next ((sp.setRam (s.setScript es) m).setReply .written) ∧
          ∀ j, m.read j = if j = i then b else (sp.ram s).read j) ∧
      (s.script = .read32 a :: es → step s = .fault (.busError a)) ∧
      (s.script = .write32 a v :: es → step s = .fault (.busError a)) := by
  have htarget : target (s.setScript es).cfg a = sp.target i := target_ram hc sp hi ha
  have hram : sp.ram (s.setScript es) = sp.ram s := by cases sp <;> rfl
  have hbeyond : 0x1000 ≤ a.toNat := ha ▸ Nat.le_add_right_of_le sp.page_le_base
  refine ⟨fun h => ?_, fun h => ⟨(sp.ram s).write i b, ?_, Memory.read_write _ i b⟩, fun h => ?_, fun h => ?_⟩
  · rw [step_cons h, perform, busRead8_ram htarget, hram]
  · rw [step_cons h, perform, busWrite8_ram htarget, hram]
  · rw [step_cons h, perform, busRead32_beyond_page hbeyond]
  · rw [step_cons h, perform, busWrite32_beyond_page hbeyond]

/-! ### Bus errors -/

/-- An event either is allowed and completes, or is not allowed and ends in the bus error at its address
(R37, R38, R39). -/
theorem perform_allowed_cases (e : Event) (s : State) :
    (allowed s.cfg e ∧ Completes (perform e s)) ∨
      (¬ allowed s.cfg e ∧ ∃ a, addressOf e = some a ∧ perform e s = .fault (.busError a)) := by
  cases e with
  | read32 a =>
    rcases busRead32_cases a s with ⟨hpage, halign, v, h⟩ | ⟨hno, h⟩
    · exact .inl ⟨⟨hpage, halign⟩, _, h⟩
    · exact .inr ⟨hno, a, rfl, h⟩
  | read8 a =>
    rcases busRead8_cases a s with ⟨hram, v, h⟩ | ⟨hno, h⟩
    · exact .inl ⟨hram, _, h⟩
    · exact .inr ⟨hno, a, rfl, h⟩
  | write32 a v =>
    rcases busWrite32_cases a v s with ⟨hpage, halign, ⟨-, h⟩ | ⟨r, -, -, h⟩ | ⟨-, h⟩⟩ | ⟨hno, h⟩
    · exact .inl ⟨⟨hpage, halign⟩, (congrArg Completes h).mpr (completes_runCommand v _)⟩
    · exact .inl ⟨⟨hpage, halign⟩, _, h⟩
    · exact .inl ⟨⟨hpage, halign⟩, _, h⟩
    · exact .inr ⟨hno, a, rfl, h⟩
  | write8 a v =>
    rcases busWrite8_cases a v s with ⟨i, -, hram, h⟩ | ⟨i, -, hram, h⟩ | ⟨i, -, hram, h⟩ | ⟨hno, h⟩
    · exact .inl ⟨hram, _, h⟩
    · exact .inl ⟨hram, _, h⟩
    · exact .inl ⟨hram, _, h⟩
    · exact .inr ⟨hno, a, rfl, h⟩
  | tick => exact .inl ⟨trivial, _, rfl⟩
  | rst => exact .inl ⟨trivial, _, rfl⟩

/-! ### Reads -/

/-- A read that completes changes only the bus's answer (R43). -/
theorem perform_read (he : e = .read32 a ∨ e = .read8 a) (h : perform e s = .next t) : t = s.setReply t.reply := by
  rcases he with rfl | rfl
  · rcases busRead32_cases a s with ⟨-, -, v, h'⟩ | ⟨-, h'⟩
    · cases h'.symm.trans h
      rfl
    · cases h'.symm.trans h
  · rcases busRead8_cases a s with ⟨-, v, h'⟩ | ⟨-, h'⟩
    · cases h'.symm.trans h
      rfl
    · cases h'.symm.trans h

/-! ### The obligations -/

/-- Settles O10: the three windows are three cases of one law. -/
theorem ramWindowAccesses : Obligations.RamWindowAccesses :=
  fun _ _ v b _ es hc =>
    ⟨fun hi ha => step_ram_accesses hc .txm hi ha v b es, fun hi ha => step_ram_accesses hc .rxm hi ha v b es,
      fun hi ha => step_ram_accesses hc .buf hi ha v b es⟩

/-- Settles O11: the two cases of an event exclude each other. -/
theorem busErrorExactlyWhenNotAllowed : Obligations.BusErrorExactlyWhenNotAllowed := by
  intro s e es hs f
  rw [step_cons hs]
  rcases perform_allowed_cases e (s.setScript es) with ⟨hok, t, h⟩ | ⟨hno, a, ha, h⟩
  · refine ⟨fun hf => ?_, fun hno => absurd hok hno.1⟩
    cases h.symm.trans hf
  · refine ⟨fun hf => ?_, ?_⟩
    · cases h.symm.trans hf
      exact ⟨hno, a, ha, rfl⟩
    · rintro ⟨-, a', ha', rfl⟩
      cases ha.symm.trans ha'
      exact h

/-- Settles O12: a read of either width is one event that answers. -/
theorem readsHaveNoSideEffect : Obligations.ReadsHaveNoSideEffect := by
  intro s t a es hs ht
  rcases hs with hs | hs
  · rw [step_cons hs] at ht
    exact perform_read (.inl rfl) ht
  · rw [step_cons hs] at ht
    exact perform_read (.inr rfl) ht

end Sys2Proof.Machine
end

section
/-! Proofs for the encoding family: the decoder and the encoder as inverses (R50, R52), the words the decoder refuses and
what such a word does (R53, R92), and the script's pseudo-instructions (R59). -/

namespace Sys2Proof.Machine

open Sys2Proof.Spec

variable {i : Instr} {w : Word}

/-! ### The decoder on every word -/

/-- A word decodes to a command exactly when it is that command's word (R50, R52). -/
theorem decode_eq_ok_iff : decode w = .ok i ↔ w = encode i := by
  constructor
  · intro h
    exact BitVec.eq_of_toNat_eq (decode_ok h).2
  · rintro rfl
    exact decode_encode i

/-- A word with a reserved bit set is refused for it, whatever its opcode (R50, R53). -/
theorem decode_of_reserved_bits (h : 256 ≤ w.toNat) : decode w = .error .reservedBits := by
  have hrsv : fieldRsv w ≠ 0#24 := by
    intro h0
    have hdiv : w.toNat / 256 = 0 := by
      rw [← toNat_fieldRsv, h0]
      rfl
    omega
  simp only [decode, if_pos hrsv]

theorem illegalWord_of_decode_error {e : DecodeError} (h : decode w = .error e) : illegalWord w := by
  rcases decode_error h with hrsv | hop
  · exact .inl hrsv
  · have hgap := decodeOpcode_eq_none hop
    rw [toNat_fieldOp] at hgap
    simp only [illegalWord]
    omega

/-- No opcode of R52's table lies in a gap of R53. -/
theorem not_illegalWord_encode (i : Instr) : ¬ illegalWord (encode i) := by
  cases i <;> simp [illegalWord, encode]

/-- R53's ranges are what the decoder refuses: a word that it accepts is a command's word, and those lie in no range. -/
theorem exists_decode_error_iff : (∃ e, decode w = .error e) ↔ illegalWord w := by
  constructor
  · rintro ⟨e, he⟩
    exact illegalWord_of_decode_error he
  · intro hw
    cases hd : decode w with
    | ok i => exact absurd (decode_eq_ok_iff.mp hd ▸ hw) (not_illegalWord_encode i)
    | error e => exact ⟨e, rfl⟩

/-- Every refused word runs as ILLEGAL, for whatever reason it is refused (R53, R92). -/
theorem runCommand_of_decode_error {e : DecodeError} (h : decode w = .error e) (s : State) :
    runCommand w s = .next (s.setResult .illegal) := by
  simp only [runCommand, h]
  rfl

/-! ### The obligations -/

/-- Settles O3: an illegal word is one the decoder refuses. -/
theorem illegalWordOnlyReportsIllegal : Obligations.IllegalWordOnlyReportsIllegal := by
  intro s w hw
  obtain ⟨e, he⟩ := exists_decode_error_iff.mpr hw
  exact runCommand_of_decode_error he s

/-- Settles O4. -/
theorem decoderRefusesExactlyIllegalWords : Obligations.DecoderRefusesExactlyIllegalWords :=
  fun _ => exists_decode_error_iff

/-- Settles O5: both directions are the one equivalence of decoding with being the command's word. -/
theorem decodeAndEncodeAgree : Obligations.DecodeAndEncodeAgree :=
  ⟨fun i _ => decode_encode i, fun _ _ h => (decode_eq_ok_iff.mp h).symm⟩

/-- Settles O6: four are words of the encoder's table, and the fifth has bit 8 set. -/
theorem specWordsDecode : Obligations.SpecWordsDecode :=
  ⟨decode_encode .reset, decode_encode .encodeFrame, decode_encode .winAck, decode_encode .tmrPoll,
    decode_of_reserved_bits (by decide)⟩

/-- Settles O17: each line of R59's table is an equation of `Line.expand`, with R18's offsets and R52's words in it. -/
theorem pseudoInstructionsExpand : Obligations.PseudoInstructionsExpand :=
  ⟨fun _ => rfl, fun _ => ⟨rfl, rfl, rfl, rfl, rfl, rfl⟩, fun _ _ => rfl, fun _ _ _ _ _ => rfl, fun _ => rfl⟩

end Sys2Proof.Machine
end

section
/-! Proofs for the codec family: the outcomes of ENCODE, ENCODE_FRAME, ENCODE_ACK and DECODE (R61 to R65), the wire image an
encoder leaves in TXM (R55), what a codec command reads and writes (R60), and encode followed by decode (R66). -/

namespace Sys2Proof.Machine

open Sys2Proof.Spec

variable {s s' t t' : State} {i : Instr} {c : Config} {k : Byte} {d : Nat}

/-! ### Kinds and valid packets, as the statements write them -/

/-- KINDS (R13). -/
theorem isKind_iff_mem : isKind k = true ↔ k ∈ kinds := by
  rw [isKind_iff]
  simp only [kinds, List.mem_cons, List.not_mem_nil, or_false, kindSyn, kindAck, kindData, kindEot]
  tauto

/-- CONTROL (R13). -/
theorem isControl_iff_mem : isControl k = true ↔ k ∈ controlKinds := by
  rw [isControl_iff]
  simp only [controlKinds, List.mem_cons, List.not_mem_nil, or_false, kindSyn, kindAck, kindEot]

theorem isKind_of_isControl (h : isControl k = true) : isKind k = true := by
  simp only [isKind, h, Bool.true_or]

/-- R56's three conditions are the tests of ENCODE. -/
theorem validPacket_iff :
    validPacket c k d ↔ isKind k = true ∧ d ≤ c.payloadCap ∧ ¬ (isControl k = true ∧ d ≠ 0) := by
  rw [isKind_iff_mem, isControl_iff_mem, not_and_not_right]
  rfl

/-! ### The outcomes of each command, forwards -/

/-- What an encoder writes, as one record update (R60, R61). -/
theorem setTxm_setTx_setResult (s : State) (m : Memory) (x : TxRegs) (r : ResultCode) :
    ((s.setTxm m).setTx x).setResult r = { s with txm := m, tx := x, result := r } := rfl

/-- What DECODE writes, as one record update (R60, R65). -/
theorem setRx_setRxm_setResult (s : State) (m : Memory) (x : RxRegs) (r : ResultCode) :
    ((s.setRx x).setRxm m).setResult r = { s with rxm := m, rx := x, result := r } := rfl

theorem exec_encode_badKind (h : isKind s.tx.kind = false) : exec .encode s = .next (s.setResult .badKind) :=
  if_pos h

theorem exec_encode_badDsize (hk : isKind s.tx.kind = true)
    (hd : s.cfg.payloadCap < s.tx.dsize.toNat ∨ (isControl s.tx.kind = true ∧ s.tx.dsize.toNat ≠ 0)) :
    exec .encode s = .next (s.setResult .badDsize) := by
  have hk' : ¬ isKind s.tx.kind = false := by simp [hk]
  rw [exec, execEncode, if_neg hk']
  by_cases hcap : s.cfg.payloadCap < s.tx.dsize.toNat
  · exact if_pos hcap
  · rw [if_neg hcap]
    exact if_pos (hd.resolve_left hcap)

theorem exec_encode_ok (h : validPacket s.cfg s.tx.kind s.tx.dsize.toNat) :
    exec .encode s =
      .next
        (((s.setTxm (encodeImage s.cfg s.txm s.tx.kind s.tx.seq s.tx.ack s.tx.win s.tx.dsize)).setTx
          { s.tx with len := toWord s.cfg.pktBudget }).setResult .ok) := by
  obtain ⟨hk, hcap, hctrl⟩ := validPacket_iff.mp h
  have hk' : ¬ isKind s.tx.kind = false := by simp [hk]
  rw [exec, execEncode, if_neg hk', if_neg hcap.not_gt, if_neg hctrl, finish]

theorem exec_encodeFrame_role (h : s.win.role ≠ .send) : exec .encodeFrame s = .next (s.setResult .role) :=
  if_pos h

theorem exec_encodeFrame_range (hr : s.win.role = .send)
    (h : s.cfg.payloadCap < s.argNum1 ∨ s.win.len < s.argNum0 + s.argNum1) :
    exec .encodeFrame s = .next (s.setResult .range) := by
  rw [exec, execEncodeFrame, if_neg (not_not.mpr hr), if_pos h, finish]

theorem exec_encodeFrame_ok (hr : s.win.role = .send) (hn : s.argNum1 ≤ s.cfg.payloadCap)
    (hl : s.argNum0 + s.argNum1 ≤ s.win.len) :
    exec .encodeFrame s =
      .next
        (((s.setTxm (frameImage s.cfg s.txm s.buf s.argNum0 s.argNum1)).setTx
          { kind := kindData, seq := s.arg0, ack := 0#32, win := 0#32, dsize := s.arg1,
            len := toWord s.cfg.pktBudget }).setResult .ok) := by
  rw [exec, execEncodeFrame, if_neg (not_not.mpr hr), if_neg (not_or.mpr ⟨hn.not_gt, hl.not_gt⟩), finish]

/-- ENCODE_FRAME ends OK only where it wrote the frame's image (R62). -/
theorem execEncodeFrame_ok_inv (h : execEncodeFrame s = .next t) (hok : t.result = .ok) :
    s.argNum1 ≤ s.cfg.payloadCap ∧
      t = ((s.setTxm (frameImage s.cfg s.txm s.buf s.argNum0 s.argNum1)).setTx
        { kind := kindData, seq := s.arg0, ack := 0#32, win := 0#32, dsize := s.arg1,
          len := toWord s.cfg.pktBudget }).setResult .ok := by
  rcases execEncodeFrame_next h with ⟨-, rfl⟩ | ⟨-, -, rfl⟩ | ⟨-, hn, -, ht⟩
  · cases hok
  · cases hok
  · exact ⟨hn, ht⟩

theorem exec_decode_malformed (h : s.rx.len.toNat < Config.hdrSize) :
    exec .decode s = .next ((s.setRx { s.rx with flags := RxFlags.clear }).setResult .malformed) :=
  if_pos h

theorem exec_decode_ok (h : Config.hdrSize ≤ s.rx.len.toNat) :
    exec .decode s =
      .next
        (((s.setRx (decodedRx s (be32 s.rxm 13))).setRxm
          (s.rxm.zero (Config.hdrSize + effectiveSize s.cfg s.rx.len.toNat (be32 s.rxm 13).toNat)
            s.cfg.pktBudget)).setResult .ok) :=
  if_neg h.not_gt

/-! ### Wire images -/

theorem headerIs_putHeader (m : Memory) (kind : Byte) (seq ack win dsize : Word) :
    headerIs (putHeader m kind seq ack win dsize) kind seq ack win dsize :=
  ⟨read_putHeader_kind m kind seq ack win dsize, fun _ hk => read_putHeader_fields m kind seq ack win dsize hk⟩

/-- The header is a matter of the first 17 bytes (R55). -/
theorem headerIs_congr {m m' : Memory} {kind : Byte} {seq ack win dsize : Word}
    (h : ∀ i, i < Config.hdrSize → m'.read i = m.read i) (hm : headerIs m kind seq ack win dsize) :
    headerIs m' kind seq ack win dsize := by
  simp only [Config.hdrSize] at h
  obtain ⟨hkind, hfields⟩ := hm
  refine ⟨(h 0 (by omega)).trans hkind, fun k hk => ?_⟩
  rw [h (1 + k) (by omega), h (5 + k) (by omega), h (9 + k) (by omega), h (13 + k) (by omega)]
  exact hfields k hk

/-- A legal instance has room for a header and PAYLOAD_CAP bytes in its packet (R7). -/
theorem Config.hdrSize_add_le (hc : c.Legal = true) (hd : d ≤ c.payloadCap) : Config.hdrSize + d ≤ c.pktBudget :=
  Config.payloadCap_add hc ▸ Nat.add_le_add_left hd _

theorem Config.hdrSize_le (hc : c.Legal = true) : Config.hdrSize ≤ c.pktBudget :=
  hdrSize_add_le hc (Nat.zero_le _)

/-- An encoded image, region by region (R55, R61). -/
theorem encodeImage_regions (hc : Config.hdrSize ≤ c.pktBudget) (m : Memory) (kind : Byte) (seq ack win dsize : Word) :
    headerIs (encodeImage c m kind seq ack win dsize) kind seq ack win dsize ∧
      (∀ i, Config.hdrSize ≤ i → i < Config.hdrSize + dsize.toNat →
        (encodeImage c m kind seq ack win dsize).read i = m.read i) ∧
      (∀ i, Config.hdrSize + dsize.toNat ≤ i → i < c.pktBudget →
        (encodeImage c m kind seq ack win dsize).read i = 0#8) ∧
      ∀ i, c.pktBudget ≤ i → (encodeImage c m kind seq ack win dsize).read i = m.read i := by
  have read := read_encodeImage c m kind seq ack win dsize
  refine ⟨headerIs_congr (fun i hi => ?_) (headerIs_putHeader m kind seq ack win dsize), fun i hlo hhi => ?_,
    fun i hlo hhi => ?_, fun i hi => ?_⟩
  · rw [read, if_neg (by omega)]
  · rw [read, if_neg (by omega), read_putHeader_payload _ _ _ _ _ _ hlo]
  · rw [read, if_pos ⟨hlo, hhi⟩]
  · rw [read, if_neg (by omega), read_putHeader_payload _ _ _ _ _ _ (hc.trans hi)]

/-- A frame's image, region by region (R62). -/
theorem frameImage_regions {q n : Nat} (hn : Config.hdrSize + n ≤ c.pktBudget) (txm buf : Memory) :
    headerIs (frameImage c txm buf q n) kindData (toWord q) 0#32 0#32 (toWord n) ∧
      (∀ k, k < n → (frameImage c txm buf q n).read (Config.hdrSize + k) = buf.read (q + k)) ∧
      (∀ i, Config.hdrSize + n ≤ i → i < c.pktBudget → (frameImage c txm buf q n).read i = 0#8) ∧
      ∀ i, c.pktBudget ≤ i → (frameImage c txm buf q n).read i = txm.read i := by
  have read := read_frameImage c txm buf q n
  refine ⟨headerIs_congr (fun i hi => ?_) (headerIs_putHeader txm kindData (toWord q) 0#32 0#32 (toWord n)),
    fun k hk => ?_, fun i hlo hhi => ?_, fun i hi => ?_⟩
  · rw [read, if_neg (by omega), if_neg (by omega)]
  · rw [read, if_neg (by omega), if_pos (by omega), Nat.add_sub_cancel_left, Nat.add_comm k q]
  · rw [read, if_pos ⟨hlo, hhi⟩]
  · rw [read, if_neg (by omega), if_neg (by omega), read_putHeader_payload _ _ _ _ _ _ (by omega)]

/-- A frame's image does not depend on what TXM held: within the packet it is written in full, and past it a TXM of the
right size reads 0 (R62, R75). -/
theorem frameImage_eq {txm txm' buf : Memory} {q n : Nat} (h : txm.wf ∧ txm.within c.pktBudget)
    (h' : txm'.wf ∧ txm'.within c.pktBudget) (hbuf : buf.wf) (hn : Config.hdrSize + n ≤ c.pktBudget) :
    frameImage c txm buf q n = frameImage c txm' buf q n := by
  refine Memory.ext_read (wf_frameImage h.1 hbuf q n) (wf_frameImage h'.1 hbuf q n) fun i => ?_
  by_cases hpast : c.pktBudget ≤ i
  · rw [Memory.read_of_within (within_frameImage h.2 hn) hpast, Memory.read_of_within (within_frameImage h'.2 hn) hpast]
  · rw [read_frameImage, read_frameImage]
    by_cases hhdr : i < Config.hdrSize
    · rw [read_putHeader_header txm _ _ _ _ _ txm' hhdr]
    · by_cases hpayload : i < Config.hdrSize + n
      · rw [if_neg (by omega), if_pos (by omega), if_neg (by omega), if_pos (by omega)]
      · rw [if_pos (by omega), if_pos (by omega)]

/-! ### What DECODE computes -/

/-- The six flags by R65's conditions. -/
theorem decodeFlags_eq (c : Config) (len : Nat) (kind : Byte) (raw : Nat) :
    decodeFlags c len kind raw =
      { valid := true
        badKind := decide (kind ∉ kinds)
        overCap := decide (c.pktBudget - 17 < raw)
        trunc := decide (min len c.pktBudget - 17 < raw)
        ctrlPayload := decide (kind ∈ controlKinds ∧ raw ≠ 0)
        overLen := decide (c.pktBudget < len) } := by
  have hkind : (!isKind kind) = decide (kind ∉ kinds) := by
    rw [Bool.eq_iff_iff, Bool.not_eq_true', decide_eq_true_iff, ← isKind_iff_mem, Bool.not_eq_true]
  have hctrl : (isControl kind && raw != 0) = decide (kind ∈ controlKinds ∧ raw ≠ 0) := by
    rw [Bool.eq_iff_iff, Bool.and_eq_true, isControl_iff_mem, bne_iff_ne, decide_eq_true_iff]
  rw [decodeFlags, hkind, hctrl]
  rfl

/-- A packet of a full datagram has its whole payload in it (R64). -/
theorem effectiveSize_of_le (h : d ≤ c.payloadCap) : effectiveSize c c.pktBudget d = d := by
  simp only [effectiveSize, payloadPresent, Config.payloadCap] at h ⊢
  omega

/-- A valid packet in a full datagram raises no flag but VALID (R66). -/
theorem decodeFlags_of_validPacket (h : validPacket c k d) :
    decodeFlags c c.pktBudget k d = ⟨true, false, false, false, false, false⟩ := by
  obtain ⟨hkind, hcap, hctrl⟩ := h
  have hctrl' : ¬ (k ∈ controlKinds ∧ d ≠ 0) := fun hk => hk.2 (hctrl hk.1)
  simp [decodeFlags_eq, hkind, hctrl', hcap]

/-- The fields a decoder finds where a packet was encoded (R55, R66). -/
theorem fields_of_encodeImage {m txm : Memory} {kind : Byte} {seq ack win dsize : Word}
    (h : ∀ i, i < Config.hdrSize → m.read i = (encodeImage c txm kind seq ack win dsize).read i) :
    m.read 0 = kind ∧ be32 m 1 = seq ∧ be32 m 5 = ack ∧ be32 m 9 = win ∧ be32 m 13 = dsize := by
  have hput (i : Nat) (hi : i < Config.hdrSize) : m.read i = (putHeader txm kind seq ack win dsize).read i := by
    rw [h i hi, read_encodeImage, if_neg (by omega)]
  simp only [Config.hdrSize] at hput
  have field {o : Nat} (ho : o + 4 ≤ 17) : be32 m o = be32 (putHeader txm kind seq ack win dsize) o :=
    be32_congr fun i _ hi => hput i (by omega)
  refine ⟨?_, ?_, ?_, ?_, ?_⟩
  · rw [hput 0 (by omega), read_putHeader_kind]
  · rw [field (by omega), be32_putHeader_seq]
  · rw [field (by omega), be32_putHeader_ack]
  · rw [field (by omega), be32_putHeader_win]
  · rw [field (by omega), be32_putHeader_dsize]

/-- DECODE of a full datagram that carries the image of a valid packet (R65, R66). -/
theorem exec_decode_encodeImage {txm : Memory} {kind : Byte} {seq ack win dsize : Word} (hcfg : s.cfg = c)
    (hc : c.Legal = true) (hvalid : validPacket c kind dsize.toNat) (hlen : s.rx.len = toWord c.pktBudget)
    (hrxm : ∀ i, i < c.pktBudget → s.rxm.read i = (encodeImage c txm kind seq ack win dsize).read i) :
    exec .decode s =
      .next
        (((s.setRx ⟨toWord c.pktBudget, kind, seq, ack, win, dsize, dsize,
          ⟨true, false, false, false, false, false⟩⟩).setRxm
            (s.rxm.zero (Config.hdrSize + dsize.toNat) c.pktBudget)).setResult .ok) := by
  subst hcfg
  have hhdr := Config.hdrSize_le hc
  obtain ⟨-, hcap, -⟩ := validPacket_iff.mp hvalid
  have hnum : s.rx.len.toNat = s.cfg.pktBudget := by
    have hlegal := (Config.legal_iff _).mp hc
    rw [hlen, toNat_toWord (by omega)]
  obtain ⟨hkind, hseq, hack, hwin, hdsize⟩ := fields_of_encodeImage fun i hi => hrxm i (hi.trans_le hhdr)
  rw [exec_decode_ok (hhdr.trans_eq hnum.symm), decodedRx, hnum, hkind, hseq, hack, hwin, hdsize,
    effectiveSize_of_le hcap, decodeFlags_of_validPacket hvalid, toWord_toNat, hlen]

/-! ### What a codec command reads and writes -/

/-- The codec commands write nothing but the codec's registers, its RAMs and RESULT (R60). -/
theorem Effect.codec_frame (h : Effect s i t) (hi : i.group = .codec) :
    t = { s with tx := t.tx, rx := t.rx, txm := t.txm, rxm := t.rxm, result := t.result } := by
  obtain ⟨harg0, harg1, hie, -⟩ := h.operands_eq
  obtain ⟨hscript, hreply⟩ := h.bus_eq
  have ne {j : Instr} (hj : j.group ≠ .codec) : i ≠ j := fun e => hj (e ▸ hi)
  have notMem {js : List Instr} (hjs : ∀ j ∈ js, j.group ≠ .codec) : i ∉ js := fun hmem => hjs i hmem hi
  obtain ⟨hres0, hres1⟩ := h.res_eq (notMem (by decide))
  have hwin := h.win_eq (hi ▸ by decide) (ne (by decide))
  have hbuf := h.buf_eq (ne (by decide))
  have htmr := h.tmr_eq (notMem (by decide))
  rw [← h.cfg_eq, ← harg0, ← harg1, ← hie, ← hscript, ← hreply, ← hres0, ← hres1, ← hwin, ← hbuf, ← htmr]

/-- Two states of one instance hold the same in the codec's registers and packet RAMs. -/
structure SameCodec (s s' : State) : Prop where
  cfg : s.cfg = s'.cfg
  tx : s.tx = s'.tx
  rx : s.rx = s'.rx
  txm : s.txm = s'.txm
  rxm : s.rxm = s'.rxm

/-- Where both outcomes are next states, these agree in the codec's part and in RESULT. -/
def SameAnswer (o o' : Host.Outcome State Fault Refusal) : Prop :=
  ∀ t t', o = .next t → o' = .next t' → SameCodec t t' ∧ t.result = t'.result

/-- Two commands that make one test answer alike when they do so on both of its branches. -/
theorem SameAnswer.ite {p : Prop} [Decidable p] {a b a' b' : Host.Outcome State Fault Refusal} (ha : SameAnswer a a')
    (hb : SameAnswer b b') : SameAnswer (if p then a else b) (if p then a' else b') := by
  split
  · exact ha
  · exact hb

namespace SameCodec

theorem setTx (h : SameCodec s s') (x : TxRegs) : SameCodec (s.setTx x) (s'.setTx x) := { h with tx := rfl }

theorem setRx (h : SameCodec s s') (x : RxRegs) : SameCodec (s.setRx x) (s'.setRx x) := { h with rx := rfl }

theorem setTxm (h : SameCodec s s') (m : Memory) : SameCodec (s.setTxm m) (s'.setTxm m) := { h with txm := rfl }

theorem setRxm (h : SameCodec s s') (m : Memory) : SameCodec (s.setRxm m) (s'.setRxm m) := { h with rxm := rfl }

theorem finish (h : SameCodec s s') (r : ResultCode) : SameAnswer (finish r s) (finish r s') := by
  intro t t' ht ht'
  rw [finish_inv ht, finish_inv ht']
  exact ⟨{ h with }, rfl⟩

theorem execEncode (h : SameCodec s s') : SameAnswer (execEncode s) (execEncode s') := by
  unfold Machine.execEncode
  rw [h.cfg, h.tx, h.txm]
  exact .ite (h.finish _) (.ite (h.finish _) (.ite (h.finish _) (((h.setTxm _).setTx _).finish _)))

theorem execEncodeFrame (h : SameCodec s s') (h0 : s.arg0 = s'.arg0) (h1 : s.arg1 = s'.arg1)
    (hbuf : s.buf = s'.buf) (hrole : s.win.role = s'.win.role) (hlen : s.win.len = s'.win.len) :
    SameAnswer (execEncodeFrame s) (execEncodeFrame s') := by
  unfold Machine.execEncodeFrame State.argNum0 State.argNum1
  rw [h.cfg, h.txm, h0, h1, hbuf, hrole, hlen]
  exact .ite (h.finish _) (.ite (h.finish _) (((h.setTxm _).setTx _).finish _))

theorem execEncodeAck (h : SameCodec s s') (h0 : s.arg0 = s'.arg0) :
    SameAnswer (execEncodeAck s) (execEncodeAck s') := by
  unfold Machine.execEncodeAck
  rw [h.cfg, h.txm, h0]
  exact ((h.setTxm _).setTx _).finish _

theorem execDecode (h : SameCodec s s') : SameAnswer (execDecode s) (execDecode s') := by
  have hdecoded (raw : Word) : decodedRx s raw = decodedRx s' raw := by
    simp only [decodedRx, h.cfg, h.rx, h.rxm]
  unfold Machine.execDecode
  simp only [hdecoded, h.cfg, h.rx, h.rxm]
  exact .ite ((h.setRx _).finish _) (((h.setRx _).setRxm _).finish _)

end SameCodec

/-! ### The obligations -/

/-- Settles O26: TXM is the packet's image, DECODE of that image gives the packet, and it zeroes only what is past the
payload. -/
theorem codecRoundTrip : Obligations.CodecRoundTrip := by
  intro s t m hc hvalid ht hm
  obtain ⟨-, hcap, -⟩ := validPacket_iff.mp hvalid
  have hfit : Config.hdrSize + s.tx.dsize.toNat ≤ s.cfg.pktBudget := Config.hdrSize_add_le hc hcap
  have hcfg : t.cfg = s.cfg := (exec_effect ht).cfg_eq
  have htxm : t.txm = encodeImage s.cfg s.txm s.tx.kind s.tx.seq s.tx.ack s.tx.win s.tx.dsize := by
    cases (exec_encode_ok hvalid).symm.trans ht
    simp only [State.setResult_txm, State.setTx_txm, State.setTxm_txm]
  rw [htxm] at hm
  obtain ⟨-, hpayload, -, -⟩ :=
    encodeImage_regions (Config.hdrSize_le hc) s.txm s.tx.kind s.tx.seq s.tx.ack s.tx.win s.tx.dsize
  refine ⟨_, exec_decode_encodeImage hcfg hc hvalid rfl hm, rfl, rfl, fun k hk => ?_, fun i hlo hhi => ?_⟩
  · have hin : Config.hdrSize + k < Config.hdrSize + s.tx.dsize.toNat := Nat.add_lt_add_left hk _
    refine (Memory.read_zero _ _ _ _).trans ?_
    rw [if_neg (fun h => h.1.not_gt hin)]
    exact (hm _ (hin.trans_le hfit)).trans (hpayload _ (Nat.le_add_right _ _) hin)
  · exact (Memory.read_zero _ _ _ _).trans (if_pos ⟨hlo, hhi⟩)

/-- Settles O21: one forward rule per outcome of ENCODE, and the image region by region. -/
theorem encodeEffect : Obligations.EncodeEffect := by
  refine ⟨decode_encode .encode, fun s hc => ⟨fun hk => ?_, fun hk hd => ?_, fun hk hd => ?_, fun hvalid => ?_⟩⟩
  · exact exec_encode_badKind (Bool.not_eq_true _ ▸ isKind_iff_mem.not.mpr hk)
  · exact exec_encode_badDsize (isKind_iff_mem.mpr hk) (.inl hd)
  · have hctrl := isControl_iff_mem.mpr hk
    have hd' : s.tx.dsize.toNat ≠ 0 := fun h0 => hd (BitVec.eq_of_toNat_eq h0)
    exact exec_encode_badDsize (isKind_of_isControl hctrl) (.inr ⟨hctrl, hd'⟩)
  · have himage := encodeImage_regions (Config.hdrSize_le hc) s.txm s.tx.kind s.tx.seq s.tx.ack s.tx.win s.tx.dsize
    refine ⟨_, ?_, himage⟩
    rw [exec_encode_ok hvalid, setTxm_setTx_setResult, toWord]

/-- Settles O22: one forward rule per outcome of ENCODE_FRAME, and the image region by region. -/
theorem encodeFrameEffect : Obligations.EncodeFrameEffect := by
  refine ⟨decode_encode .encodeFrame, fun s hc => ⟨exec_encodeFrame_role, exec_encodeFrame_range, fun hr hn hl => ?_⟩⟩
  have himage := frameImage_regions (q := s.argNum0) (Config.hdrSize_add_le hc hn) s.txm s.buf
  rw [toWord_toNat, toWord_toNat] at himage
  refine ⟨_, ?_, himage⟩
  rw [exec_encodeFrame_ok hr hn hl, setTxm_setTx_setResult, toWord, kindData]

/-- Settles O24: the model's size and flags are R64's and R65's, and its fields are the big-endian ones. -/
theorem decodeEffect : Obligations.DecodeEffect := by
  refine ⟨decode_encode .decode, fun s => ⟨exec_decode_malformed, fun hlen => ?_⟩⟩
  have hfield (o : Nat) : field s.rxm o = be32 s.rxm o := (be32_eq_ofNat s.rxm o).symm
  have hsize (raw : Nat) :
      min raw (min (s.cfg.pktBudget - 17) (min s.rx.len.toNat s.cfg.pktBudget - 17)) =
        effectiveSize s.cfg s.rx.len.toNat raw := rfl
  simp only [hfield, hsize]
  refine ⟨s.rxm.zero (17 + effectiveSize s.cfg s.rx.len.toNat (be32 s.rxm 13).toNat) s.cfg.pktBudget, ?_,
    fun i hlo hhi => ?_, fun i hi => ?_⟩
  · rw [exec_decode_ok hlen, setRx_setRxm_setResult, decodedRx, decodeFlags_eq, toWord, Config.hdrSize]
  · rw [Memory.read_zero, if_pos ⟨hlo, hhi⟩]
  · rw [Memory.read_zero, if_neg (by omega)]

/-- Settles O27: the frame from what each command keeps, the rest since both runs make the same tests and writes. -/
theorem codecIsAPureTransformation : Obligations.CodecIsAPureTransformation := by
  refine ⟨fun i s t hi ht => ?_, fun i s s' t t' hi ht ht' hcfg htx hrx htxm hrxm hack hframe => ?_⟩
  · have hgroup : ∀ j ∈ [Instr.encode, .encodeFrame, .encodeAck, .decode], j.group = .codec := by decide
    exact (exec_effect ht).codec_frame (hgroup i hi)
  · have same : SameCodec s s' := ⟨hcfg, htx, hrx, htxm, hrxm⟩
    have answer : SameAnswer (exec i s) (exec i s') := by
      simp only [List.mem_cons, List.not_mem_nil, or_false] at hi
      rcases hi with rfl | rfl | rfl | rfl
      · exact same.execEncode
      · obtain ⟨h0, h1, hbuf, hrole, hlen⟩ := hframe rfl
        exact same.execEncodeFrame h0 h1 hbuf hrole hlen
      · exact same.execEncodeAck (hack rfl)
      · exact same.execDecode
    obtain ⟨⟨-, htx, hrx, htxm, hrxm⟩, hresult⟩ := answer t t' ht ht'
    exact ⟨htx, hrx, htxm, hrxm, hresult⟩

/-- Settles O28: an OK run wrote the frame's image, which does not depend on the TXM before it. -/
theorem retransmissionIsByteIdentical : Obligations.RetransmissionIsByteIdentical := by
  intro s s' t t' h h' hcfg hbuf h0 h1 ht ht' hok hok'
  obtain ⟨hn, rfl⟩ := execEncodeFrame_ok_inv ht hok
  obtain ⟨-, rfl⟩ := execEncodeFrame_ok_inv ht' hok'
  have hfit := Config.hdrSize_add_le h.legal hn
  simp only [State.setResult_txm, State.setTx_txm, State.setTxm_txm, State.setResult_tx, State.setTx_tx]
  rw [State.argNum0, State.argNum1, State.argNum0, State.argNum1, ← hcfg, ← hbuf, ← h0, ← h1]
  exact ⟨frameImage_eq h.txm (hcfg ▸ h'.txm) h.buf.1 hfit, rfl⟩

/-- Settles O23: the encoded image with no payload. -/
theorem encodeAckEffect : Obligations.EncodeAckEffect := by
  refine ⟨decode_encode .encodeAck, fun s hc => ?_⟩
  obtain ⟨hheader, -, hrest⟩ :=
    encodeImage_regions (Config.hdrSize_le hc) s.txm kindAck 0#32 s.arg0 (toWord s.cfg.recvWindow) 0#32
  refine ⟨_, ?_, hheader, hrest⟩
  rw [exec, execEncodeAck, finish, setTxm_setTx_setResult, toWord, toWord, kindAck]

end Sys2Proof.Machine
end

section
/-! Proofs for the window family: the outcome of each WIN_* command (R67 to R71, R74, R76, R80, R81), what a command can do
to the window variables (R77, R78, R81), when WIN_NEXT finds the FIFO full (R73), and the frames that a loop or a run of
WIN_NEXT produces (R72, R79). -/

namespace Sys2Proof.Machine

open Sys2Proof.Spec

variable {s t : State} {e : Event} {es : List Event} {i : Instr} {c : Config}

/-! ### The outcomes of each command, forwards -/

/-- A command in another role than it needs ends with ROLE, before any other test (R62, R67). -/
theorem exec_wrongRole {r : Role} (hneed : needs i = some r) (hrole : s.win.role ≠ r) :
    exec i s = .next (s.setResult .role) := by
  cases i with
  | winLoad | winRecvInit | winSetwin | winNext | winPendRead | winAck | encodeFrame | winAccept | winDrain =>
    cases hneed
    exact if_pos hrole
  | _ => cases hneed

/-- In the role it needs, a command goes on past its test of the role (R67). -/
theorem ite_role_ne {r : Role} {a b : Host.Outcome State Fault Refusal} (h : s.win.role = r) :
    (if s.win.role ≠ r then a else b) = b :=
  if_neg (not_not.mpr h)

/-- The converse of `exec_effect` for the window commands: an outcome's guards decide that it is the outcome. -/
theorem Effect.exec_eq (h : Effect s i t) (hi : i.group = .window) : exec i s = .next t := by
  cases h with
  | wrongRole _ _ hneed hrole => exact exec_wrongRole hneed hrole
  | tooBig hr hn => exact (ite_role_ne hr).trans (if_pos hn)
  | winLoad hr hn => exact (ite_role_ne hr).trans (if_neg hn.not_gt)
  | winRecvInit hr => exact ite_role_ne hr
  | winTooSmall hr hn => exact (ite_role_ne hr).trans (if_pos hn)
  | winSetwin hr hn => exact (ite_role_ne hr).trans (if_neg hn.not_gt)
  | bufferEnd hr hp => exact (ite_role_ne hr).trans (if_pos hp)
  | windowCeiling hr hp hl => exact (ite_role_ne hr).trans ((if_neg hp).trans (if_pos hl))
  | fifoFull hr hp hl hf =>
    exact (ite_role_ne hr).trans ((if_neg hp).trans ((if_neg hl.not_ge).trans (if_pos hf)))
  | winNext hr hp hl hf =>
    exact (ite_role_ne hr).trans ((if_neg hp).trans ((if_neg hl.not_ge).trans (if_neg hf)))
  | pendRange hr hnone =>
    rw [exec, execWinPendRead, ite_role_ne hr, hnone]
    rfl
  | winPendRead f hr hf => exact execWinPendRead_of_getElem? hr hf
  | ackRejected hr ha => exact (ite_role_ne hr).trans (if_neg ha)
  | winAck hr hlo hhi =>
    rw [exec, execWinAck, ite_role_ne hr, if_pos ⟨hlo, hhi⟩, finish]
    simp only [Window.acknowledged, toWord_toNat]
  | noPacket hr hv => exact (ite_role_ne hr).trans (if_pos hv)
  | notData hr hv hk => exact (ite_role_ne hr).trans ((if_neg (by simp [hv])).trans (if_pos hk))
  | outOfOrder hr hv hk hs =>
    exact (ite_role_ne hr).trans ((if_neg (by simp [hv])).trans ((if_neg (not_not.mpr hk)).trans (if_pos hs)))
  | overflow hr hv hk hs ho =>
    exact (ite_role_ne hr).trans
      ((if_neg (by simp [hv])).trans ((if_neg (not_not.mpr hk)).trans ((if_neg (not_not.mpr hs)).trans (if_pos ho))))
  | winAccept hr hv hk hs hw hc =>
    rw [exec, execWinAccept, ite_role_ne hr, if_neg (by simp [hv]), if_neg (not_not.mpr hk), if_neg (not_not.mpr hs),
      if_neg (not_or.mpr ⟨hw.not_gt, hc.not_gt⟩), finish, toWord_toNat]
  | winDrain hr => exact ite_role_ne hr
  | _ => cases hi

/-- WIN_ACK's new FIFO is the one R76 describes. -/
theorem popsAndTrims_ackFifo (fifo : List Frame) (a : Nat) : popsAndTrims fifo a (Window.ackFifo fifo a) := by
  induction fifo with
  | nil => exact ⟨[], [], rfl, by simp, .inl ⟨rfl, rfl⟩⟩
  | cons f fs ih =>
    by_cases hpop : f.seq + f.flen ≤ a
    · obtain ⟨popped, rest, hsplit, hall, hrest⟩ := ih
      rw [Window.ackFifo_pop hpop]
      exact ⟨f :: popped, rest, by rw [hsplit, List.cons_append], List.forall_mem_cons.mpr ⟨hpop, hall⟩, hrest⟩
    · refine ⟨[], f :: fs, rfl, by simp, .inr ⟨f, fs, rfl, Nat.lt_of_not_le hpop, ?_⟩⟩
      by_cases htrim : f.seq < a
      · rw [Window.ackFifo_trim (Nat.lt_of_not_le hpop) htrim, if_pos htrim]
      · rw [Window.ackFifo_keep (Nat.lt_of_not_le hpop) (Nat.le_of_not_lt htrim), if_neg htrim]

/-! ### What a command can do to the window variables -/

/-- `WindowChange s i w`: command `i` may leave the window `w` where it found `s`; one constructor per change, with its
guards. -/
inductive WindowChange (s : State) : Instr → Window → Prop
  | kept (i : Instr) : WindowChange s i s.win
  | reset : WindowChange s .reset Window.idle
  | loaded (hr : s.win.role = .none) : WindowChange s .winLoad (Window.loaded s.argNum0)
  | receiving (hr : s.win.role = .none) : WindowChange s .winRecvInit (Window.receiving s.cfg.recvWindow)
  | setwin (hr : s.win.role = .send) : WindowChange s .winSetwin { s.win with win := s.argNum0 }
  | framed (hr : s.win.role = .send) (hl : s.win.pointer < s.win.limit) :
      WindowChange s .winNext (s.win.framed (s.win.nextLen s.cfg.payloadCap))
  | acknowledged (hr : s.win.role = .send) (hlo : s.win.head < s.argNum0) :
      WindowChange s .winAck (s.win.acknowledged s.argNum0)
  | appended (hr : s.win.role = .recv) : WindowChange s .winAccept (s.win.appended s.rx.dsize.toNat)
  | drained (hr : s.win.role = .recv) : WindowChange s .winDrain { s.win with head := s.win.pointer }

theorem WindowChange.of_eq {w : Window} (h : w = s.win) : WindowChange s i w := h ▸ .kept i

/-- Every command's effect on the window is one of these changes. -/
theorem Effect.windowChange (h : Effect s i t) : WindowChange s i t.win := by
  cases h with
  | reset => exact .reset
  | winLoad hr => exact .loaded hr
  | winRecvInit hr => exact .receiving hr
  | winSetwin hr => exact .setwin hr
  | winNext hr _ hl => exact .framed hr hl
  | winAck hr hlo => exact .acknowledged hr hlo
  | winAccept hr => exact .appended hr
  | winDrain hr => exact .drained hr
  | _ => exact .of_eq (by simp)

theorem exec_windowChange (h : exec i s = .next t) : WindowChange s i t.win := (exec_effect h).windowChange

/-- What an event can do to the window: nothing, a reset, or what the command it starts does. -/
theorem StepEffect.win_cases (h : StepEffect s e t) :
    t.win = s.win ∨ t.win = Window.idle ∨
      ∃ i, e = commandWrite (encode i) ∧ exec i (s.setReply .written) = .next t := by
  cases h with
  | command i _ hx => exact .inr (.inr ⟨i, rfl, hx⟩)
  | rst => exact .inr (.inl rfl)
  | answer | register | txm | rxm | buf | illegal | tick => exact .inl (by simp [tickStep])

/-- What a step can do to the window. -/
theorem step_win_cases (h : step s = .next t) :
    t.win = s.win ∨ t.win = Window.idle ∨
      ∃ i es, s.script = commandWrite (encode i) :: es ∧ exec i ((s.setScript es).setReply .written) = .next t := by
  rcases step_effect h with ⟨-, rfl⟩ | ⟨e, es, hs, he⟩
  · exact .inl rfl
  · rcases he.win_cases with hw | hw | ⟨i, rfl, hx⟩
    · exact .inl hw
    · exact .inr (.inl hw)
    · exact .inr (.inr ⟨i, es, hs, hx⟩)

namespace WindowChange

variable {w : Window}

/-- Only RESET and an accepted WIN_ACK move a sender's `head`, and the latter raises it (R77, R91). -/
theorem head_of_send (h : WindowChange s i w) (hr : s.win.role = .send) :
    w.head = s.win.head ∨ i = .reset ∧ w = Window.idle ∨ i = .winAck ∧ s.win.head < w.head := by
  cases h with
  | reset => exact .inr (.inl ⟨rfl, rfl⟩)
  | acknowledged _ hlo => exact .inr (.inr ⟨rfl, hlo⟩)
  | kept | setwin | framed => exact .inl rfl
  | loaded hr' | receiving hr' | appended hr' | drained hr' => cases hr.symm.trans hr'

/-- Of a sender that stays one, only WIN_NEXT moves `pointer` (R79). -/
theorem pointer_of_send (h : WindowChange s i w) (hr : s.win.role = .send) (hw : w.role = .send) (hi : i ≠ .winNext) :
    w.pointer = s.win.pointer := by
  cases h with
  | reset => cases hw
  | framed => exact absurd rfl hi
  | kept | setwin | acknowledged => rfl
  | loaded hr' | receiving hr' | appended hr' | drained hr' => cases hr.symm.trans hr'

/-- Of a receiver that stays one, only WIN_DRAIN moves `head`, and no other command lowers `pointer` (R81). -/
theorem head_pointer_of_recv (h : WindowChange s i w) (hr : s.win.role = .recv) (hw : w.role = .recv)
    (hi : i ≠ .winDrain) : w.head = s.win.head ∧ s.win.pointer ≤ w.pointer := by
  cases h with
  | reset => cases hw
  | drained => exact absurd rfl hi
  | kept => exact ⟨rfl, Nat.le_refl _⟩
  | appended => exact ⟨rfl, Nat.le_add_right _ _⟩
  | loaded hr' | receiving hr' | setwin hr' | framed hr' | acknowledged hr' => cases hr.symm.trans hr'

/-- Who completes a transfer (R68, R76, R78). -/
theorem acked_cases (h : WindowChange s i w) (hs : s.win.endState ≠ .acked) (hw : w.endState = .acked) :
    (i = .winAck ∧ s.win.endState = .pending ∧ s.argNum0 = s.win.endOffset) ∨ (i = .winLoad ∧ s.argNum0 = 0) := by
  cases h with
  | acknowledged =>
    simp only [Window.acknowledged] at hw
    split at hw
    · exact .inl ⟨rfl, ‹_›⟩
    · exact absurd hw hs
  | loaded =>
    simp only [Window.loaded] at hw
    split at hw
    · exact .inr ⟨rfl, ‹_›⟩
    · cases hw
  | framed =>
    simp only [Window.framed] at hw
    split at hw
    · cases hw
    · exact absurd hw hs
  | reset | receiving => cases hw
  | kept | setwin | appended | drained => exact absurd hw hs

/-- Who makes the end of a transfer pending (R71, R78). -/
theorem pending_cases (h : WindowChange s i w) (hs : s.win.endState ≠ .pending) (hw : w.endState = .pending) :
    i = .winNext ∧ w.pointer = s.win.len := by
  cases h with
  | framed =>
    simp only [Window.framed] at hw
    split at hw
    · exact ⟨rfl, ‹_›⟩
    · exact absurd hw hs
  | acknowledged =>
    simp only [Window.acknowledged] at hw
    split at hw
    · cases hw
    · exact absurd hw hs
  | loaded =>
    simp only [Window.loaded] at hw
    split at hw <;> cases hw
  | reset | receiving => cases hw
  | kept | setwin | appended | drained => exact absurd hw hs

end WindowChange

/-- A good sender has ACKED exactly when all its bytes are acknowledged (R32 I5, R78). -/
theorem Window.Good.acked_iff {w : Window} (g : w.Good c) (hr : w.role = .send) :
    w.endState = .acked ↔ w.head = w.len := by
  have hptr := g.headLePointer
  have hlen := g.pointerLeLen
  constructor
  · intro ha
    obtain ⟨-, h1, h2, -⟩ := g.acked ha
    exact h1.trans h2
  · intro hall
    cases he : w.endState with
    | notSent =>
      have := g.notSent he hr
      omega
    | pending =>
      obtain ⟨-, -, -, hlt⟩ := g.pending he
      omega
    | acked => rfl

/-! ### When the FIFO is full -/

/-- WIN_NEXT gives reason 2 only where there is a byte left to frame and no room for a frame (R71). -/
theorem execWinNext_fifoFull (h : exec .winNext s = .next t) (hres : t.result = .noFrame) (hreason : t.res1 = 2#32) :
    s.win.role = .send ∧ s.win.pointer < s.win.limit ∧ s.win.fifo.length = s.cfg.fifoDepth := by
  rcases execWinNext_next h with ⟨-, rfl⟩ | ⟨-, -, rfl⟩ | ⟨-, -, -, rfl⟩ | ⟨hr, -, hl, hf, -⟩ | ⟨-, -, -, -, rfl⟩
  · cases hres
  · cases hreason
  · cases hreason
  · exact ⟨hr, hl, hf⟩
  · cases hres

/-- Frames of one and the same length fill what they cover. -/
theorem Covers.length_mul {a b n : Nat} {fs : List Frame} (h : Covers a b fs) (hn : ∀ f ∈ fs, f.flen = n) :
    a + fs.length * n = b := by
  induction fs generalizing a with
  | nil => simpa [Covers] using h
  | cons f fs ih =>
    obtain ⟨-, -, hrest⟩ := h
    obtain ⟨hf, hfs⟩ := List.forall_mem_cons.mp hn
    rw [← ih hrest hfs, hf, List.length_cons, Nat.add_one_mul]
    omega

/-- An acknowledgement that lands inside no frame only pops. -/
theorem Window.mem_of_mem_ackFifo {a : Nat} {fs : List Frame} (h : ∀ f ∈ fs, f.seq < a → f.seq + f.flen ≤ a) {g : Frame}
    (hg : g ∈ ackFifo fs a) : g ∈ fs := by
  induction fs with
  | nil => exact hg
  | cons f fs ih =>
    obtain ⟨hf, hfs⟩ := List.forall_mem_cons.mp h
    by_cases hpop : f.seq + f.flen ≤ a
    · rw [ackFifo_pop hpop] at hg
      exact List.mem_cons_of_mem f (ih hfs hg)
    · rwa [ackFifo_keep (Nat.lt_of_not_le hpop) (Nat.le_of_not_lt fun hlt => hpop (hf hlt))] at hg

/-- A multiple above another one is above it by a whole step at least. -/
theorem add_le_of_dvd_of_lt {n a b : Nat} (ha : n ∣ a) (hb : n ∣ b) (h : a < b) : a + n ≤ b :=
  ((Nat.modEq_zero_iff_dvd.mpr ha).trans (Nat.modEq_zero_iff_dvd.mpr hb).symm).add_le_of_lt h

namespace Window

variable {w : Window}

/-- Under R73 (b) the next frame is a whole payload or the last of the transfer. -/
theorem nextLen_of_aligned (ha : Aligned c w) (hhead : w.head ≤ w.pointer) (hl : w.pointer < w.limit) :
    c.payloadCap ∣ w.pointer ∧ (w.nextLen c.payloadCap = c.payloadCap ∨ w.pointer + w.nextLen c.payloadCap = w.len) := by
  have hlen := hl.trans_le w.limit_le_len
  have hptr : c.payloadCap ∣ w.pointer := ha.pointer.resolve_right hlen.ne
  have hhd : c.payloadCap ∣ w.head := ha.head.resolve_right (hhead.trans_lt hlen).ne
  obtain ⟨k, hk, -⟩ := ha.window
  have hceil : c.payloadCap ∣ w.head + w.win := dvd_add hhd (hk ▸ Nat.dvd_mul_left _ _)
  have hstep := add_le_of_dvd_of_lt hptr hceil (hl.trans_le w.limit_le_ceiling)
  refine ⟨hptr, ?_⟩
  unfold Window.nextLen Window.limit
  omega

/-- WIN_NEXT keeps R73 (b). -/
theorem aligned_framed (ha : Aligned c w) (hhead : w.head ≤ w.pointer) (hl : w.pointer < w.limit) :
    Aligned c (w.framed (w.nextLen c.payloadCap)) := by
  obtain ⟨hptr, hn⟩ := nextLen_of_aligned ha hhead hl
  refine ⟨ha.window, ha.head, ?_, fun f hf => ?_⟩
  · exact hn.imp_left fun hfull => dvd_add hptr hfull.symm.dvd
  · rcases List.mem_append.mp hf with hf | hf
    · exact ha.frames f hf
    · rw [List.mem_singleton.mp hf]
      exact ⟨hptr, hn⟩

/-- WIN_ACK of a payload's end keeps R73 (b): it lands inside no frame. -/
theorem aligned_acknowledged {a : Nat} (ha : Aligned c w) (g : w.Good c) (hr : w.role = .send)
    (hack : c.payloadCap ∣ a ∨ a = w.len) : Aligned c (w.acknowledged a) := by
  refine ⟨ha.window, hack, ha.pointer, fun f hf => ha.frames f ?_⟩
  refine mem_of_mem_ackFifo (fun f hf hlt => ?_) hf
  rcases hack with hdvd | hlen
  · have hstep := add_le_of_dvd_of_lt (ha.frames f hf).1 hdvd hlt
    have hcap := g.frameBound f hf
    omega
  · have hend := ((g.covers hr).mem hf).2.2
    exact hlen ▸ hend.trans g.pointerLeLen

/-- Under R73 (b), while a byte is left below the ceiling, the outstanding frames are whole payloads, fewer of them than the
window has. -/
theorem fifo_lt_of_aligned (ha : Aligned c w) (g : w.Good c) (hr : w.role = .send) (hl : w.pointer < w.limit) :
    w.fifo.length < c.fifoDepth := by
  have hfull : ∀ f ∈ w.fifo, f.flen = c.payloadCap := fun f hf => by
    have hend := ((g.covers hr).mem hf).2.2
    have hlen := w.limit_le_len
    exact (ha.frames f hf).2.resolve_right (by omega)
  have hbytes := (g.covers hr).length_mul hfull
  have hceil := w.limit_le_ceiling
  obtain ⟨k, hk, hdepth⟩ := ha.window
  have hlt : w.fifo.length * c.payloadCap < k * c.payloadCap := by omega
  exact (Nat.lt_of_mul_lt_mul_right hlt).trans_le hdepth

end Window

/-- WIN_NEXT keeps R73 (b), whatever its result. -/
theorem WindowChange.aligned_of_winNext {w : Window} (h : WindowChange s .winNext w) (g : s.win.Good s.cfg)
    (ha : Aligned s.cfg s.win) : Aligned s.cfg w := by
  cases h with
  | kept => exact ha
  | framed _ hl => exact Window.aligned_framed ha g.headLePointer hl

/-- WIN_ACK of a payload's end keeps R73 (b), whatever its result. -/
theorem WindowChange.aligned_of_winAck {w : Window} (h : WindowChange s .winAck w) (g : s.win.Good s.cfg)
    (ha : Aligned s.cfg s.win) (hack : s.cfg.payloadCap ∣ s.argNum0 ∨ s.argNum0 = s.win.len) : Aligned s.cfg w := by
  cases h with
  | kept => exact ha
  | acknowledged hr => exact Window.aligned_acknowledged ha g hr hack

/-! ### The frames that WIN_NEXT produces -/

theorem Window.Good.pointer_le_limit {w : Window} (g : w.Good c) : w.pointer ≤ w.limit := by
  have h1 := g.headLePointer
  have h2 := g.pointerLeLen
  have h3 := g.windowBound
  unfold limit
  omega

/-- An OK result of WIN_NEXT: RES0 and RES1 are the frame that it pushed (R71). -/
theorem execWinNext_ok (h : Inv s) (hx : exec .winNext s = .next t) (hok : t.result = .ok) :
    s.win.pointer < s.win.limit ∧ t.win = s.win.framed (s.win.nextLen s.cfg.payloadCap) ∧
      t.res0.toNat = s.win.pointer ∧ t.res1.toNat = s.win.nextLen s.cfg.payloadCap := by
  rcases execWinNext_next hx with ⟨-, rfl⟩ | ⟨-, -, rfl⟩ | ⟨-, -, -, rfl⟩ | ⟨-, -, -, -, rfl⟩ | ⟨-, -, hl, -, rfl⟩
  · cases hok
  · cases hok
  · cases hok
  · cases hok
  · have hend := Window.pointer_add_nextLen_le (cap := s.cfg.payloadCap) hl.le
    have hlen := s.win.limit_le_len
    have hlt := h.len_lt
    exact ⟨hl, rfl, toNat_toWord h.pointer_lt, toNat_toWord (by omega)⟩

/-- Any other result of WIN_NEXT in SEND role: NO_FRAME, and unless the FIFO is full there is no byte left below the ceiling
(R71). -/
theorem execWinNext_not_ok (hr : s.win.role = .send) (hx : exec .winNext s = .next t) (hno : t.result ≠ .ok) :
    t.win = s.win ∧ t.result = .noFrame ∧ (t.res1 ≠ 2#32 → s.win.limit ≤ s.win.pointer) := by
  rcases execWinNext_next hx with
    ⟨hne, -⟩ | ⟨-, hp, rfl⟩ | ⟨-, -, hl, rfl⟩ | ⟨-, -, -, -, rfl⟩ | ⟨-, -, -, -, rfl⟩
  · exact absurd hr hne
  · exact ⟨rfl, rfl, fun _ => hp ▸ s.win.limit_le_len⟩
  · exact ⟨rfl, rfl, fun _ => hl⟩
  · exact ⟨rfl, rfl, fun hne => absurd rfl hne⟩
  · exact absurd rfl hno

/-! ### The NextFrames loop -/

theorem nextFrames_of_ok {fuel : Nat} (hx : exec .winNext s = .next t) (hok : t.result = .ok) :
    nextFrames (fuel + 1) s = (⟨t.res0.toNat, t.res1.toNat⟩ :: (nextFrames fuel t).1, (nextFrames fuel t).2) := by
  simp only [nextFrames, hx, hok, if_true]

theorem nextFrames_of_not_ok {fuel : Nat} (hx : exec .winNext s = .next t) (hno : t.result ≠ .ok) :
    nextFrames (fuel + 1) s = ([], t) := by
  simp only [nextFrames, hx, hno, if_false]

/-- What R72 says of the frames and the last state that the loop returns from `s`. -/
structure FramesToCeiling (s : State) (r : List Frame × State) : Prop where
  ended : r.2.result = .noFrame
  covers : Covers s.win.pointer r.2.win.pointer r.1
  fifo : r.2.win.fifo = s.win.fifo ++ r.1
  lengths : ∀ f ∈ r.1, f.flen = min s.cfg.payloadCap (s.win.limit - f.seq)
  ceiling : r.2.res1 ≠ 2#32 → r.2.win.pointer = s.win.limit

/-- The loop with more commands to issue than the FIFO has room for frames (R72). -/
theorem nextFrames_framesToCeiling {fuel : Nat} (h : Inv s) (hr : s.win.role = .send)
    (hfuel : s.cfg.fifoDepth < fuel + s.win.fifo.length) : FramesToCeiling s (nextFrames fuel s) := by
  induction fuel generalizing s with
  | zero =>
    have := h.window.fifoBound
    omega
  | succ fuel ih =>
    obtain ⟨t, hx⟩ := completes_exec .winNext s
    by_cases hok : t.result = .ok
    · obtain ⟨hl, hwin, hres0, hres1⟩ := execWinNext_ok h hx hok
      have hcfg : t.cfg = s.cfg := (exec_effect hx).cfg_eq
      have hroom : t.win.fifo.length = s.win.fifo.length + 1 := by
        rw [hwin]
        exact List.length_append
      have rest : FramesToCeiling t (nextFrames fuel t) := ih (exec_inv h hx) (hwin ▸ hr) (by rw [hcfg]; omega)
      obtain ⟨hended, hcovers, hfifo, hlengths, hceiling⟩ := rest
      rw [hwin] at hcovers hfifo hlengths hceiling
      rw [hcfg] at hlengths
      rw [nextFrames_of_ok hx hok, hres0, hres1]
      refine ⟨hended, ⟨rfl, Window.nextLen_pos (Config.payloadCap_pos h.legal) hl, hcovers⟩, ?_, ?_, hceiling⟩
      · rw [hfifo, Window.framed, List.append_assoc, List.singleton_append]
      · exact List.forall_mem_cons.mpr ⟨rfl, hlengths⟩
    · obtain ⟨hwin, hnoFrame, hreason⟩ := execWinNext_not_ok hr hx hok
      rw [nextFrames_of_not_ok hx hok]
      refine ⟨hnoFrame, congrArg Window.pointer hwin.symm, ?_, by simp, fun hne => ?_⟩
      · rw [hwin, List.append_nil]
      · rw [hwin]
        exact h.window.pointer_le_limit.antisymm (hreason hne)

/-! ### The frames of a run -/

/-- A step whose event is a command write is that command, and it completes (R21, R93). -/
theorem stepThrough_commandWrite (hs : s.script = commandWrite (encode i) :: es) :
    exec i ((s.setScript es).setReply .written) = .next (stepThrough s) := by
  have hstep : step s = exec i ((s.setScript es).setReply .written) :=
    (step_commandWrite hs).trans (runCommand_of_decode (decode_encode i) _)
  obtain ⟨t, hx⟩ := completes_exec i ((s.setScript es).setReply .written)
  simp only [stepThrough, hstep, hx]

/-- A step with another event than WIN_NEXT keeps `pointer`, if the block is and stays a sender (R79). -/
theorem pointer_stepThrough (hr : s.win.role = .send) (hr' : (stepThrough s).win.role = .send)
    (hs : s.script.head? ≠ some (commandWrite (encode .winNext))) : (stepThrough s).win.pointer = s.win.pointer := by
  rcases stepThrough_cases s with hstep | hbus
  · rcases step_win_cases hstep with hwin | hwin | ⟨i, es, hscript, hx⟩
    · rw [hwin]
    · cases (congrArg Window.role hwin).symm.trans hr'
    · refine (exec_windowChange hx).pointer_of_send hr hr' ?_
      rintro rfl
      exact hs (hscript ▸ rfl)
  · rw [hbus]
    rfl

/-- The frames of a run are those of its first step, then those of the rest. -/
theorem produced_succ (k : Nat) (s : State) : produced (k + 1) s = produced 1 s ++ produced k (stepThrough s) := by
  simp only [produced]
  split <;> rfl

/-- One step of a sender produces what `pointer` advances over: one frame, or none (R71, R79). -/
theorem covers_produced_one (h : Inv s) (hr : s.win.role = .send) (hr' : (stepThrough s).win.role = .send) :
    Covers s.win.pointer (stepThrough s).win.pointer (produced 1 s) := by
  by_cases hs : s.script.head? = some (commandWrite (encode .winNext))
  · obtain ⟨es, hscript⟩ := List.head?_eq_some_iff.mp hs
    have hx := stepThrough_commandWrite hscript
    by_cases hok : (stepThrough s).result = .ok
    · obtain ⟨hl, hwin, hres0, hres1⟩ := execWinNext_ok ((h.setScript es).setReply _) hx hok
      rw [produced, if_pos ⟨hs, hok⟩, hwin, hres0, hres1]
      exact ⟨rfl, Window.nextLen_pos (Config.payloadCap_pos h.legal) hl, rfl⟩
    · obtain ⟨hwin, -, -⟩ := execWinNext_not_ok (s := (s.setScript es).setReply .written) hr hx hok
      rw [produced, if_neg fun hframe => hok hframe.2, hwin]
      rfl
  · rw [produced, if_neg fun hframe => hs hframe.1, pointer_stepThrough hr hr' hs]
    rfl

/-- The frames of a run through which the block stays a sender (R79). -/
theorem covers_produced (k : Nat) (h : Inv s) (hr : ∀ j, j ≤ k → (runThrough j s).win.role = .send) :
    Covers s.win.pointer (runThrough k s).win.pointer (produced k s) := by
  induction k generalizing s with
  | zero => rfl
  | succ k ih =>
    rw [produced_succ]
    have hfirst := covers_produced_one h (hr 0 (Nat.zero_le _)) (hr 1 (Nat.succ_le_succ (Nat.zero_le _)))
    exact hfirst.append (ih (stepThrough_inv h) fun j hj => hr (j + 1) (Nat.succ_le_succ hj))

/-! ### The obligations -/

/-- Settles O31: the outcomes of WIN_NEXT, and the bounds on the frame's length. -/
theorem winNextEffect : Obligations.WinNextEffect := by
  refine ⟨decode_encode .winNext, fun s => ⟨exec_wrongRole rfl, fun hr hp => ?_, fun hr hp hl => ?_, fun hr hp hl hf => ?_,
    fun hr hp hl hf => ⟨?_, fun hc => ?_⟩⟩⟩
  · exact (Effect.bufferEnd hr hp).exec_eq rfl
  · exact (Effect.windowCeiling hr hp hl).exec_eq rfl
  · exact (Effect.fifoFull hr hp hl hf).exec_eq rfl
  · exact (Effect.winNext hr hp hl hf).exec_eq rfl
  · exact ⟨Window.nextLen_pos (Config.payloadCap_pos hc) hl, Window.nextLen_le_cap _ _⟩

/-- Settles O33: the outcomes of WIN_ACK, and the model's new FIFO is R76's. -/
theorem winAckEffect : Obligations.WinAckEffect := by
  refine ⟨decode_encode .winAck, fun s => ⟨exec_wrongRole rfl, fun hr ha => ?_, fun hr hlo hhi => ?_⟩⟩
  · exact (Effect.ackRejected hr ha).exec_eq rfl
  · exact ⟨_, popsAndTrims_ackFifo _ _, (Effect.winAck hr hlo hhi).exec_eq rfl⟩

/-- Settles O34: every one of these commands tests the role first. -/
theorem roleIsCheckedFirst : Obligations.RoleIsCheckedFirst := by
  intro i r s hneed hrole
  have hneeds : needs i = neededRole i := by cases i <;> rfl
  exact exec_wrongRole (hneeds.trans hneed) hrole

/-- Settles O35: by what a command can do to a sender's `head`; an event that is no command keeps the window or resets it. -/
theorem headNeverDecreasesInSend : Obligations.HeadNeverDecreasesInSend := by
  refine ⟨fun s t ht hr hr' => ?_, fun i s t ht hr hreset hack => ?_, fun s t ht hr => ?_⟩
  · rcases step_win_cases ht with hwin | hwin | ⟨i, es, -, hx⟩
    · rw [hwin]
    · cases (congrArg Window.role hwin).symm.trans hr'
    · rcases (exec_windowChange hx).head_of_send hr with heq | ⟨-, hwin⟩ | ⟨-, hlt⟩
      · exact heq.ge
      · cases (congrArg Window.role hwin).symm.trans hr'
      · exact hlt.le
  · rcases (exec_windowChange ht).head_of_send hr with heq | ⟨hi, -⟩ | ⟨hi, -⟩
    · exact heq
    · exact absurd hi hreset
    · exact absurd hi hack
  · rcases execWinAck_next ht with ⟨hne, -⟩ | ⟨-, -, rfl⟩ | ⟨-, hlo, -, rfl⟩
    · exact absurd hr hne
    · exact .inr rfl
    · exact .inl ⟨rfl, hlo⟩

/-- Settles O36: I5 for the states, and what a command can do to `end_state` for the changes. -/
theorem completeExactlyWhenAllAcknowledged : Obligations.CompleteExactlyWhenAllAcknowledged := by
  refine ⟨fun s h hr => h.window.acked_iff hr, fun i s t h ht hs hw => ?_, fun i s t ht hs hw => ?_⟩
  · refine ((exec_windowChange ht).acked_cases hs hw).imp_left fun ⟨hi, hpend, ha⟩ => ⟨hi, hpend, ?_⟩
    obtain ⟨-, -, hlen, -⟩ := h.window.pending hpend
    exact ha.trans hlen.symm
  · exact (exec_windowChange ht).pending_cases hs hw

/-- Settles O37: FIFO_DEPTH + 1 commands are more than the FIFO has room for frames. -/
theorem nextFramesLoop : Obligations.NextFramesLoop := by
  intro s h hr
  obtain ⟨hended, hcovers, hfifo, hlengths, hceiling⟩ :=
    nextFrames_framesToCeiling (fuel := s.cfg.fifoDepth + 1) h hr (by omega)
  exact ⟨hended, hcovers, hfifo, hlengths, hceiling⟩

/-- Settles O39: the run step by step; an outstanding frame lies in the range that the FIFO covers. -/
theorem framesCoverTheTransfer : Obligations.FramesCoverTheTransfer := by
  refine ⟨fun k s => covers_produced k, fun s t h ht hok => ?_⟩
  rcases execWinPendRead_next ht with ⟨-, rfl⟩ | ⟨-, -, rfl⟩ | ⟨f, hr, hf, rfl⟩
  · cases hok
  · cases hok
  · have hmem := List.mem_of_getElem? hf
    obtain ⟨hseq, hlen⟩ := h.frame_lt hr hmem
    obtain ⟨hlo, -, hhi⟩ := (h.window.covers hr).mem hmem
    simp only [State.setResult_res0, State.setRes_res0, State.setResult_res1, State.setRes_res1, toNat_toWord hseq,
      toNat_toWord hlen]
    exact ⟨hlo, hhi⟩

/-- Settles O40: a full FIFO would hold as many bytes as the window at least, and none would be left below the ceiling. -/
theorem smallWindowNeverFillsTheFifo : Obligations.SmallWindowNeverFillsTheFifo := by
  rintro s t h hwin ht ⟨hres, hreason⟩
  obtain ⟨hr, hl, hfull⟩ := execWinNext_fifoFull ht hres hreason
  have hbytes := (h.window.covers hr).length_le
  have hceil := s.win.limit_le_ceiling
  have hhead := h.window.headLePointer
  omega

/-- Settles O41: the two changes of the window keep the alignment, and with it the FIFO has room. -/
theorem alignedWindowNeverFillsTheFifo : Obligations.AlignedWindowNeverFillsTheFifo := by
  intro s t h hr ha
  refine ⟨fun ht => ⟨?_, ?_⟩, fun ht hack => ?_⟩
  · rw [(exec_effect ht).cfg_eq]
    exact (exec_windowChange ht).aligned_of_winNext h.window ha
  · rintro ⟨hres, hreason⟩
    obtain ⟨-, hl, hfull⟩ := execWinNext_fifoFull ht hres hreason
    exact (Window.fifo_lt_of_aligned ha h.window hr hl).ne hfull
  · rw [(exec_effect ht).cfg_eq]
    exact (exec_windowChange ht).aligned_of_winAck h.window ha hack

/-- Settles O43: the outcomes of WIN_ACCEPT, and BUF byte by byte. -/
theorem winAcceptEffect : Obligations.WinAcceptEffect := by
  refine ⟨decode_encode .winAccept, fun s => ⟨exec_wrongRole rfl, fun hr hv => ?_, fun hr hv hk => ?_,
    fun hr hv hk hs => ?_, fun hr hv hk hs ho => ?_, fun hr hv hk hs hw hc => ?_⟩⟩
  · exact (Effect.noPacket hr hv).exec_eq rfl
  · exact (Effect.notData hr hv hk).exec_eq rfl
  · exact (Effect.outOfOrder hr hv hk hs).exec_eq rfl
  · exact (Effect.overflow hr hv hk hs ho).exec_eq rfl
  · refine ⟨_, (Effect.winAccept hr hv hk hs hw hc).exec_eq rfl, fun i => ?_⟩
    rw [Nat.add_comm 17]
    exact Memory.read_copy _ _ _ _ _ i

/-- Settles O45: by what a command can do to a receiver's window; the numbers WIN_DRAIN reports fit a register. -/
theorem drainedRangesAreAdjacent : Obligations.DrainedRangesAreAdjacent := by
  refine ⟨fun i s t ht hr hr' => (exec_windowChange ht).head_pointer_of_recv hr hr', fun s t h hr ht => ?_⟩
  rcases execWinDrain_next ht with ⟨hne, -⟩ | ⟨-, rfl⟩
  · exact absurd hr hne
  · have hptr := h.pointer_lt
    have hhead := h.window.headLePointer
    have hout : s.win.outstanding < 2 ^ 32 := (Nat.sub_le _ _).trans_lt hptr
    simp only [State.setResult_res0, State.setRes_res0, State.setResult_res1, State.setRes_res1, toNat_toWord h.head_lt,
      toNat_toWord hout]
    exact ⟨trivial, Nat.add_sub_of_le hhead, rfl⟩

/-- Settles O29: the outcomes of WIN_LOAD. -/
theorem winLoadEffect : Obligations.WinLoadEffect :=
  ⟨decode_encode .winLoad, fun _ => ⟨exec_wrongRole rfl, fun hr hn => (Effect.tooBig hr hn).exec_eq rfl,
    fun hr hn => (Effect.winLoad hr hn).exec_eq rfl⟩⟩

/-- Settles O30: the outcomes of WIN_SETWIN. -/
theorem winSetwinEffect : Obligations.WinSetwinEffect :=
  ⟨decode_encode .winSetwin, fun _ => ⟨exec_wrongRole rfl, fun hr hn => (Effect.winTooSmall hr hn).exec_eq rfl,
    fun hr hn => (Effect.winSetwin hr hn).exec_eq rfl⟩⟩

/-- Settles O32: the outcomes of WIN_PEND_READ; the count is read from the FIFO itself. -/
theorem winPendReadEffect : Obligations.WinPendReadEffect :=
  ⟨decode_encode .winPendRead, fun _ => ⟨exec_wrongRole rfl,
    fun hr hn => (Effect.pendRange hr (List.getElem?_eq_none hn)).exec_eq rfl, rfl,
    fun f hr hf => (Effect.winPendRead f hr hf).exec_eq rfl⟩⟩

/-- Settles O42: the outcomes of WIN_RECV_INIT. -/
theorem winRecvInitEffect : Obligations.WinRecvInitEffect :=
  ⟨decode_encode .winRecvInit, fun _ => ⟨exec_wrongRole rfl, fun hr => (Effect.winRecvInit hr).exec_eq rfl⟩⟩

/-- Settles O44: the outcomes of WIN_DRAIN. -/
theorem winDrainEffect : Obligations.WinDrainEffect :=
  ⟨decode_encode .winDrain, fun _ => ⟨exec_wrongRole rfl, fun hr => (Effect.winDrain hr).exec_eq rfl⟩⟩

end Sys2Proof.Machine
end

section
/-! Proofs for the timer family: the outcome of each TMR_* command (R86 to R89), the verdict (R84), what ticks do to a timer
(R82, R83), which events end a timeout (R83), and that neither timer reaches the other (R85). -/

namespace Sys2Proof.Machine

open Sys2Proof.Spec

variable {s t : State} {e : Event} {es : List Event} {i : Instr}

/-! ### The two timeouts, the verdict and the raw bits -/

theorem idleTo_iff_idleTimedOut (x : Timers) : idleTo x ↔ x.idleTimedOut = true := x.idleTimedOut_iff.symm

theorem rxTo_iff_rxTimedOut (x : Timers) : rxTo x ↔ x.rxTimedOut = true := x.rxTimedOut_iff.symm

theorem not_rxTo_of_disarmed {x : Timers} (h : x.rxArmed = false) : ¬ rxTo x :=
  fun hto => Bool.false_ne_true (h.symm.trans hto.1)

theorem not_idleTo_of_disarmed {x : Timers} (h : x.idleArmed = false) : ¬ idleTo x :=
  fun hto => Bool.false_ne_true (h.symm.trans hto.1)

/-- TMR_EVENT in its three cases, idle before receive (R84). -/
theorem readReg_tmrEvent_cases (s : State) :
    (idleTo s.tmr → readReg .tmrEvent s = 2#32) ∧ (¬ idleTo s.tmr → rxTo s.tmr → readReg .tmrEvent s = 1#32) ∧
      (¬ idleTo s.tmr → ¬ rxTo s.tmr → readReg .tmrEvent s = 0#32) := by
  rw [idleTo_iff_idleTimedOut, rxTo_iff_rxTimedOut, readReg, Timers.verdict]
  refine ⟨fun hidle => ?_, fun hidle hrx => ?_, fun hidle hrx => ?_⟩
  · rw [if_pos hidle, toWord]
  · rw [if_neg hidle, if_pos hrx, toWord]
  · rw [if_neg hidle, if_neg hrx, toWord]

namespace Timers

/-- The raw bits as a number name the two timeouts (R89). -/
theorem rawBits_eq_iff (x : Timers) (idle rx : Bool) :
    x.rawBits = idle.toNat * 2 + rx.toNat ↔ x.idleTimedOut = idle ∧ x.rxTimedOut = rx := by
  unfold rawBits
  generalize x.idleTimedOut = a, x.rxTimedOut = b
  revert a b idle rx
  decide

/-- The raw bits fit a register. -/
theorem toNat_toWord_rawBits (x : Timers) : (toWord x.rawBits).toNat = x.rawBits := by
  have hidle := x.idleTimedOut.toNat_le
  have hrx := x.rxTimedOut.toNat_le
  refine toNat_toWord ?_
  unfold rawBits
  omega

/-! ### Ticks -/

/-- One pulse takes an armed bit's worth off a counter (R82). -/
theorem countDown_eq_sub (armed : Bool) (n : Nat) :
    (if armed = true ∧ 0 < n then n - 1 else n) = n - armed.toNat := by
  cases armed with
  | false => simp
  | true =>
    simp only [true_and, Bool.toNat_true]
    split <;> omega

theorem tick_eq (x : Timers) :
    x.tick =
      { x with rxCount := x.rxCount - x.rxArmed.toNat, idleCount := x.idleCount - x.idleArmed.toNat } := by
  rw [tick, countDown_eq_sub, countDown_eq_sub]

theorem tick_iterate (x : Timers) (k : Nat) :
    tick^[k] x =
      { x with rxCount := x.rxCount - k * x.rxArmed.toNat, idleCount := x.idleCount - k * x.idleArmed.toNat } := by
  induction k with
  | zero => simp
  | succ k ih => rw [Function.iterate_succ_apply', ih, tick_eq, Nat.sub_sub, Nat.sub_sub, Nat.succ_mul, Nat.succ_mul]

/-- After `k` ticks the receive timer is timed out exactly when it is armed with at most `k` left (R82, R83). -/
theorem rxTo_tick_iterate (x : Timers) (k : Nat) : rxTo (tick^[k] x) ↔ x.rxArmed = true ∧ x.rxCount ≤ k := by
  rw [tick_iterate, rxTo]
  refine and_congr_right fun harmed => ?_
  rw [harmed, Bool.toNat_true, Nat.mul_one, Nat.sub_eq_zero_iff_le]

/-- After `k` ticks the idle timer is timed out exactly when it is armed with at most `k` left (R82, R83). -/
theorem idleTo_tick_iterate (x : Timers) (k : Nat) : idleTo (tick^[k] x) ↔ x.idleArmed = true ∧ x.idleCount ≤ k := by
  rw [tick_iterate, idleTo]
  refine and_congr_right fun harmed => ?_
  rw [harmed, Bool.toNat_true, Nat.mul_one, Nat.sub_eq_zero_iff_le]

/-- A tick keeps a receive timeout (R83). -/
theorem rxTo_tick {x : Timers} (h : rxTo x) : rxTo x.tick :=
  (x.rxTo_tick_iterate 1).mpr ⟨h.1, h.2.trans_le (Nat.zero_le _)⟩

/-- A tick keeps an idle timeout (R83). -/
theorem idleTo_tick {x : Timers} (h : idleTo x) : idleTo x.tick :=
  (x.idleTo_tick_iterate 1).mpr ⟨h.1, h.2.trans_le (Nat.zero_le _)⟩

theorem tick_clear : clear.tick = clear := rfl

end Timers

/-- The time base acts on the timers alone, so many ticks do too (R82). -/
theorem tickStep_iterate_tmr (s : State) (k : Nat) : (tickStep^[k] s).tmr = Timers.tick^[k] s.tmr :=
  (Function.Semiconj.iterate_right (f := State.tmr) (fun _ => rfl) k).eq s

theorem tickStep_rxCount (s : State) : (tickStep s).tmr.rxCount = s.tmr.rxCount - s.tmr.rxArmed.toNat :=
  congrArg Timers.rxCount s.tmr.tick_eq

theorem tickStep_idleCount (s : State) : (tickStep s).tmr.idleCount = s.tmr.idleCount - s.tmr.idleArmed.toNat :=
  congrArg Timers.idleCount s.tmr.tick_eq

/-! ### Who changes one timer -/

/-- Only its restart, TMR_CLEAR and RESET write the receive timer (R85). -/
theorem Effect.rxTimer_eq (h : Effect s i t) (hi : i ∉ [Instr.tmrRestartRx, .tmrClear, .reset]) :
    t.tmr.rxArmed = s.tmr.rxArmed ∧ t.tmr.rxCount = s.tmr.rxCount := by
  rcases h.tmr_cases with htmr | ⟨rfl, -⟩ | ⟨-, htmr⟩ | ⟨rfl | rfl, -⟩
  · rw [htmr]
    exact ⟨rfl, rfl⟩
  · exact absurd hi (by decide)
  · rw [htmr]
    exact ⟨rfl, rfl⟩
  all_goals exact absurd hi (by decide)

/-- Only its restart, TMR_CLEAR and RESET write the idle timer (R85). -/
theorem Effect.idleTimer_eq (h : Effect s i t) (hi : i ∉ [Instr.tmrRestartIdle, .tmrClear, .reset]) :
    t.tmr.idleArmed = s.tmr.idleArmed ∧ t.tmr.idleCount = s.tmr.idleCount := by
  rcases h.tmr_cases with htmr | ⟨-, htmr⟩ | ⟨rfl, -⟩ | ⟨rfl | rfl, -⟩
  · rw [htmr]
    exact ⟨rfl, rfl⟩
  · rw [htmr]
    exact ⟨rfl, rfl⟩
  all_goals exact absurd hi (by decide)

/-- A fact about the timers that ticks and all commands but `exits` keep ends only by hardware reset or one of `exits`. -/
theorem StepEffect.timerFact_sticky {P : Timers → Prop} {exits : List Instr} (h : StepEffect s e t)
    (htick : P s.tmr → P s.tmr.tick) (hcmd : ∀ i, Effect (s.setReply .written) i t → i ∉ exits → P s.tmr → P t.tmr)
    (hs : P s.tmr) : P t.tmr ∨ e = .rst ∨ ∃ i ∈ exits, e = commandWrite (encode i) := by
  cases h with
  | command i _ hx =>
    by_cases hi : i ∈ exits
    · exact .inr (.inr ⟨i, hi, rfl⟩)
    · exact .inl (hcmd i (exec_effect hx) hi hs)
  | tick => exact .inl (htick hs)
  | rst => exact .inr (.inl rfl)
  | answer | register | txm | rxm | buf | illegal => exact .inl (by simpa using hs)

/-! ### The obligations -/

/-- Settles O51: the restart arms the timer with its duration, and `k` ticks take `k` off it; a disarmed timer
stays disarmed. -/
theorem timesOutAfterExactlyDTicks : Obligations.TimesOutAfterExactlyDTicks := by
  refine ⟨fun s t k ht => ?_, fun s t k ht => ?_, fun s k => ?_⟩
  · rw [tickStep_iterate_tmr, Timers.rxTo_tick_iterate, execTmrRestartRx_next ht]
    exact and_iff_right rfl
  · rw [tickStep_iterate_tmr, Timers.idleTo_tick_iterate, execTmrRestartIdle_next ht]
    exact and_iff_right rfl
  · rw [tickStep_iterate_tmr, Timers.tick_iterate]
    exact ⟨fun h => not_rxTo_of_disarmed h, fun h => not_idleTo_of_disarmed h⟩

/-- Settles O52: a tick keeps a timeout, and a command that is no exit keeps the timer. -/
theorem timeoutIsSticky : Obligations.TimeoutIsSticky := by
  intro s t e es hs ht
  rw [step_cons hs] at ht
  have h := perform_effect ht
  refine ⟨h.timerFact_sticky Timers.rxTo_tick fun i hx hi ⟨harmed, hcount⟩ => ?_,
    h.timerFact_sticky Timers.idleTo_tick fun i hx hi ⟨harmed, hcount⟩ => ?_⟩
  · obtain ⟨harmed', hcount'⟩ := hx.rxTimer_eq hi
    exact ⟨harmed'.trans harmed, hcount'.trans hcount⟩
  · obtain ⟨harmed', hcount'⟩ := hx.idleTimer_eq hi
    exact ⟨harmed'.trans harmed, hcount'.trans hcount⟩

/-- Settles O53: by what a command can do to each timer; a tick takes off a counter what its own armed bit says. -/
theorem timersAreIndependent : Obligations.TimersAreIndependent := by
  refine ⟨fun i s t ht => ⟨(exec_effect ht).rxTimer_eq, (exec_effect ht).idleTimer_eq⟩,
    fun s s' => ⟨fun harmed hcount => ?_, fun harmed hcount => ?_⟩⟩
  · rw [tickStep_rxCount, tickStep_rxCount, harmed, hcount]
  · rw [tickStep_idleCount, tickStep_idleCount, harmed, hcount]

/-- Settles O20: the step is the tick of the state with the event taken off its script. -/
theorem tickCountsArmedTimersDown : Obligations.TickCountsArmedTimersDown :=
  fun _ _ hs => step_cons hs

/-- Settles O46: the command's meaning, written out. -/
theorem tmrRestartRxEffect : Obligations.TmrRestartRxEffect :=
  ⟨decode_encode .tmrRestartRx, fun _ => rfl⟩

/-- Settles O47: the command's meaning, written out. -/
theorem tmrRestartIdleEffect : Obligations.TmrRestartIdleEffect :=
  ⟨decode_encode .tmrRestartIdle, fun _ => rfl⟩

/-- Settles O48: clear timers are disarmed, so neither is timed out and a tick keeps them. -/
theorem tmrClearEffect : Obligations.TmrClearEffect :=
  ⟨decode_encode .tmrClear, fun s => ⟨(s.setTmr Timers.clear).setResult .ok, rfl, rfl, not_rxTo_of_disarmed rfl,
    not_idleTo_of_disarmed rfl, irq_eq_false_of_clear rfl, congrArg (State.setTmr _) Timers.tick_clear⟩⟩

/-- Settles O49: RES0 is what TMR_EVENT reads, and RES1 is the number of the two bits. -/
theorem tmrPollEffect : Obligations.TmrPollEffect := by
  refine ⟨decode_encode .tmrPoll, fun s => ⟨_, rfl, rfl, rfl, ?_⟩⟩
  obtain ⟨hidle, hrx, hnone⟩ := readReg_tmrEvent_cases s
  refine ⟨hidle, hrx, hnone, ?_⟩
  simp only [State.setResult_res1, State.setRes_res1, Timers.toNat_toWord_rawBits, idleTo_iff_idleTimedOut,
    rxTo_iff_rxTimedOut, Bool.not_eq_true]
  have bits := s.tmr.rawBits_eq_iff
  exact ⟨bits false false, bits false true, bits true false, bits true true⟩

/-- Settles O50: the three cases of the verdict; TMR_EVENT is read-only. -/
theorem idleVerdictTakesPrecedence : Obligations.IdleVerdictTakesPrecedence := by
  intro s
  obtain ⟨hidle, hrx, hnone⟩ := readReg_tmrEvent_cases s
  exact ⟨hidle, hrx, hnone, fun _ => rfl⟩

end Sys2Proof.Machine
end

section
/-! Proofs for the control family: the outcomes of NOP and RESET (R90, R91), and which change to the window variables leads
back to role NONE (R77, R91). -/

namespace Sys2Proof.Machine

variable {s : State} {i : Instr}

/-- Only RESET takes the window out of a role and back to NONE: every other change keeps the role, or sets SEND or RECV
(R68, R69, R77, R91). -/
theorem WindowChange.reset_of_role_none {w : Window} (h : WindowChange s i w) (hs : s.win.role ≠ .none)
    (hw : w.role = .none) : i = .reset := by
  cases h with
  | reset => rfl
  | loaded | receiving => cases hw
  | kept | setwin | framed | acknowledged | appended | drained => exact absurd hw hs

/-! ### The obligations -/

/-- Settles O2: the command's meaning, written out; of the changes to the window, only RESET's leads back to role NONE. -/
theorem resetClearsTheConnection : Obligations.ResetClearsTheConnection :=
  ⟨decode_encode .reset, fun _ => rfl, fun _ _ _ ht => (exec_windowChange ht).reset_of_role_none⟩

/-- Settles O1: the command's meaning and CMD's read value, written out. -/
theorem nopOnlyReportsSuccess : Obligations.NopOnlyReportsSuccess :=
  fun _ => ⟨rfl, rfl, decode_encode .nop⟩

end Sys2Proof.Machine
end

section
/-! Proofs for the exceptions family: which results each command can report (R94), and that a failing command changes only
the registers its code names (R95). -/

namespace Sys2Proof.Machine

open Sys2Proof.Spec

variable {s t : State} {i : Instr}

/-! ### The results of each command -/

/-- A command that tests the role can report ROLE. -/
theorem role_mem_possibleResults {r : Role} (hneed : needs i = some r) : ResultCode.role ∈ possibleResults i := by
  cases i with
  | winLoad | winRecvInit | winSetwin | winNext | winPendRead | winAck | encodeFrame | winAccept | winDrain => decide
  | _ => cases hneed

/-- Every outcome of a command has a result of the command's row in R94's table. -/
theorem Effect.result_mem_possibleResults (h : Effect s i t) : t.result ∈ possibleResults i := by
  cases h with
  | wrongRole _ _ hneed _ => exact role_mem_possibleResults hneed
  | _ => simp [possibleResults]

/-! ### What a failing command changes -/

/-- `Failure s t`: a command that does not end OK may take the state `s` to `t`; one constructor per set of registers that
R95 lets a code change. -/
inductive Failure (s : State) : State → Prop
  | resultOnly {c : ResultCode} (hc : c ∉ [ResultCode.noFrame, .outOfOrder, .overflow, .malformed]) :
      Failure s (s.setResult c)
  | noFrame (reason : Nat) : Failure s ((s.setRes (toWord s.win.pointer) (toWord reason)).setResult .noFrame)
  | notAccepted {c : ResultCode} (hc : c = .outOfOrder ∨ c = .overflow) :
      Failure s ((s.setRes0 (toWord s.win.pointer)).setResult c)
  | malformed : Failure s ((s.setRx { s.rx with flags := RxFlags.clear }).setResult .malformed)

/-- Every outcome of a command but OK is a `Failure`. -/
theorem Effect.failure (h : Effect s i t) (hno : t.result ≠ .ok) : Failure s t := by
  cases h with
  | wrongRole | badKind | badDsize | frameRange | tooBig | winTooSmall | pendRange | ackRejected | noPacket | notData =>
    exact .resultOnly (by decide)
  | bufferEnd | windowCeiling | fifoFull => exact .noFrame _
  | outOfOrder => exact .notAccepted (.inl rfl)
  | overflow => exact .notAccepted (.inr rfl)
  | malformed => exact .malformed
  | _ => exact absurd rfl hno

namespace Failure

/-- No failure changes more than RESULT, RES0, RES1 and RX_FLAGS (R95). -/
theorem eq_update (h : Failure s t) :
    t = { s with result := t.result, res0 := t.res0, res1 := t.res1, rx := { s.rx with flags := t.rx.flags } } := by
  cases h <;> rfl

/-- Of the failures, only NO_FRAME changes RES1 (R95). -/
theorem res1_eq (h : Failure s t) (hres : t.result ≠ .noFrame) : t.res1 = s.res1 := by
  cases h with
  | noFrame => exact absurd rfl hres
  | resultOnly | notAccepted | malformed => rfl

/-- Of the failures, only NO_FRAME, OUT_OF_ORDER and OVERFLOW change RES0 (R95). -/
theorem res0_eq (h : Failure s t) (hres : t.result ∉ [ResultCode.noFrame, .outOfOrder, .overflow]) :
    t.res0 = s.res0 := by
  cases h with
  | noFrame => exact absurd (List.mem_cons_self ..) hres
  | notAccepted hc => rcases hc with rfl | rfl <;> simp at hres
  | resultOnly | malformed => rfl

/-- Of the failures, only MALFORMED changes RX_FLAGS (R95). -/
theorem flags_eq (h : Failure s t) (hres : t.result ≠ .malformed) : t.rx.flags = s.rx.flags := by
  cases h with
  | malformed => exact absurd rfl hres
  | resultOnly | noFrame | notAccepted => rfl

/-- MALFORMED clears RX_FLAGS (R65, R95). -/
theorem flags_eq_clear (h : Failure s t) (hres : t.result = .malformed) : t.rx.flags = RxFlags.clear := by
  cases h with
  | malformed => rfl
  | resultOnly hc =>
    cases hres
    exact absurd hc (by decide)
  | noFrame => cases hres
  | notAccepted hc => rcases hc with rfl | rfl <;> cases hres

end Failure

/-! ### The obligations -/

/-- Settles O56: the table of the codes, and the result of every outcome. -/
theorem resultCodesByCommand : Obligations.ResultCodesByCommand :=
  ⟨fun _ _ => code_of_mem_resultCodes, fun _ _ _ ht => (exec_effect ht).result_mem_possibleResults⟩

/-- Settles O57: one law of `Failure` for each register that R95 names, and one for the rest of the state. -/
theorem failuresArePrecise : Obligations.FailuresArePrecise := by
  intro i s t ht hno
  have h : Failure s t := (exec_effect ht).failure hno
  exact ⟨h.eq_update, h.res1_eq, h.res0_eq, h.flags_eq, h.flags_eq_clear⟩

end Sys2Proof.Machine
end
